-- ==== Sys2Proof/Word.lean ====
section
/-! DEFINITION. The word types of the core: u8, u16 and u64 of rule R10 (00_scope.md). -/

namespace Sys2Proof

/-- A u8: register contents, bus data, one byte of an instruction (R9, R10). -/
abbrev Byte := BitVec 8

/-- A u16: PC and every bus address (R9, R52). -/
abbrev Addr := BitVec 16

/-- A u64: the cycle counter (R31). -/
abbrev Cycles := BitVec 64

end Sys2Proof
end

