-- ==== Sys2Proof/Syntax.lean ====
section
/-! DEFINITION. The instructions as syntax (30_encoding.md). Every row of the opcode table is one constructor of Instr with one addressing mode: all opcode variants of a mnemonic share one semantic function (R102), so the mode is an operand. -/

namespace Sys2Proof

/-- The addressing modes, under the format names of R80. -/
inductive Mode where
  | imp | acc | imm | zp | zpx | zpy | izx | izy | rel | abs | absx | absy | ind
deriving DecidableEq, Repr

/-- An operand in memory: the eight modes that resolve to a data address (R109 to R114), each with
its operand bytes under the names of R81. -/
inductive MemRef where
  | zp (i : Byte)
  | zpx (i : Byte)
  | zpy (i : Byte)
  | izx (i : Byte)
  | izy (i : Byte)
  | abs (l h : Byte)
  | absx (l h : Byte)
  | absy (l h : Byte)
deriving DecidableEq, Repr

/-- The operand of a read-class instruction (R118): an immediate byte, or memory. -/
inductive Operand where
  | imm (i : Byte)
  | mem (m : MemRef)
deriving DecidableEq, Repr

/-- What a shift or rotate works on (R118, R119): the accumulator, or memory. -/
inductive Target where
  | acc
  | mem (m : MemRef)
deriving DecidableEq, Repr

/-- The mode of a memory operand. -/
def MemRef.mode : MemRef → Mode
  | .zp _ => .zp
  | .zpx _ => .zpx
  | .zpy _ => .zpy
  | .izx _ => .izx
  | .izy _ => .izy
  | .abs _ _ => .abs
  | .absx _ _ => .absx
  | .absy _ _ => .absy

/-- The mode of a read-class operand. -/
def Operand.mode : Operand → Mode
  | .imm _ => .imm
  | .mem m => m.mode

/-- The mode of a shift's target. -/
def Target.mode : Target → Mode
  | .acc => .acc
  | .mem m => m.mode

/-- The operations the dispatch table maps opcode bytes to (R83, R85). -/
inductive Operation where
  | adc | sbc | cmp | cpx | cpy
  | asl | lsr | rol | ror | and_ | ora | eor | bit
  | bcc | bcs | beq | bne | bmi | bpl | bvc | bvs | jmp | jsr | rts
  | brk | rti | php | plp | pha | pla
  | lda | ldx | ldy | sta | stx | sty
  | tax | tay | txa | tya | tsx | txs
  | inc | dec | inx | iny | dex | dey
  | clc | sec | cli | sei | cld | sed | clv | nop
  | lax | sax | dcp | isb | slo | rla | sre | rra
deriving DecidableEq, Repr

/-- One instruction. The docstrings name the rule that gives its meaning. -/
inductive Instr where
  /-- R141 -/ | adc (o : Operand)
  /-- R142 -/ | sbc (o : Operand)
  /-- R144 -/ | cmp (o : Operand)
  /-- R145 -/ | cpx (o : Operand)
  /-- R146 -/ | cpy (o : Operand)
  /-- R161 -/ | asl (t : Target)
  /-- R162 -/ | lsr (t : Target)
  /-- R163 -/ | rol (t : Target)
  /-- R164 -/ | ror (t : Target)
  /-- R165 -/ | and_ (o : Operand)
  /-- R166 -/ | ora (o : Operand)
  /-- R167 -/ | eor (o : Operand)
  /-- R168 -/ | bit (m : MemRef)
  /-- R181 -/ | bcc (off : Byte)
  /-- R182 -/ | bcs (off : Byte)
  /-- R183 -/ | beq (off : Byte)
  /-- R184 -/ | bne (off : Byte)
  /-- R185 -/ | bmi (off : Byte)
  /-- R186 -/ | bpl (off : Byte)
  /-- R187 -/ | bvc (off : Byte)
  /-- R188 -/ | bvs (off : Byte)
  /-- JMP absolute, R189 -/ | jmp (l h : Byte)
  /-- JMP indirect, R190 -/ | jmpInd (l h : Byte)
  /-- R191 -/ | jsr (l h : Byte)
  /-- R192 -/ | rts
  /-- R205 -/ | brk
  /-- R209 -/ | rti
  /-- R206 -/ | php
  /-- R207 -/ | plp
  /-- R208 -/ | pha
  /-- R210 -/ | pla
  /-- R220 -/ | lda (o : Operand)
  /-- R221 -/ | ldx (o : Operand)
  /-- R222 -/ | ldy (o : Operand)
  /-- R223 -/ | sta (m : MemRef)
  /-- R224 -/ | stx (m : MemRef)
  /-- R225 -/ | sty (m : MemRef)
  /-- R226 -/ | tax
  /-- R227 -/ | tay
  /-- R228 -/ | txa
  /-- R229 -/ | tya
  /-- R230 -/ | tsx
  /-- R231 -/ | txs
  /-- R232 -/ | inc (m : MemRef)
  /-- R233 -/ | dec (m : MemRef)
  /-- R234 -/ | inx
  /-- R235 -/ | iny
  /-- R236 -/ | dex
  /-- R237 -/ | dey
  /-- R238 -/ | clc
  /-- R239 -/ | sec
  /-- R240 -/ | cli
  /-- R241 -/ | sei
  /-- R242 -/ | cld
  /-- R243 -/ | sed
  /-- R244 -/ | clv
  /-- NOP, opcode EA, R245 -/ | nop
  /-- R261 -/ | lax (m : MemRef)
  /-- R262 -/ | sax (m : MemRef)
  /-- SBC, undocumented opcode EB, R263 -/ | sbcEB (i : Byte)
  /-- R264 -/ | dcp (m : MemRef)
  /-- R265 -/ | isb (m : MemRef)
  /-- R266 -/ | slo (m : MemRef)
  /-- R267 -/ | rla (m : MemRef)
  /-- R268 -/ | sre (m : MemRef)
  /-- R269 -/ | rra (m : MemRef)
  /-- NOP, undocumented implied, R270; six opcode bytes share it, op says which -/ | nopImp (op : Byte)
  /-- NOP, undocumented immediate (80), R270 -/ | nopImm (i : Byte)
  /-- NOP, undocumented with a memory operand, R271; op says which of the opcode bytes of its mode -/ | nopMem (op : Byte) (m : MemRef)
  /-- INVALID: an opcode byte with no dispatch-table entry, R86, R300 -/ | invalid (op : Byte)
deriving DecidableEq, Repr

end Sys2Proof
end

