-- ==== Sys2Proof/WellFormed.lean ====
section
/-! DEFINITION. Which terms of Instr are instructions: the modes each instruction rule lists (files 41 to 46), the opcode bytes of the undocumented NOPs (R270, R271) and the 29 absent bytes (R86). -/

namespace Sys2Proof

/-- The eight modes of ADC, SBC, AND, ORA, EOR, CMP and LDA (R141, R142, R144, R165, R166, R167, R220). -/
def accumulatorModes : List Mode := [.imm, .zp, .zpx, .abs, .absx, .absy, .izx, .izy]

/-- The seven modes of STA (R223) and of the read-modify-write combinations (46_unofficial.md section 3). -/
def sevenMemoryModes : List Mode := [.zp, .zpx, .abs, .absx, .absy, .izx, .izy]

/-- The memory modes of the shifts, INC and DEC (R161 to R164, R232, R233). -/
def modifyModes : List Mode := [.zp, .zpx, .abs, .absx]

/-- The opcode bytes of the implied undocumented NOPs (R270). -/
def nopImpOpcodes : List Byte := [0x1A, 0x3A, 0x5A, 0x7A, 0xDA, 0xFA]

/-- The opcode bytes of the memory-operand NOPs of each mode (R271). -/
def nopMemOpcodes : Mode → List Byte
  | .zp => [0x04, 0x44, 0x64]
  | .zpx => [0x14, 0x34, 0x54, 0x74, 0xD4, 0xF4]
  | .abs => [0x0C]
  | .absx => [0x1C, 0x3C, 0x5C, 0x7C, 0xDC, 0xFC]
  | .imp | .acc | .imm | .zpy | .izx | .izy | .rel | .absy | .ind => []

/-- The 29 opcode bytes with no entry (R86). -/
def absentOpcodes : List Byte :=
  [0x02, 0x12, 0x22, 0x32, 0x42, 0x52, 0x62, 0x72, 0x92, 0xB2, 0xD2, 0xF2] ++
  [0x0B, 0x2B, 0x4B, 0x6B, 0x8B, 0xAB, 0xCB, 0x93, 0x9F, 0x9C, 0x9E, 0x9B, 0xBB] ++
  [0x82, 0x89, 0xC2, 0xE2]

/-- Well-formedness: the instruction has an encoding in the table of R84. -/
def Instr.wf : Instr → Bool
  | .adc o | .sbc o | .cmp o | .and_ o | .ora o | .eor o | .lda o => accumulatorModes.contains o.mode
  | .cpx o | .cpy o => [Mode.imm, .zp, .abs].contains o.mode
  | .ldx o => [Mode.imm, .zp, .zpy, .abs, .absy].contains o.mode
  | .ldy o => [Mode.imm, .zp, .zpx, .abs, .absx].contains o.mode
  | .asl t | .lsr t | .rol t | .ror t => (Mode.acc :: modifyModes).contains t.mode
  | .inc m | .dec m => modifyModes.contains m.mode
  | .bit m => [Mode.zp, .abs].contains m.mode
  | .sta m | .dcp m | .isb m | .slo m | .rla m | .sre m | .rra m => sevenMemoryModes.contains m.mode
  | .stx m => [Mode.zp, .zpy, .abs].contains m.mode
  | .sty m => [Mode.zp, .zpx, .abs].contains m.mode
  | .lax m => [Mode.zp, .zpy, .abs, .absy, .izx, .izy].contains m.mode
  | .sax m => [Mode.zp, .zpy, .abs, .izx].contains m.mode
  | .nopImp op => nopImpOpcodes.contains op
  | .nopMem op m => (nopMemOpcodes m.mode).contains op
  | .invalid op => absentOpcodes.contains op
  | .bcc _ | .bcs _ | .beq _ | .bne _ | .bmi _ | .bpl _ | .bvc _ | .bvs _ => true
  | .jmp _ _ | .jmpInd _ _ | .jsr _ _ | .rts | .brk | .rti | .php | .plp | .pha | .pla => true
  | .tax | .tay | .txa | .tya | .tsx | .txs | .inx | .iny | .dex | .dey => true
  | .clc | .sec | .cli | .sei | .cld | .sed | .clv | .nop | .sbcEB _ | .nopImm _ => true

end Sys2Proof
end

