-- ==== Sys2Proof/Decode.lean ====
section
/-! DEFINITION. The opcode dispatch table (30_encoding.md R83, R84), the decoder that reads it, total on any bytes, and the encoder written from the table by mnemonic (R85). -/

namespace Sys2Proof

/-- A dispatch-table entry (R83): {operation, addressing mode, base cycle cost, length,
page-cross-penalty flag}, and whether the opcode is documented. The length is the mode's (R80). -/
structure Entry where
  operation : Operation
  mode : Mode
  base : Nat
  penalty : Bool
  official : Bool
deriving DecidableEq, Repr

/-- A documented cell of R84. -/
def doc (o : Operation) (m : Mode) (base : Nat) : Option Entry := some ⟨o, m, base, false, true⟩
/-- A documented cell of R84 with "+". -/
def docP (o : Operation) (m : Mode) (base : Nat) : Option Entry := some ⟨o, m, base, true, true⟩
/-- A cell of R84 with a star. -/
def und (o : Operation) (m : Mode) (base : Nat) : Option Entry := some ⟨o, m, base, false, false⟩
/-- A cell of R84 with a star and "+". -/
def undP (o : Operation) (m : Mode) (base : Nat) : Option Entry := some ⟨o, m, base, true, false⟩

/-- Row 0x of R84. -/
def row0 : List (Option Entry) :=
  [doc .brk .imp 7, doc .ora .izx 6, none, und .slo .izx 8,
   und .nop .zp 3, doc .ora .zp 3, doc .asl .zp 5, und .slo .zp 5,
   doc .php .imp 3, doc .ora .imm 2, doc .asl .acc 2, none,
   und .nop .abs 4, doc .ora .abs 4, doc .asl .abs 6, und .slo .abs 6]

/-- Row 1x of R84. -/
def row1 : List (Option Entry) :=
  [doc .bpl .rel 2, docP .ora .izy 5, none, und .slo .izy 8,
   und .nop .zpx 4, doc .ora .zpx 4, doc .asl .zpx 6, und .slo .zpx 6,
   doc .clc .imp 2, docP .ora .absy 4, und .nop .imp 2, und .slo .absy 7,
   undP .nop .absx 4, docP .ora .absx 4, doc .asl .absx 7, und .slo .absx 7]

/-- Row 2x of R84. -/
def row2 : List (Option Entry) :=
  [doc .jsr .abs 6, doc .and_ .izx 6, none, und .rla .izx 8,
   doc .bit .zp 3, doc .and_ .zp 3, doc .rol .zp 5, und .rla .zp 5,
   doc .plp .imp 4, doc .and_ .imm 2, doc .rol .acc 2, none,
   doc .bit .abs 4, doc .and_ .abs 4, doc .rol .abs 6, und .rla .abs 6]

/-- Row 3x of R84. -/
def row3 : List (Option Entry) :=
  [doc .bmi .rel 2, docP .and_ .izy 5, none, und .rla .izy 8,
   und .nop .zpx 4, doc .and_ .zpx 4, doc .rol .zpx 6, und .rla .zpx 6,
   doc .sec .imp 2, docP .and_ .absy 4, und .nop .imp 2, und .rla .absy 7,
   undP .nop .absx 4, docP .and_ .absx 4, doc .rol .absx 7, und .rla .absx 7]

/-- Row 4x of R84. -/
def row4 : List (Option Entry) :=
  [doc .rti .imp 6, doc .eor .izx 6, none, und .sre .izx 8,
   und .nop .zp 3, doc .eor .zp 3, doc .lsr .zp 5, und .sre .zp 5,
   doc .pha .imp 3, doc .eor .imm 2, doc .lsr .acc 2, none,
   doc .jmp .abs 3, doc .eor .abs 4, doc .lsr .abs 6, und .sre .abs 6]

/-- Row 5x of R84. -/
def row5 : List (Option Entry) :=
  [doc .bvc .rel 2, docP .eor .izy 5, none, und .sre .izy 8,
   und .nop .zpx 4, doc .eor .zpx 4, doc .lsr .zpx 6, und .sre .zpx 6,
   doc .cli .imp 2, docP .eor .absy 4, und .nop .imp 2, und .sre .absy 7,
   undP .nop .absx 4, docP .eor .absx 4, doc .lsr .absx 7, und .sre .absx 7]

/-- Row 6x of R84. -/
def row6 : List (Option Entry) :=
  [doc .rts .imp 6, doc .adc .izx 6, none, und .rra .izx 8,
   und .nop .zp 3, doc .adc .zp 3, doc .ror .zp 5, und .rra .zp 5,
   doc .pla .imp 4, doc .adc .imm 2, doc .ror .acc 2, none,
   doc .jmp .ind 5, doc .adc .abs 4, doc .ror .abs 6, und .rra .abs 6]

/-- Row 7x of R84. -/
def row7 : List (Option Entry) :=
  [doc .bvs .rel 2, docP .adc .izy 5, none, und .rra .izy 8,
   und .nop .zpx 4, doc .adc .zpx 4, doc .ror .zpx 6, und .rra .zpx 6,
   doc .sei .imp 2, docP .adc .absy 4, und .nop .imp 2, und .rra .absy 7,
   undP .nop .absx 4, docP .adc .absx 4, doc .ror .absx 7, und .rra .absx 7]

/-- Row 8x of R84. -/
def row8 : List (Option Entry) :=
  [und .nop .imm 2, doc .sta .izx 6, none, und .sax .izx 6,
   doc .sty .zp 3, doc .sta .zp 3, doc .stx .zp 3, und .sax .zp 3,
   doc .dey .imp 2, none, doc .txa .imp 2, none,
   doc .sty .abs 4, doc .sta .abs 4, doc .stx .abs 4, und .sax .abs 4]

/-- Row 9x of R84. -/
def row9 : List (Option Entry) :=
  [doc .bcc .rel 2, doc .sta .izy 6, none, none,
   doc .sty .zpx 4, doc .sta .zpx 4, doc .stx .zpy 4, und .sax .zpy 4,
   doc .tya .imp 2, doc .sta .absy 5, doc .txs .imp 2, none,
   none, doc .sta .absx 5, none, none]

/-- Row Ax of R84. -/
def rowA : List (Option Entry) :=
  [doc .ldy .imm 2, doc .lda .izx 6, doc .ldx .imm 2, und .lax .izx 6,
   doc .ldy .zp 3, doc .lda .zp 3, doc .ldx .zp 3, und .lax .zp 3,
   doc .tay .imp 2, doc .lda .imm 2, doc .tax .imp 2, none,
   doc .ldy .abs 4, doc .lda .abs 4, doc .ldx .abs 4, und .lax .abs 4]

/-- Row Bx of R84. -/
def rowB : List (Option Entry) :=
  [doc .bcs .rel 2, docP .lda .izy 5, none, undP .lax .izy 5,
   doc .ldy .zpx 4, doc .lda .zpx 4, doc .ldx .zpy 4, und .lax .zpy 4,
   doc .clv .imp 2, docP .lda .absy 4, doc .tsx .imp 2, none,
   docP .ldy .absx 4, docP .lda .absx 4, docP .ldx .absy 4, undP .lax .absy 4]

/-- Row Cx of R84. -/
def rowC : List (Option Entry) :=
  [doc .cpy .imm 2, doc .cmp .izx 6, none, und .dcp .izx 8,
   doc .cpy .zp 3, doc .cmp .zp 3, doc .dec .zp 5, und .dcp .zp 5,
   doc .iny .imp 2, doc .cmp .imm 2, doc .dex .imp 2, none,
   doc .cpy .abs 4, doc .cmp .abs 4, doc .dec .abs 6, und .dcp .abs 6]

/-- Row Dx of R84. -/
def rowD : List (Option Entry) :=
  [doc .bne .rel 2, docP .cmp .izy 5, none, und .dcp .izy 8,
   und .nop .zpx 4, doc .cmp .zpx 4, doc .dec .zpx 6, und .dcp .zpx 6,
   doc .cld .imp 2, docP .cmp .absy 4, und .nop .imp 2, und .dcp .absy 7,
   undP .nop .absx 4, docP .cmp .absx 4, doc .dec .absx 7, und .dcp .absx 7]

/-- Row Ex of R84. -/
def rowE : List (Option Entry) :=
  [doc .cpx .imm 2, doc .sbc .izx 6, none, und .isb .izx 8,
   doc .cpx .zp 3, doc .sbc .zp 3, doc .inc .zp 5, und .isb .zp 5,
   doc .inx .imp 2, doc .sbc .imm 2, doc .nop .imp 2, und .sbc .imm 2,
   doc .cpx .abs 4, doc .sbc .abs 4, doc .inc .abs 6, und .isb .abs 6]

/-- Row Fx of R84. -/
def rowF : List (Option Entry) :=
  [doc .beq .rel 2, docP .sbc .izy 5, none, und .isb .izy 8,
   und .nop .zpx 4, doc .sbc .zpx 4, doc .inc .zpx 6, und .isb .zpx 6,
   doc .sed .imp 2, docP .sbc .absy 4, und .nop .imp 2, und .isb .absy 7,
   undP .nop .absx 4, docP .sbc .absx 4, doc .inc .absx 7, und .isb .absx 7]

/-- The opcode map of R84, row by row: cell n is the entry of opcode byte n. -/
def opcodeMap : List (Option Entry) :=
  row0 ++ row1 ++ row2 ++ row3 ++ row4 ++ row5 ++ row6 ++ row7 ++
  row8 ++ row9 ++ rowA ++ rowB ++ rowC ++ rowD ++ rowE ++ rowF

/-- The opcode_dispatch_table (R83): "a mapping from opcode byte (0–255) to an executable unit; absent
entries signal an unimplemented/invalid opcode". -/
def dispatchTable (op : Byte) : Option Entry := opcodeMap.getD op.toNat none

/-- The length in bytes of each format (R80). -/
def Mode.length : Mode → Nat
  | .imp | .acc => 1
  | .imm | .zp | .zpx | .zpy | .izx | .izy | .rel => 2
  | .abs | .absx | .absy | .ind => 3

/-- The memory operand of a mode from the operand bytes (R81); for a length-2 mode the one operand byte
is l, and h is not looked at. -/
def memRefOf (m : Mode) (l h : Byte) : Option MemRef :=
  match m with
  | .zp => some (.zp l)
  | .zpx => some (.zpx l)
  | .zpy => some (.zpy l)
  | .izx => some (.izx l)
  | .izy => some (.izy l)
  | .abs => some (.abs l h)
  | .absx => some (.absx l h)
  | .absy => some (.absy l h)
  | .imp | .acc | .imm | .rel | .ind => none

/-- The read-class operand of a mode: the immediate byte, or memory. -/
def operandOf (m : Mode) (l h : Byte) : Option Operand :=
  match m with
  | .imm => some (.imm l)
  | m => (memRefOf m l h).map .mem

/-- The target of a shift: the accumulator, or memory. -/
def targetOf (m : Mode) (l h : Byte) : Option Target :=
  match m with
  | .acc => some .acc
  | m => (memRefOf m l h).map .mem

/-- The instruction an entry stands for, with its operand bytes. No entry of the table gives none. -/
def assemble (op : Byte) (e : Entry) (l h : Byte) : Option Instr :=
  let operand := operandOf e.mode l h
  let memory := memRefOf e.mode l h
  let target := targetOf e.mode l h
  match e.operation with
  | .adc => operand.map .adc
  | .sbc => if e.official then operand.map .sbc else some (.sbcEB l)
  | .cmp => operand.map .cmp
  | .cpx => operand.map .cpx
  | .cpy => operand.map .cpy
  | .asl => target.map .asl
  | .lsr => target.map .lsr
  | .rol => target.map .rol
  | .ror => target.map .ror
  | .and_ => operand.map .and_
  | .ora => operand.map .ora
  | .eor => operand.map .eor
  | .bit => memory.map .bit
  | .bcc => some (.bcc l)
  | .bcs => some (.bcs l)
  | .beq => some (.beq l)
  | .bne => some (.bne l)
  | .bmi => some (.bmi l)
  | .bpl => some (.bpl l)
  | .bvc => some (.bvc l)
  | .bvs => some (.bvs l)
  | .jmp => if e.mode = .ind then some (.jmpInd l h) else some (.jmp l h)
  | .jsr => some (.jsr l h)
  | .rts => some .rts
  | .brk => some .brk
  | .rti => some .rti
  | .php => some .php
  | .plp => some .plp
  | .pha => some .pha
  | .pla => some .pla
  | .lda => operand.map .lda
  | .ldx => operand.map .ldx
  | .ldy => operand.map .ldy
  | .sta => memory.map .sta
  | .stx => memory.map .stx
  | .sty => memory.map .sty
  | .tax => some .tax
  | .tay => some .tay
  | .txa => some .txa
  | .tya => some .tya
  | .tsx => some .tsx
  | .txs => some .txs
  | .inc => memory.map .inc
  | .dec => memory.map .dec
  | .inx => some .inx
  | .iny => some .iny
  | .dex => some .dex
  | .dey => some .dey
  | .clc => some .clc
  | .sec => some .sec
  | .cli => some .cli
  | .sei => some .sei
  | .cld => some .cld
  | .sed => some .sed
  | .clv => some .clv
  | .nop =>
    if e.official then some .nop
    else if e.mode = .imp then some (.nopImp op)
    else if e.mode = .imm then some (.nopImm l)
    else memory.map (.nopMem op)
  | .lax => memory.map .lax
  | .sax => memory.map .sax
  | .dcp => memory.map .dcp
  | .isb => memory.map .isb
  | .slo => memory.map .slo
  | .rla => memory.map .rla
  | .sre => memory.map .sre
  | .rra => memory.map .rra

/-- The decoder on the three bytes at the program counter: an absent entry is INVALID (R86), and a byte
the instruction's length leaves out is not looked at. -/
def decodeBytes (op l h : Byte) : Instr :=
  match dispatchTable op with
  | none => .invalid op
  | some e => (assemble op e l h).getD (.invalid op)

/-- Why bytes are no instruction: a byte string can only end too soon, since every opcode byte is an
instruction or INVALID. -/
inductive DecodeError where
  /-- There is no opcode byte. -/
  | empty
  /-- The opcode's operand bytes (R80) are not all there. -/
  | truncated (op : Byte)
deriving DecidableEq, Repr

/-- The number of bytes of the instruction with this opcode byte (R82): the mode's length, and 1 for an
absent entry. -/
def lengthOf (op : Byte) : Nat :=
  match dispatchTable op with
  | none => 1
  | some e => e.mode.length

/-- The decoder on a byte string: one instruction and the bytes after it. -/
def decode : List Byte → Except DecodeError (Instr × List Byte)
  | [] => .error .empty
  | op :: rest =>
    match lengthOf op, rest with
    | 1, rest => .ok (decodeBytes op 0 0, rest)
    | 2, l :: rest => .ok (decodeBytes op l 0, rest)
    | 3, l :: h :: rest => .ok (decodeBytes op l h, rest)
    | _, _ => .error (.truncated op)

/-- The mode of an instruction; INVALID is one byte long, like an implied instruction. -/
def Instr.mode : Instr → Mode
  | .adc o | .sbc o | .cmp o | .cpx o | .cpy o | .and_ o | .ora o | .eor o | .lda o | .ldx o | .ldy o => o.mode
  | .asl t | .lsr t | .rol t | .ror t => t.mode
  | .bit m | .sta m | .stx m | .sty m | .inc m | .dec m | .lax m | .sax m => m.mode
  | .dcp m | .isb m | .slo m | .rla m | .sre m | .rra m | .nopMem _ m => m.mode
  | .bcc _ | .bcs _ | .beq _ | .bne _ | .bmi _ | .bpl _ | .bvc _ | .bvs _ => .rel
  | .jmp _ _ | .jsr _ _ => .abs
  | .jmpInd _ _ => .ind
  | .sbcEB _ | .nopImm _ => .imm
  | .rts | .brk | .rti | .php | .plp | .pha | .pla => .imp
  | .tax | .tay | .txa | .tya | .tsx | .txs | .inx | .iny | .dex | .dey => .imp
  | .clc | .sec | .cli | .sei | .cld | .sed | .clv | .nop | .nopImp _ | .invalid _ => .imp

/-- The length of an instruction in bytes (R80, R82). -/
def Instr.length (i : Instr) : Nat := i.mode.length

/-- The forms of each mnemonic, as the table by mnemonic gives them (R85); the undocumented NOPs and the
undocumented SBC have lines of their own in opcodeOf. -/
def forms : Operation → List (Mode × Byte)
  | .adc => [(.izx, 0x61), (.zp, 0x65), (.imm, 0x69), (.abs, 0x6D), (.izy, 0x71), (.zpx, 0x75), (.absy, 0x79), (.absx, 0x7D)]
  | .and_ => [(.izx, 0x21), (.zp, 0x25), (.imm, 0x29), (.abs, 0x2D), (.izy, 0x31), (.zpx, 0x35), (.absy, 0x39), (.absx, 0x3D)]
  | .asl => [(.zp, 0x06), (.acc, 0x0A), (.abs, 0x0E), (.zpx, 0x16), (.absx, 0x1E)]
  | .bcc => [(.rel, 0x90)]
  | .bcs => [(.rel, 0xB0)]
  | .beq => [(.rel, 0xF0)]
  | .bit => [(.zp, 0x24), (.abs, 0x2C)]
  | .bmi => [(.rel, 0x30)]
  | .bne => [(.rel, 0xD0)]
  | .bpl => [(.rel, 0x10)]
  | .brk => [(.imp, 0x00)]
  | .bvc => [(.rel, 0x50)]
  | .bvs => [(.rel, 0x70)]
  | .clc => [(.imp, 0x18)]
  | .cld => [(.imp, 0xD8)]
  | .cli => [(.imp, 0x58)]
  | .clv => [(.imp, 0xB8)]
  | .cmp => [(.izx, 0xC1), (.zp, 0xC5), (.imm, 0xC9), (.abs, 0xCD), (.izy, 0xD1), (.zpx, 0xD5), (.absy, 0xD9), (.absx, 0xDD)]
  | .cpx => [(.imm, 0xE0), (.zp, 0xE4), (.abs, 0xEC)]
  | .cpy => [(.imm, 0xC0), (.zp, 0xC4), (.abs, 0xCC)]
  | .dcp => [(.izx, 0xC3), (.zp, 0xC7), (.abs, 0xCF), (.izy, 0xD3), (.zpx, 0xD7), (.absy, 0xDB), (.absx, 0xDF)]
  | .dec => [(.zp, 0xC6), (.abs, 0xCE), (.zpx, 0xD6), (.absx, 0xDE)]
  | .dex => [(.imp, 0xCA)]
  | .dey => [(.imp, 0x88)]
  | .eor => [(.izx, 0x41), (.zp, 0x45), (.imm, 0x49), (.abs, 0x4D), (.izy, 0x51), (.zpx, 0x55), (.absy, 0x59), (.absx, 0x5D)]
  | .inc => [(.zp, 0xE6), (.abs, 0xEE), (.zpx, 0xF6), (.absx, 0xFE)]
  | .inx => [(.imp, 0xE8)]
  | .iny => [(.imp, 0xC8)]
  | .isb => [(.izx, 0xE3), (.zp, 0xE7), (.abs, 0xEF), (.izy, 0xF3), (.zpx, 0xF7), (.absy, 0xFB), (.absx, 0xFF)]
  | .jmp => [(.abs, 0x4C), (.ind, 0x6C)]
  | .jsr => [(.abs, 0x20)]
  | .lax => [(.izx, 0xA3), (.zp, 0xA7), (.abs, 0xAF), (.izy, 0xB3), (.zpy, 0xB7), (.absy, 0xBF)]
  | .lda => [(.izx, 0xA1), (.zp, 0xA5), (.imm, 0xA9), (.abs, 0xAD), (.izy, 0xB1), (.zpx, 0xB5), (.absy, 0xB9), (.absx, 0xBD)]
  | .ldx => [(.imm, 0xA2), (.zp, 0xA6), (.abs, 0xAE), (.zpy, 0xB6), (.absy, 0xBE)]
  | .ldy => [(.imm, 0xA0), (.zp, 0xA4), (.abs, 0xAC), (.zpx, 0xB4), (.absx, 0xBC)]
  | .lsr => [(.zp, 0x46), (.acc, 0x4A), (.abs, 0x4E), (.zpx, 0x56), (.absx, 0x5E)]
  | .nop => [(.imp, 0xEA)]
  | .ora => [(.izx, 0x01), (.zp, 0x05), (.imm, 0x09), (.abs, 0x0D), (.izy, 0x11), (.zpx, 0x15), (.absy, 0x19), (.absx, 0x1D)]
  | .pha => [(.imp, 0x48)]
  | .php => [(.imp, 0x08)]
  | .pla => [(.imp, 0x68)]
  | .plp => [(.imp, 0x28)]
  | .rla => [(.izx, 0x23), (.zp, 0x27), (.abs, 0x2F), (.izy, 0x33), (.zpx, 0x37), (.absy, 0x3B), (.absx, 0x3F)]
  | .rol => [(.zp, 0x26), (.acc, 0x2A), (.abs, 0x2E), (.zpx, 0x36), (.absx, 0x3E)]
  | .ror => [(.zp, 0x66), (.acc, 0x6A), (.abs, 0x6E), (.zpx, 0x76), (.absx, 0x7E)]
  | .rra => [(.izx, 0x63), (.zp, 0x67), (.abs, 0x6F), (.izy, 0x73), (.zpx, 0x77), (.absy, 0x7B), (.absx, 0x7F)]
  | .rti => [(.imp, 0x40)]
  | .rts => [(.imp, 0x60)]
  | .sax => [(.izx, 0x83), (.zp, 0x87), (.abs, 0x8F), (.zpy, 0x97)]
  | .sbc => [(.izx, 0xE1), (.zp, 0xE5), (.imm, 0xE9), (.abs, 0xED), (.izy, 0xF1), (.zpx, 0xF5), (.absy, 0xF9), (.absx, 0xFD)]
  | .sec => [(.imp, 0x38)]
  | .sed => [(.imp, 0xF8)]
  | .sei => [(.imp, 0x78)]
  | .slo => [(.izx, 0x03), (.zp, 0x07), (.abs, 0x0F), (.izy, 0x13), (.zpx, 0x17), (.absy, 0x1B), (.absx, 0x1F)]
  | .sre => [(.izx, 0x43), (.zp, 0x47), (.abs, 0x4F), (.izy, 0x53), (.zpx, 0x57), (.absy, 0x5B), (.absx, 0x5F)]
  | .sta => [(.izx, 0x81), (.zp, 0x85), (.abs, 0x8D), (.izy, 0x91), (.zpx, 0x95), (.absy, 0x99), (.absx, 0x9D)]
  | .stx => [(.zp, 0x86), (.abs, 0x8E), (.zpy, 0x96)]
  | .sty => [(.zp, 0x84), (.abs, 0x8C), (.zpx, 0x94)]
  | .tax => [(.imp, 0xAA)]
  | .tay => [(.imp, 0xA8)]
  | .tsx => [(.imp, 0xBA)]
  | .txa => [(.imp, 0x8A)]
  | .txs => [(.imp, 0x9A)]
  | .tya => [(.imp, 0x98)]

/-- The opcode byte of an instruction, from R85; none where the instruction has no encoding. -/
def opcodeOf : Instr → Option Byte
  | .adc o => (forms .adc).lookup o.mode
  | .sbc o => (forms .sbc).lookup o.mode
  | .cmp o => (forms .cmp).lookup o.mode
  | .cpx o => (forms .cpx).lookup o.mode
  | .cpy o => (forms .cpy).lookup o.mode
  | .asl t => (forms .asl).lookup t.mode
  | .lsr t => (forms .lsr).lookup t.mode
  | .rol t => (forms .rol).lookup t.mode
  | .ror t => (forms .ror).lookup t.mode
  | .and_ o => (forms .and_).lookup o.mode
  | .ora o => (forms .ora).lookup o.mode
  | .eor o => (forms .eor).lookup o.mode
  | .bit m => (forms .bit).lookup m.mode
  | .bcc _ => (forms .bcc).lookup .rel
  | .bcs _ => (forms .bcs).lookup .rel
  | .beq _ => (forms .beq).lookup .rel
  | .bne _ => (forms .bne).lookup .rel
  | .bmi _ => (forms .bmi).lookup .rel
  | .bpl _ => (forms .bpl).lookup .rel
  | .bvc _ => (forms .bvc).lookup .rel
  | .bvs _ => (forms .bvs).lookup .rel
  | .jmp _ _ => (forms .jmp).lookup .abs
  | .jmpInd _ _ => (forms .jmp).lookup .ind
  | .jsr _ _ => (forms .jsr).lookup .abs
  | .rts => (forms .rts).lookup .imp
  | .brk => (forms .brk).lookup .imp
  | .rti => (forms .rti).lookup .imp
  | .php => (forms .php).lookup .imp
  | .plp => (forms .plp).lookup .imp
  | .pha => (forms .pha).lookup .imp
  | .pla => (forms .pla).lookup .imp
  | .lda o => (forms .lda).lookup o.mode
  | .ldx o => (forms .ldx).lookup o.mode
  | .ldy o => (forms .ldy).lookup o.mode
  | .sta m => (forms .sta).lookup m.mode
  | .stx m => (forms .stx).lookup m.mode
  | .sty m => (forms .sty).lookup m.mode
  | .tax => (forms .tax).lookup .imp
  | .tay => (forms .tay).lookup .imp
  | .txa => (forms .txa).lookup .imp
  | .tya => (forms .tya).lookup .imp
  | .tsx => (forms .tsx).lookup .imp
  | .txs => (forms .txs).lookup .imp
  | .inc m => (forms .inc).lookup m.mode
  | .dec m => (forms .dec).lookup m.mode
  | .inx => (forms .inx).lookup .imp
  | .iny => (forms .iny).lookup .imp
  | .dex => (forms .dex).lookup .imp
  | .dey => (forms .dey).lookup .imp
  | .clc => (forms .clc).lookup .imp
  | .sec => (forms .sec).lookup .imp
  | .cli => (forms .cli).lookup .imp
  | .sei => (forms .sei).lookup .imp
  | .cld => (forms .cld).lookup .imp
  | .sed => (forms .sed).lookup .imp
  | .clv => (forms .clv).lookup .imp
  | .nop => (forms .nop).lookup .imp
  | .lax m => (forms .lax).lookup m.mode
  | .sax m => (forms .sax).lookup m.mode
  | .sbcEB _ => some 0xEB
  | .dcp m => (forms .dcp).lookup m.mode
  | .isb m => (forms .isb).lookup m.mode
  | .slo m => (forms .slo).lookup m.mode
  | .rla m => (forms .rla).lookup m.mode
  | .sre m => (forms .sre).lookup m.mode
  | .rra m => (forms .rra).lookup m.mode
  | .nopImp op => if nopImpOpcodes.contains op then some op else none
  | .nopImm _ => some 0x80
  | .nopMem op m => if (nopMemOpcodes m.mode).contains op then some op else none
  | .invalid op => if absentOpcodes.contains op then some op else none

/-- The operand bytes of a memory operand, in the order they stand at PC+1 and PC+2 (R80). -/
def MemRef.bytes : MemRef → List Byte
  | .zp i | .zpx i | .zpy i | .izx i | .izy i => [i]
  | .abs l h | .absx l h | .absy l h => [l, h]

/-- The operand bytes of a read-class operand. -/
def Operand.bytes : Operand → List Byte
  | .imm i => [i]
  | .mem m => m.bytes

/-- The operand bytes of a shift's target. -/
def Target.bytes : Target → List Byte
  | .acc => []
  | .mem m => m.bytes

/-- The operand bytes of an instruction (R80). -/
def Instr.operandBytes : Instr → List Byte
  | .adc o | .sbc o | .cmp o | .cpx o | .cpy o | .and_ o | .ora o | .eor o | .lda o | .ldx o | .ldy o => o.bytes
  | .asl t | .lsr t | .rol t | .ror t => t.bytes
  | .bit m | .sta m | .stx m | .sty m | .inc m | .dec m | .lax m | .sax m => m.bytes
  | .dcp m | .isb m | .slo m | .rla m | .sre m | .rra m | .nopMem _ m => m.bytes
  | .bcc off | .bcs off | .beq off | .bne off | .bmi off | .bpl off | .bvc off | .bvs off => [off]
  | .jmp l h | .jmpInd l h | .jsr l h => [l, h]
  | .sbcEB i | .nopImm i => [i]
  | .rts | .brk | .rti | .php | .plp | .pha | .pla => []
  | .tax | .tay | .txa | .tya | .tsx | .txs | .inx | .iny | .dex | .dey => []
  | .clc | .sec | .cli | .sei | .cld | .sed | .clv | .nop | .nopImp _ | .invalid _ => []

/-- The bytes of an instruction: the opcode byte and its operand bytes; none where the term is no
instruction. -/
def encode (i : Instr) : Option (List Byte) := (opcodeOf i).map (· :: i.operandBytes)

/-- The entry of the dispatch table an instruction runs under. -/
def entryOf (i : Instr) : Option Entry := (opcodeOf i).bind dispatchTable

/-- Whether the dispatch table under this UNOFFICIAL_SET has the opcode byte: the documented opcodes, and
the undocumented ones of the set (R3, R9, D1). -/
def admitted (unofficialSet : List Byte) (op : Byte) : Bool :=
  match dispatchTable op with
  | none => false
  | some e => e.official || unofficialSet.contains op

/-- What the decoder reads from an instruction numbered as opcode_table.json numbers it: byte k of the
instruction is bits 8k+7 to 8k of w, and every bit from nbits on is 0. -/
def decodeTableWord (nbits w : Nat) : Option Instr :=
  if nbits < 8 then none
  else
    let v := w % 2 ^ nbits
    some (decodeBytes (BitVec.ofNat 8 v) (BitVec.ofNat 8 (v / 256)) (BitVec.ofNat 8 (v / 65536)))

end Sys2Proof
end

