-- ==== Sys2Proof/Machine/Bits.lean ====
section
/-! DEFINITION. Byte and word helpers of 00_scope.md R10 and R11. -/

namespace Sys2Proof.Machine

/-- The low byte of a word (R10). -/
def lo8 (w : Addr) : Byte := w.setWidth 8

/-- The high byte of a word (R10). -/
def hi8 (w : Addr) : Byte := w.extractLsb' 8 8

/-- A word from its high and its low byte (R10). -/
def w16 (h l : Byte) : Addr := h ++ l

/-- A byte as an address of page zero. -/
def zeroPage (b : Byte) : Addr := b.setWidth 16

/-- The signed reading of a byte as a word (R11). -/
def sext16 (b : Byte) : Addr := b.signExtend 16

end Sys2Proof.Machine
end

