-- ==== Sys2Proof/Machine/Bus.lean ====
section
/-! DEFINITION. The bus interface, a parameter of the machine (00_scope.md R9; 20_memory.md R50, R51), and its default, the default mapper (R54, R55), with the store it keeps in canonical form. -/

namespace Sys2Proof.Machine

/-- The bus interface (R50): "`read(address: u16) -> u8`, `write(address: u16, value: u8)`, plus a
parallel pair for the video-register channel"; σ is its BusState, and a read returns a
bus state as well, which need not be the one it was given (D18). -/
structure Bus (σ : Type) where
  read : σ → Addr → Byte × σ
  write : σ → Addr → Byte → σ
  videoRead : σ → Addr → Byte × σ
  videoWrite : σ → Addr → Byte → σ

/-- The store of the default mapper (R55): its listed cells, at strictly rising addresses, none equal to
what an unlisted cell reads as. -/
abbrev Memory := List Host.Cell

/-- What an unlisted cell reads as. DESIGN CHOICE, unsafe (log entry 1): the spec makes the initial
store an input of the launch (R57) and gives no value. -/
def unlistedByte : Byte := 0x00

/-- The cell an address reaches under the default mapper (R55). -/
def cellOf (a : Addr) : Nat :=
  if a.toNat < 0x2000 then a.toNat % 0x800
  else if a.toNat < 0x4000 then 0x2000 + a.toNat % 8
  else a.toNat

/-- Whether a number is a cell that some address reaches (R55). -/
def isCell (k : Nat) : Bool :=
  decide (k < 0x800) || (decide (0x2000 ≤ k) && decide (k < 0x2008)) ||
    (decide (0x4000 ≤ k) && decide (k < 0x10000))

/-- Reads a cell of the store; an unlisted cell reads as unlistedByte. -/
def Memory.readCell : Memory → Nat → Byte
  | [], _ => unlistedByte
  | (k, v) :: rest, c => if k = c then v else Memory.readCell rest c

/-- Removes what is listed for a cell. -/
def Memory.eraseCell (m : Memory) (c : Nat) : Memory := m.filter (fun e => e.1 != c)

/-- Lists a cell before the first listed cell above it. -/
def Memory.insertCell : Memory → Nat → Byte → Memory
  | [], c, v => [(c, v)]
  | (k, w) :: rest, c, v => if c < k then (c, v) :: (k, w) :: rest else (k, w) :: Memory.insertCell rest c v

/-- Writes a cell of the store and keeps the canonical form. -/
def Memory.writeCell (m : Memory) (c : Nat) (v : Byte) : Memory :=
  if v = unlistedByte then m.eraseCell c else (m.eraseCell c).insertCell c v

/-- The canonical form from cell lo on: cells strictly rising, each a reachable cell, none listed with
what an unlisted cell reads as. -/
def Memory.wfFrom : Nat → Memory → Bool
  | _, [] => true
  | lo, (k, v) :: rest => decide (lo ≤ k) && isCell k && v != unlistedByte && Memory.wfFrom (k + 1) rest

/-- The canonical form of the store. -/
def Memory.wf (m : Memory) : Bool := Memory.wfFrom 0 m

/-- The default mapper (R55): flat storage with mirroring, a read changes nothing, and the video channel is
"always-zero/no-op". -/
def defaultMapper : Bus Memory where
  read m a := (m.readCell (cellOf a), m)
  write m a v := m.writeCell (cellOf a) v
  videoRead m _ := (0, m)
  videoWrite m _ _ := m

end Sys2Proof.Machine
end

