-- ==== Sys2Proof/Config.lean ====
section
/-! DEFINITION. The named parameters of the machine (rule R9 of 00_scope.md), with the defaults the spec gives them. A parameter is a value the model takes; every value in its range is modelled. -/

namespace Sys2Proof

/-- PULL_B_POLICY (R30, R203, D10): what P.B becomes after PLP and RTI. -/
inductive PullBPolicy where
  | clear
  | keep
deriving DecidableEq, Repr

/-- STACK_WORD_ORDER (R201, D11): which byte of a word is pushed first. -/
inductive StackWordOrder where
  | highFirst
  | lowFirst
deriving DecidableEq, Repr

/-- BRK_RETURN_OFFSET (R205, D7): what BRK adds to its own address, 1 or 2. -/
inductive BrkReturnOffset where
  | one
  | two
deriving DecidableEq, Repr

/-- The named parameters of R9 that a step may depend on. RESET_PC_OVERRIDE is an argument of reset()
instead, and the Bus is State's parameter (R50), the default mapper unless another is given. -/
structure Config where
  /-- UNOFFICIAL_SET: the undocumented opcodes the dispatch table defines (D1). A byte for which the
  spec gives no operation stays absent whatever this list says. -/
  unofficialSet : List Byte
  brkReturnOffset : BrkReturnOffset
  pullBPolicy : PullBPolicy
  stackWordOrder : StackWordOrder
  /-- NOP_OPERAND_READ (R271, D15): whether a memory-operand NOP reads its EA. -/
  nopOperandRead : Bool
  /-- INTERRUPT_INJECTION (R304, R305, D17): false is "absent". -/
  interruptInjection : Bool
deriving DecidableEq, Repr

/-- The 76 undocumented opcodes of decision D1, in D1's order. -/
def defaultUnofficialSet : List Byte :=
  [0xA7, 0xB7, 0xAF, 0xBF, 0xA3, 0xB3] ++            -- LAX
  [0x87, 0x97, 0x8F, 0x83] ++                        -- SAX
  [0xEB] ++                                          -- SBC
  [0xC7, 0xD7, 0xCF, 0xDF, 0xDB, 0xC3, 0xD3] ++      -- DCP
  [0xE7, 0xF7, 0xEF, 0xFF, 0xFB, 0xE3, 0xF3] ++      -- ISB
  [0x07, 0x17, 0x0F, 0x1F, 0x1B, 0x03, 0x13] ++      -- SLO
  [0x27, 0x37, 0x2F, 0x3F, 0x3B, 0x23, 0x33] ++      -- RLA
  [0x47, 0x57, 0x4F, 0x5F, 0x5B, 0x43, 0x53] ++      -- SRE
  [0x67, 0x77, 0x6F, 0x7F, 0x7B, 0x63, 0x73] ++      -- RRA
  [0x1A, 0x3A, 0x5A, 0x7A, 0xDA, 0xFA, 0x80] ++      -- NOP, R270
  [0x04, 0x44, 0x64, 0x14, 0x34, 0x54, 0x74, 0xD4, 0xF4] ++
  [0x0C, 0x1C, 0x3C, 0x5C, 0x7C, 0xDC, 0xFC]         -- NOP, R271

/-- The defaults of R9. -/
def Config.default : Config where
  unofficialSet := defaultUnofficialSet
  brkReturnOffset := .two
  pullBPolicy := .clear
  stackWordOrder := .highFirst
  nopOperandRead := false
  interruptInjection := false

end Sys2Proof
end

