-- ==== Sys2Proof/Machine/State.lean ====
section
/-! DEFINITION. The machine's state as plain data (10_state.md R20, R37; 20_memory.md R50, R55), the reasons a step can stop, and the state after reset. -/

namespace Sys2Proof.Machine

/-- The state between steps: the seven components of R20, the state of the bus, whether the first reset()
has run, and the named parameters. The bus is a parameter of the machine (R9, R50): State σ bus is the
machine on any bus with states σ, and State alone the machine on the default, the default mapper (log
entry 4). -/
structure State (σ : Type := Memory) (bus : Bus σ := by exact Sys2Proof.Machine.defaultMapper) where
  /-- A, the accumulator (R22). -/
  a : Byte
  /-- X, the index register (R23). -/
  x : Byte
  /-- Y, the index register (R24). -/
  y : Byte
  /-- SP, the offset of the stack byte in page one (R25). -/
  sp : Byte
  /-- PC (R38): between steps, the address of the next opcode. -/
  pc : Addr
  /-- P, the status register, as the byte software pushes and pulls (R26). -/
  p : Byte
  /-- CYC, the cycle counter (R31). -/
  cyc : Cycles
  /-- The state of the bus (R50): under the default mapper, its store (R55). -/
  mem : σ
  /-- false before the first reset(), where the processor has no state (R37, R332). -/
  started : Bool
  /-- The named parameters (R9). No step and no reset changes them (R333); log entry 2. -/
  cfg : Config
deriving DecidableEq, Repr

/-- Why a step fails. -/
inductive Fault where
  /-- R300: raised by a step whose opcode byte has no dispatch-table entry, with the byte and the PC.
  Safe: it is the fault the spec names, and the state before the step is kept (R300). -/
  | invalidOpcode (op : Byte) (pc : Addr)
deriving DecidableEq, Repr

/-- Why a step is refused. -/
inductive Refusal where
  /-- Raised by an arm of exec whose instruction has no meaning yet. Safe. No arm answers it now. -/
  | notModelled (mnemonic : String)
  /-- R332: raised by a step before the first reset(). Safe: the spec asks for this refusal. -/
  | notReset
deriving DecidableEq, Repr

/-- The machine right after reset (R36, R330) with the default parameters (R9) and no byte loaded. PC is
the word at 0xFFFC, which is 0x0000 there (log entry 1). -/
def State.reset : State where
  a := 0x00
  x := 0x00
  y := 0x00
  sp := 0xFD
  pc := 0x0000
  p := 0x24
  cyc := 7
  mem := []
  started := true
  cfg := Config.default

end Sys2Proof.Machine
end

