-- ==== Sys2Proof/Machine/Flags.lean ====
section
/-! DEFINITION. The status register's bits and every flag computation (10_state.md R26 to R30; 41_arith_compare.md R140, R143; 42_shift_logic_bit.md R160, R168; 44_brk_stack.md R202, R203). -/

namespace Sys2Proof.Machine

variable {σ : Type} {bus : Bus σ}

/-- The bits of P (R26). -/
inductive Flag where
  | c | z | i | d | b | u | v | n
deriving DecidableEq, Repr

/-- The bit position of a flag (R26). -/
def Flag.index : Flag → Nat
  | .c => 0
  | .z => 1
  | .i => 2
  | .d => 3
  | .b => 4
  | .u => 5
  | .v => 6
  | .n => 7

/-- The byte with only this flag's bit. -/
def Flag.mask (f : Flag) : Byte := BitVec.ofNat 8 (2 ^ f.index)

/-- Reads one flag of a status byte. -/
def getFlag (f : Flag) (p : Byte) : Bool := p.getLsbD f.index

/-- Writes one flag of a status byte. -/
def putFlag (f : Flag) (b : Bool) (p : Byte) : Byte :=
  if b then p ||| f.mask else p &&& ~~~f.mask

/-- A flag of the machine. -/
def State.flag (s : State σ bus) (f : Flag) : Bool := getFlag f s.p

/-- Writes a flag of the machine. -/
def State.setFlag (s : State σ bus) (f : Flag) (b : Bool) : State σ bus := { s with p := putFlag f b s.p }

/-- P.C as a number, the carry-in of the adder and of the rotates. -/
def State.carry (s : State σ bus) : Nat := (s.flag .c).toNat

/-- set_ZN (R28): Z iff v is zero, N is bit 7 of v, and no other flag. -/
def setZN (v : Byte) (s : State σ bus) : State σ bus := (s.setFlag .z (v == 0)).setFlag .n v.msb

/-- AddWithCarry (R140), the one adder of the core. P.D is not read. -/
def addWithCarry (m : Byte) (s : State σ bus) : State σ bus :=
  let sum := s.a.toNat + m.toNat + s.carry
  let r := BitVec.ofNat 8 sum
  let overflow := s.a.msb == m.msb && r.msb != s.a.msb
  let s1 := (s.setFlag .c (decide (sum > 255))).setFlag .v overflow
  setZN r { s1 with a := r }

/-- Compare (R143): C iff reg is at least m, unsigned, and set_ZN of the difference. -/
def compare (reg m : Byte) (s : State σ bus) : State σ bus :=
  setZN (reg - m) (s.setFlag .c (decide (m.toNat ≤ reg.toNat)))

/-- BIT's flags (R168): V and N from bits 6 and 7 of the operand, Z from the operand AND A. -/
def bitTest (m : Byte) (s : State σ bus) : State σ bus :=
  ((s.setFlag .v (m.getLsbD 6)).setFlag .n (m.getLsbD 7)).setFlag .z (m &&& s.a == 0)

/-- The end of every shift (R160): C is the bit shifted out, set_ZN of the result. -/
def shifted (r : Byte) (out : Bool) (s : State σ bus) : Byte × State σ bus := (r, setZN r (s.setFlag .c out))

/-- ASL_f (R160). -/
def aslF (m : Byte) (s : State σ bus) : Byte × State σ bus := shifted (m <<< 1) m.msb s

/-- LSR_f (R160). -/
def lsrF (m : Byte) (s : State σ bus) : Byte × State σ bus := shifted (m >>> 1) (m.getLsbD 0) s

/-- ROL_f (R160): the carry-in, read before C is written, goes to bit 0. -/
def rolF (m : Byte) (s : State σ bus) : Byte × State σ bus :=
  shifted ((m <<< 1) + BitVec.ofNat 8 s.carry) m.msb s

/-- ROR_f (R160): the carry-in goes to bit 7. -/
def rorF (m : Byte) (s : State σ bus) : Byte × State σ bus :=
  shifted ((m >>> 1) + BitVec.ofNat 8 (128 * s.carry)) (m.getLsbD 0) s

/-- The function of INC (R232) with its set_ZN. -/
def incF (m : Byte) (s : State σ bus) : Byte × State σ bus := (m + 1, setZN (m + 1) s)

/-- The function of DEC (R233) with its set_ZN. -/
def decF (m : Byte) (s : State σ bus) : Byte × State σ bus := (m - 1, setZN (m - 1) s)

/-- The status byte PHP and BRK push (R202): P with bits 4 and 5 both 1. -/
def pushedStatus (p : Byte) : Byte := p ||| 0x30

/-- RestoreStatus (R203), shared by PLP and RTI. -/
def restoreStatus (v : Byte) (s : State σ bus) : State σ bus :=
  match s.cfg.pullBPolicy with
  | .clear => { s with p := (v &&& 0xEF) ||| 0x20 }
  | .keep => { s with p := (v &&& 0xCF) ||| (s.p &&& 0x10) ||| 0x20 }

end Sys2Proof.Machine
end

