-- ==== Sys2Proof/Machine/Ops.lean ====
section
/-! DEFINITION. The named operations over memory and registers: word reads (00_scope.md R13), the stack (44_brk_stack.md R200, R201), vectored entry and return (R205, R209; 60_exceptions.md R305), and reset (70_reset_and_hazards.md R330). -/

namespace Sys2Proof.Machine

variable {σ : Type} {bus : Bus σ}

/-- MemRead(a, 1) (R13): the byte the bus's read returns. -/
def State.read (s : State σ bus) (a : Addr) : Byte := (bus.read s.mem a).1

/-- The machine after MemRead(a, 1): the bus in the state its read returns (R50, R62). -/
def State.afterRead (s : State σ bus) (a : Addr) : State σ bus := { s with mem := (bus.read s.mem a).2 }

/-- The machine after reads of n bytes at rising addresses modulo 65536 (R101). -/
def State.afterReads : Nat → Addr → State σ bus → State σ bus
  | 0, _, s => s
  | n + 1, a, s => State.afterReads n (a + 1) (s.afterRead a)

/-- MemWrite(a, 1, v) (R13). -/
def State.write (s : State σ bus) (a : Addr) (v : Byte) : State σ bus := { s with mem := bus.write s.mem a v }

/-- MemRead16 (R13): the little-endian word at an address, the low byte read first, the increment modulo
65536. -/
def State.read16 (s : State σ bus) (a : Addr) : Addr := w16 ((s.afterRead a).read (a + 1)) (s.read a)

/-- The machine after MemRead16. -/
def State.afterRead16 (s : State σ bus) (a : Addr) : State σ bus := (s.afterRead a).afterRead (a + 1)

/-- ZpRead16 (R13): the word at a page-zero pointer, the low byte read first, the increment modulo 256. -/
def State.zpRead16 (s : State σ bus) (p : Byte) : Addr :=
  w16 ((s.afterRead (zeroPage p)).read (zeroPage (p + 1))) (s.read (zeroPage p))

/-- The machine after ZpRead16. -/
def State.afterZpRead16 (s : State σ bus) (p : Byte) : State σ bus :=
  (s.afterRead (zeroPage p)).afterRead (zeroPage (p + 1))

/-- The stack address of an offset: 0x0100 + SP (R25, R200). -/
def stackAddr (sp : Byte) : Addr := w16 0x01 sp

/-- Push (R200): writes at 0x0100 + SP, then decrements SP modulo 256. -/
def push (v : Byte) (s : State σ bus) : State σ bus := { s.write (stackAddr s.sp) v with sp := s.sp - 1 }

/-- Pull (R200): increments SP modulo 256, then reads at 0x0100 + SP. -/
def pull (s : State σ bus) : Byte × State σ bus :=
  (s.read (stackAddr (s.sp + 1)), { s.afterRead (stackAddr (s.sp + 1)) with sp := s.sp + 1 })

/-- Push16 (R201), in the order STACK_WORD_ORDER gives. -/
def push16 (w : Addr) (s : State σ bus) : State σ bus :=
  match s.cfg.stackWordOrder with
  | .highFirst => push (lo8 w) (push (hi8 w) s)
  | .lowFirst => push (hi8 w) (push (lo8 w) s)

/-- Pull16 (R201): the bytes come back in the opposite order. -/
def pull16 (s : State σ bus) : Addr × State σ bus :=
  let first := pull s
  let second := pull first.2
  (match s.cfg.stackWordOrder with
    | .highFirst => w16 second.1 first.1
    | .lowFirst => w16 first.1 second.1, second.2)

/-- The reset, NMI and IRQ/BRK vectors (R54, D5, D6, R305). -/
def resetVector : Addr := 0xFFFC
/-- The NMI vector (R54, R305). -/
def nmiVector : Addr := 0xFFFA
/-- The BRK and IRQ vector (R204, R305). -/
def brkVector : Addr := 0xFFFE

/-- The one vectored entry (R205, R305): saves the return address and a status byte on the stack, sets I,
sets B where the entry is BRK's, and loads PC from the vector. -/
def vectoredEntry (ret : Addr) (status : Byte) (isBrk : Bool) (vector : Addr) (s : State σ bus) : State σ bus :=
  let s1 := (push status (push16 ret s)).setFlag .i true
  let s2 := if isBrk then s1.setFlag .b true else s1
  { s2.afterRead16 vector with pc := s2.read16 vector }

/-- The return from it (R209): pulls and restores the status, then pulls PC, with no +1. -/
def vectoredReturn (s : State σ bus) : State σ bus :=
  let status := pull s
  let word := pull16 (restoreStatus status.1 status.2)
  { word.2 with pc := word.1 }

/-- What BRK adds to its own address (R205, D7). -/
def brkOffset (c : Config) : Addr :=
  match c.brkReturnOffset with
  | .one => 1
  | .two => 2

/-- The machine after reset()'s bus accesses (R330): the two vector reads, and only without an override. -/
def afterVector (override : Option Addr) (s : State σ bus) : State σ bus :=
  match override with
  | none => s.afterRead16 resetVector
  | some _ => s

/-- reset() (R330, R331), with RESET_PC_OVERRIDE as its argument. It writes no memory and no parameter
(R333). -/
def resetMachine (override : Option Addr) (s : State σ bus) : State σ bus :=
  { afterVector override s with
    a := 0x00
    x := 0x00
    y := 0x00
    sp := 0xFD
    p := 0x24
    pc := override.getD (s.read16 resetVector)
    cyc := 7
    started := true }

end Sys2Proof.Machine
end

