-- ==== Sys2Proof/Machine/Operands.lean ====
section
/-! DEFINITION. The addressing-mode resolver (40_fetch_addressing.md R106 to R117), the operand classes (R118, R119) and the end of a step (R104, R105). -/

namespace Sys2Proof.Machine

variable {σ : Type} {bus : Bus σ}

/-- The address before the Y index in (zp),Y and before the index in the absolute-indexed modes. -/
def baseAddr (m : MemRef) (s : State σ bus) : Addr :=
  match m with
  | .zp i => zeroPage i
  | .zpx i => zeroPage (i + s.x)
  | .zpy i => zeroPage (i + s.y)
  | .izx i => s.zpRead16 (i + s.x)
  | .izy i => s.zpRead16 i
  | .abs l h | .absx l h | .absy l h => w16 h l

/-- The machine after the pointer bytes a mode reads, low then high (R61, R111, R112). -/
def afterPointer (m : MemRef) (s : State σ bus) : State σ bus :=
  match m with
  | .izx i => s.afterZpRead16 (i + s.x)
  | .izy i => s.afterZpRead16 i
  | .zp _ | .zpx _ | .zpy _ | .abs _ _ | .absx _ _ | .absy _ _ => s

/-- The index register added to the base, and 0 where the mode adds none. -/
def indexOf (m : MemRef) (s : State σ bus) : Byte :=
  match m with
  | .absx _ _ => s.x
  | .absy _ _ | .izy _ => s.y
  | .zp _ | .zpx _ | .zpy _ | .izx _ | .abs _ _ => 0

/-- EA (R109 to R114): the 16-bit sum wraps modulo 65536, the page-zero sums modulo 256. -/
def ea (m : MemRef) (s : State σ bus) : Addr := baseAddr m s + zeroPage (indexOf m s)

/-- The page-cross test (R112, R114, R117): the low byte of the base plus the index exceeds 0xFF. It is
false in the modes that add no index to a base. -/
def crosses (m : MemRef) (s : State σ bus) : Bool :=
  decide ((lo8 (baseAddr m s)).toNat + (indexOf m s).toNat > 0xFF)

/-- The byte a memory operand reads at EA, after its pointer bytes (R118). -/
def memValue (m : MemRef) (s : State σ bus) : Byte := (afterPointer m s).read (ea m s)

/-- The machine after the reads of a memory operand (R61, R118). -/
def afterMem (m : MemRef) (s : State σ bus) : State σ bus := (afterPointer m s).afterRead (ea m s)

/-- Operand() (R118, R119): the immediate byte, or the byte at EA. -/
def operandValue (o : Operand) (s : State σ bus) : Byte :=
  match o with
  | .imm i => i
  | .mem m => memValue m s

/-- The machine after Operand(): an immediate has no bus access of its own (R108). -/
def afterOperand (o : Operand) (s : State σ bus) : State σ bus :=
  match o with
  | .imm _ => s
  | .mem m => afterMem m s

/-- cross of a read-class operand; an immediate has none (R108). -/
def operandCrosses (o : Operand) (s : State σ bus) : Bool :=
  match o with
  | .imm _ => false
  | .mem m => crosses m s

/-- Store(v) (R118, R119): one write of EA and no read of it. -/
def store (m : MemRef) (v : Byte) (s : State σ bus) : State σ bus := (afterPointer m s).write (ea m s) v

/-- Modify(f) on memory (R118, R119): one read of EA, then one write of it. -/
def modify (m : MemRef) (f : Byte → State σ bus → Byte × State σ bus) (s : State σ bus) : Byte × State σ bus :=
  let r := f (memValue m s) (afterMem m s)
  (r.1, r.2.write (ea m s) r.1)

/-- Modify(f) on the accumulator (R118, R119). -/
def modifyAcc (f : Byte → State σ bus → Byte × State σ bus) (s : State σ bus) : State σ bus :=
  { (f s.a s).2 with a := (f s.a s).1 }

/-- Modify(f) of a shift: the accumulator form or a memory form. -/
def modifyTarget (t : Target) (f : Byte → State σ bus → Byte × State σ bus) (s : State σ bus) : State σ bus :=
  match t with
  | .acc => modifyAcc f s
  | .mem m => (modify m f s).2

/-- The cycles of R105 without the branch extra: base, and the page-cross penalty where the entry has the
flag and cross holds. An instruction with no entry never runs and costs nothing (log entry 8). -/
def cycles (i : Instr) (cross : Bool) : Nat :=
  match entryOf i with
  | none => 0
  | some e => e.base + (e.penalty && cross).toNat

/-- Adds to CYC modulo 2^64 (R31, R105). -/
def addCycles (n : Nat) (s : State σ bus) : State σ bus := { s with cyc := s.cyc + BitVec.ofNat 64 n }

/-- The end of a step that does not assign PC (R104, R105). -/
def finish (i : Instr) (cross : Bool) (s : State σ bus) : State σ bus :=
  addCycles (cycles i cross) { s with pc := s.pc + BitVec.ofNat 16 i.length }

/-- The end of a step whose instruction has assigned PC (R104, R105). -/
def finishAt (i : Instr) (s : State σ bus) : State σ bus := addCycles (cycles i false) s

end Sys2Proof.Machine
end

