-- ==== Sys2Proof/Machine/Arith.lean ====
section
/-! DEFINITION. ADC, SBC and the compares (41_arith_compare.md). -/

namespace Sys2Proof.Machine

open Host (Outcome)

variable {σ : Type} {bus : Bus σ}

/-- ADC (R141): add the operand and the carry to A. -/
def execAdc (o : Operand) (s : State σ bus) : Outcome (State σ bus) Fault Refusal :=
  .next (finish (.adc o) (operandCrosses o s) (addWithCarry (operandValue o s) (afterOperand o s)))

/-- SBC (R142): "implemented as `ADC(operand XOR 0xFF)`". -/
def execSbc (o : Operand) (s : State σ bus) : Outcome (State σ bus) Fault Refusal :=
  .next (finish (.sbc o) (operandCrosses o s) (addWithCarry (operandValue o s ^^^ 0xFF) (afterOperand o s)))

/-- CMP (R144). -/
def execCmp (o : Operand) (s : State σ bus) : Outcome (State σ bus) Fault Refusal :=
  .next (finish (.cmp o) (operandCrosses o s) (compare s.a (operandValue o s) (afterOperand o s)))

/-- CPX (R145). -/
def execCpx (o : Operand) (s : State σ bus) : Outcome (State σ bus) Fault Refusal :=
  .next (finish (.cpx o) (operandCrosses o s) (compare s.x (operandValue o s) (afterOperand o s)))

/-- CPY (R146). -/
def execCpy (o : Operand) (s : State σ bus) : Outcome (State σ bus) Fault Refusal :=
  .next (finish (.cpy o) (operandCrosses o s) (compare s.y (operandValue o s) (afterOperand o s)))

end Sys2Proof.Machine
end

