-- ==== Sys2Proof/Machine/Branch.lean ====
section
/-! DEFINITION. The branches, JMP, JSR and RTS (43_branch_jump.md). -/

namespace Sys2Proof.Machine

open Host (Outcome)

variable {σ : Type} {bus : Bus σ}

/-- The instruction after a branch (R180). -/
def branchNext (s : State σ bus) : Addr := s.pc + 2

/-- The target of a branch (R180): the signed offset from the instruction after it, modulo 65536. -/
def branchTarget (off : Byte) (s : State σ bus) : Addr := branchNext s + sext16 off

/-- The cycles a taken branch adds (R180): one, and one more if the target is in another page than the
instruction after the branch. -/
def branchExtra (off : Byte) (s : State σ bus) : Nat :=
  1 + (hi8 (branchTarget off s) != hi8 (branchNext s)).toNat

/-- The branch template (R180). -/
def branch (i : Instr) (cond : Bool) (off : Byte) (s : State σ bus) : State σ bus :=
  if cond then finishAt i (addCycles (branchExtra off s) { s with pc := branchTarget off s })
  else finish i false s

/-- BCC (R181). -/
def execBcc (off : Byte) (s : State σ bus) : Outcome (State σ bus) Fault Refusal :=
  .next (branch (.bcc off) (!s.flag .c) off s)

/-- BCS (R182). -/
def execBcs (off : Byte) (s : State σ bus) : Outcome (State σ bus) Fault Refusal :=
  .next (branch (.bcs off) (s.flag .c) off s)

/-- BEQ (R183). -/
def execBeq (off : Byte) (s : State σ bus) : Outcome (State σ bus) Fault Refusal :=
  .next (branch (.beq off) (s.flag .z) off s)

/-- BNE (R184). -/
def execBne (off : Byte) (s : State σ bus) : Outcome (State σ bus) Fault Refusal :=
  .next (branch (.bne off) (!s.flag .z) off s)

/-- BMI (R185). -/
def execBmi (off : Byte) (s : State σ bus) : Outcome (State σ bus) Fault Refusal :=
  .next (branch (.bmi off) (s.flag .n) off s)

/-- BPL (R186). -/
def execBpl (off : Byte) (s : State σ bus) : Outcome (State σ bus) Fault Refusal :=
  .next (branch (.bpl off) (!s.flag .n) off s)

/-- BVC (R187). -/
def execBvc (off : Byte) (s : State σ bus) : Outcome (State σ bus) Fault Refusal :=
  .next (branch (.bvc off) (!s.flag .v) off s)

/-- BVS (R188). -/
def execBvs (off : Byte) (s : State σ bus) : Outcome (State σ bus) Fault Refusal :=
  .next (branch (.bvs off) (s.flag .v) off s)

/-- JMP absolute (R189). -/
def execJmp (l h : Byte) (s : State σ bus) : Outcome (State σ bus) Fault Refusal :=
  .next (finishAt (.jmp l h) { s with pc := w16 h l })

/-- The target of JMP indirect (R190): the high byte comes from the same page as the pointer. -/
def indirectTarget (l h : Byte) (s : State σ bus) : Addr :=
  w16 ((s.afterRead (w16 h l)).read (w16 h (l + 1))) (s.read (w16 h l))

/-- The machine after the two reads of JMP indirect, low then high (R61, R190). -/
def afterIndirect (l h : Byte) (s : State σ bus) : State σ bus :=
  (s.afterRead (w16 h l)).afterRead (w16 h (l + 1))

/-- JMP indirect (R190). -/
def execJmpInd (l h : Byte) (s : State σ bus) : Outcome (State σ bus) Fault Refusal :=
  .next (finishAt (.jmpInd l h) { afterIndirect l h s with pc := indirectTarget l h s })

/-- JSR (R191): pushes the address of its own last byte. -/
def execJsr (l h : Byte) (s : State σ bus) : Outcome (State σ bus) Fault Refusal :=
  .next (finishAt (.jsr l h) { push16 (s.pc + 2) s with pc := w16 h l })

/-- RTS (R192). -/
def execRts (s : State σ bus) : Outcome (State σ bus) Fault Refusal :=
  .next (finishAt .rts { (pull16 s).2 with pc := (pull16 s).1 + 1 })

end Sys2Proof.Machine
end

