-- ==== Sys2Proof/Machine/LoadStore.lean ====
section
/-! DEFINITION. Loads, stores, transfers, increments, decrements, flag instructions and NOP (45_load_store_misc.md). -/

namespace Sys2Proof.Machine

open Host (Outcome)

variable {σ : Type} {bus : Bus σ}

/-- A <- v; set_ZN(A). -/
def loadA (v : Byte) (s : State σ bus) : State σ bus := setZN v { s with a := v }

/-- X <- v; set_ZN(X). -/
def loadX (v : Byte) (s : State σ bus) : State σ bus := setZN v { s with x := v }

/-- Y <- v; set_ZN(Y). -/
def loadY (v : Byte) (s : State σ bus) : State σ bus := setZN v { s with y := v }

/-- LDA (R220). -/
def execLda (o : Operand) (s : State σ bus) : Outcome (State σ bus) Fault Refusal :=
  .next (finish (.lda o) (operandCrosses o s) (loadA (operandValue o s) (afterOperand o s)))

/-- LDX (R221). -/
def execLdx (o : Operand) (s : State σ bus) : Outcome (State σ bus) Fault Refusal :=
  .next (finish (.ldx o) (operandCrosses o s) (loadX (operandValue o s) (afterOperand o s)))

/-- LDY (R222). -/
def execLdy (o : Operand) (s : State σ bus) : Outcome (State σ bus) Fault Refusal :=
  .next (finish (.ldy o) (operandCrosses o s) (loadY (operandValue o s) (afterOperand o s)))

/-- STA (R223): Store(A), with no read of EA. -/
def execSta (m : MemRef) (s : State σ bus) : Outcome (State σ bus) Fault Refusal :=
  .next (finish (.sta m) (crosses m s) (store m s.a s))

/-- STX (R224). -/
def execStx (m : MemRef) (s : State σ bus) : Outcome (State σ bus) Fault Refusal :=
  .next (finish (.stx m) (crosses m s) (store m s.x s))

/-- STY (R225). -/
def execSty (m : MemRef) (s : State σ bus) : Outcome (State σ bus) Fault Refusal :=
  .next (finish (.sty m) (crosses m s) (store m s.y s))

/-- TAX (R226). -/
def execTax (s : State σ bus) : Outcome (State σ bus) Fault Refusal := .next (finish .tax false (loadX s.a s))

/-- TAY (R227). -/
def execTay (s : State σ bus) : Outcome (State σ bus) Fault Refusal := .next (finish .tay false (loadY s.a s))

/-- TXA (R228). -/
def execTxa (s : State σ bus) : Outcome (State σ bus) Fault Refusal := .next (finish .txa false (loadA s.x s))

/-- TYA (R229). -/
def execTya (s : State σ bus) : Outcome (State σ bus) Fault Refusal := .next (finish .tya false (loadA s.y s))

/-- TSX (R230). -/
def execTsx (s : State σ bus) : Outcome (State σ bus) Fault Refusal := .next (finish .tsx false (loadX s.sp s))

/-- TXS (R231): the one transfer without set_ZN. -/
def execTxs (s : State σ bus) : Outcome (State σ bus) Fault Refusal := .next (finish .txs false { s with sp := s.x })

/-- INC (R232). -/
def execInc (m : MemRef) (s : State σ bus) : Outcome (State σ bus) Fault Refusal :=
  .next (finish (.inc m) (crosses m s) (modify m incF s).2)

/-- DEC (R233). -/
def execDec (m : MemRef) (s : State σ bus) : Outcome (State σ bus) Fault Refusal :=
  .next (finish (.dec m) (crosses m s) (modify m decF s).2)

/-- INX (R234). -/
def execInx (s : State σ bus) : Outcome (State σ bus) Fault Refusal := .next (finish .inx false (loadX (s.x + 1) s))

/-- INY (R235). -/
def execIny (s : State σ bus) : Outcome (State σ bus) Fault Refusal := .next (finish .iny false (loadY (s.y + 1) s))

/-- DEX (R236). -/
def execDex (s : State σ bus) : Outcome (State σ bus) Fault Refusal := .next (finish .dex false (loadX (s.x - 1) s))

/-- DEY (R237). -/
def execDey (s : State σ bus) : Outcome (State σ bus) Fault Refusal := .next (finish .dey false (loadY (s.y - 1) s))

/-- CLC (R238). -/
def execClc (s : State σ bus) : Outcome (State σ bus) Fault Refusal := .next (finish .clc false (s.setFlag .c false))

/-- SEC (R239). -/
def execSec (s : State σ bus) : Outcome (State σ bus) Fault Refusal := .next (finish .sec false (s.setFlag .c true))

/-- CLI (R240). -/
def execCli (s : State σ bus) : Outcome (State σ bus) Fault Refusal := .next (finish .cli false (s.setFlag .i false))

/-- SEI (R241). -/
def execSei (s : State σ bus) : Outcome (State σ bus) Fault Refusal := .next (finish .sei false (s.setFlag .i true))

/-- CLD (R242). -/
def execCld (s : State σ bus) : Outcome (State σ bus) Fault Refusal := .next (finish .cld false (s.setFlag .d false))

/-- SED (R243). -/
def execSed (s : State σ bus) : Outcome (State σ bus) Fault Refusal := .next (finish .sed false (s.setFlag .d true))

/-- CLV (R244). -/
def execClv (s : State σ bus) : Outcome (State σ bus) Fault Refusal := .next (finish .clv false (s.setFlag .v false))

/-- NOP (R245). -/
def execNop (s : State σ bus) : Outcome (State σ bus) Fault Refusal := .next (finish .nop false s)

end Sys2Proof.Machine
end

