-- ==== Sys2Proof/Machine/Stack.lean ====
section
/-! DEFINITION. BRK, RTI, and the stack instructions (44_brk_stack.md). -/

namespace Sys2Proof.Machine

open Host (Outcome)

variable {σ : Type} {bus : Bus σ}

/-- BRK (R205): the vectored entry with the return address pc0 + BRK_RETURN_OFFSET and the pushed status
P OR 0x30. -/
def execBrk (s : State σ bus) : Outcome (State σ bus) Fault Refusal :=
  .next (finishAt .brk (vectoredEntry (s.pc + brkOffset s.cfg) (pushedStatus s.p) true brkVector s))

/-- RTI (R209). -/
def execRti (s : State σ bus) : Outcome (State σ bus) Fault Refusal := .next (finishAt .rti (vectoredReturn s))

/-- PHP (R206). -/
def execPhp (s : State σ bus) : Outcome (State σ bus) Fault Refusal := .next (finish .php false (push (pushedStatus s.p) s))

/-- PLP (R207). -/
def execPlp (s : State σ bus) : Outcome (State σ bus) Fault Refusal :=
  .next (finish .plp false (restoreStatus (pull s).1 (pull s).2))

/-- PHA (R208). -/
def execPha (s : State σ bus) : Outcome (State σ bus) Fault Refusal := .next (finish .pha false (push s.a s))

/-- PLA (R210). -/
def execPla (s : State σ bus) : Outcome (State σ bus) Fault Refusal :=
  .next (finish .pla false (loadA (pull s).1 (pull s).2))

end Sys2Proof.Machine
end

