-- ==== Sys2Proof/Machine/ShiftLogic.lean ====
section
/-! DEFINITION. The shifts and rotates, the logic instructions and BIT (42_shift_logic_bit.md). -/

namespace Sys2Proof.Machine

open Host (Outcome)

variable {σ : Type} {bus : Bus σ}

/-- ASL (R161). -/
def execAsl (t : Target) (s : State σ bus) : Outcome (State σ bus) Fault Refusal :=
  .next (finish (.asl t) false (modifyTarget t aslF s))

/-- LSR (R162). -/
def execLsr (t : Target) (s : State σ bus) : Outcome (State σ bus) Fault Refusal :=
  .next (finish (.lsr t) false (modifyTarget t lsrF s))

/-- ROL (R163). -/
def execRol (t : Target) (s : State σ bus) : Outcome (State σ bus) Fault Refusal :=
  .next (finish (.rol t) false (modifyTarget t rolF s))

/-- ROR (R164). -/
def execRor (t : Target) (s : State σ bus) : Outcome (State σ bus) Fault Refusal :=
  .next (finish (.ror t) false (modifyTarget t rorF s))

/-- A <- A AND v; set_ZN(A) (R165). -/
def andA (v : Byte) (s : State σ bus) : State σ bus := setZN (s.a &&& v) { s with a := s.a &&& v }

/-- A <- A OR v; set_ZN(A) (R166). -/
def orA (v : Byte) (s : State σ bus) : State σ bus := setZN (s.a ||| v) { s with a := s.a ||| v }

/-- A <- A XOR v; set_ZN(A) (R167). -/
def xorA (v : Byte) (s : State σ bus) : State σ bus := setZN (s.a ^^^ v) { s with a := s.a ^^^ v }

/-- AND (R165). -/
def execAnd (o : Operand) (s : State σ bus) : Outcome (State σ bus) Fault Refusal :=
  .next (finish (.and_ o) (operandCrosses o s) (andA (operandValue o s) (afterOperand o s)))

/-- ORA (R166). -/
def execOra (o : Operand) (s : State σ bus) : Outcome (State σ bus) Fault Refusal :=
  .next (finish (.ora o) (operandCrosses o s) (orA (operandValue o s) (afterOperand o s)))

/-- EOR (R167). -/
def execEor (o : Operand) (s : State σ bus) : Outcome (State σ bus) Fault Refusal :=
  .next (finish (.eor o) (operandCrosses o s) (xorA (operandValue o s) (afterOperand o s)))

/-- BIT (R168). -/
def execBit (m : MemRef) (s : State σ bus) : Outcome (State σ bus) Fault Refusal :=
  .next (finish (.bit m) (crosses m s) (bitTest (memValue m s) (afterMem m s)))

end Sys2Proof.Machine
end

