-- ==== Sys2Proof/Machine/Unofficial.lean ====
section
/-! DEFINITION. The undocumented opcodes, each a composition of documented primitives (46_unofficial.md R260), and INVALID (60_exceptions.md R300). -/

namespace Sys2Proof.Machine

open Host (Outcome)

variable {σ : Type} {bus : Bus σ}

/-- LAX (R261). -/
def execLax (m : MemRef) (s : State σ bus) : Outcome (State σ bus) Fault Refusal :=
  let v := memValue m s
  .next (finish (.lax m) (crosses m s) (setZN v { afterMem m s with a := v, x := v }))

/-- SAX (R262): Store(A AND X), with no read of EA. -/
def execSax (m : MemRef) (s : State σ bus) : Outcome (State σ bus) Fault Refusal :=
  .next (finish (.sax m) (crosses m s) (store m (s.a &&& s.x) s))

/-- SBC immediate, undocumented opcode EB (R263): the operation of R142. -/
def execSbcEB (i : Byte) (s : State σ bus) : Outcome (State σ bus) Fault Refusal :=
  .next (finish (.sbcEB i) false (addWithCarry (i ^^^ 0xFF) s))

/-- DCP (R264): DEC, then CMP "against the now-decremented value". -/
def execDcp (m : MemRef) (s : State σ bus) : Outcome (State σ bus) Fault Refusal :=
  let r := modify m decF s
  .next (finish (.dcp m) (crosses m s) (compare r.2.a r.1 r.2))

/-- ISB (R265): INC, then SBC. -/
def execIsb (m : MemRef) (s : State σ bus) : Outcome (State σ bus) Fault Refusal :=
  let r := modify m incF s
  .next (finish (.isb m) (crosses m s) (addWithCarry (r.1 ^^^ 0xFF) r.2))

/-- SLO (R266): ASL, then ORA. -/
def execSlo (m : MemRef) (s : State σ bus) : Outcome (State σ bus) Fault Refusal :=
  let r := modify m aslF s
  .next (finish (.slo m) (crosses m s) (orA r.1 r.2))

/-- RLA (R267): ROL, then AND. -/
def execRla (m : MemRef) (s : State σ bus) : Outcome (State σ bus) Fault Refusal :=
  let r := modify m rolF s
  .next (finish (.rla m) (crosses m s) (andA r.1 r.2))

/-- SRE (R268): LSR, then EOR. -/
def execSre (m : MemRef) (s : State σ bus) : Outcome (State σ bus) Fault Refusal :=
  let r := modify m lsrF s
  .next (finish (.sre m) (crosses m s) (xorA r.1 r.2))

/-- RRA (R269): ROR, then ADC with the carry ROR just produced. -/
def execRra (m : MemRef) (s : State σ bus) : Outcome (State σ bus) Fault Refusal :=
  let r := modify m rorF s
  .next (finish (.rra m) (crosses m s) (addWithCarry r.1 r.2))

/-- NOP, undocumented implied (R270). -/
def execNopImp (op : Byte) (s : State σ bus) : Outcome (State σ bus) Fault Refusal := .next (finish (.nopImp op) false s)

/-- NOP, undocumented immediate (R270): the byte is fetched and discarded. -/
def execNopImm (i : Byte) (s : State σ bus) : Outcome (State σ bus) Fault Refusal := .next (finish (.nopImm i) false s)

/-- The machine after a NOP's memory operand (R271, D15): the byte at EA is read and discarded where
NOP_OPERAND_READ says so. -/
def afterDiscardedOperand (m : MemRef) (s : State σ bus) : State σ bus :=
  if s.cfg.nopOperandRead then afterMem m s else afterPointer m s

/-- NOP, undocumented with a memory operand (R271): the EA is resolved for its page-cross penalty. -/
def execNopMem (op : Byte) (m : MemRef) (s : State σ bus) : Outcome (State σ bus) Fault Refusal :=
  .next (finish (.nopMem op m) (crosses m s) (afterDiscardedOperand m s))

/-- INVALID (R300): the step ends with the fault InvalidOpcode(op, pc0), and nothing else happens. -/
def execInvalid (op : Byte) (s : State σ bus) : Outcome (State σ bus) Fault Refusal := .fault (.invalidOpcode op s.pc)

end Sys2Proof.Machine
end

