-- ==== Sys2Proof/Machine/Fetch.lean ====
section
/-! DEFINITION. Fetching the instruction at PC (40_fetch_addressing.md R100, R101) and storing a word where the next fetch reads. -/

namespace Sys2Proof.Machine

variable {σ : Type} {bus : Bus σ}

/-- The instruction at PC: the opcode byte is looked up in the dispatch table under UNOFFICIAL_SET (R100),
and its operand bytes stand at PC+1 and PC+2 modulo 65536 (R101, D29). A byte that the length leaves out
is not looked at. -/
def fetchInstr (s : State σ bus) : Instr :=
  let op := s.read s.pc
  let s1 := s.afterRead s.pc
  let s2 := s1.afterRead (s.pc + 1)
  if admitted s.cfg.unofficialSet op then decodeBytes op (s1.read (s.pc + 1)) (s2.read (s.pc + 2))
  else .invalid op

/-- The machine after the fetch: the opcode and, of the operand bytes, those its length asks for (R61,
R101); of an absent opcode the opcode alone (R300). -/
def afterFetch (s : State σ bus) : State σ bus := s.afterReads (fetchInstr s).length s.pc

/-- Stores the three bytes of a word, the first at PC, and marks the machine as reset, which the fetch
needs (R332). -/
def storeAtPc (b0 b1 b2 : Byte) (s : State σ bus) : State σ bus :=
  { (((s.write (s.pc + 2) b2).write (s.pc + 1) b1).write s.pc b0) with started := true }

/-- The bytes of a table word (opcode_table.json's numbering): bits from nbits on are 0. -/
def tableByte (nbits w k : Nat) : Byte := BitVec.ofNat 8 (w % 2 ^ nbits / 256 ^ k)

end Sys2Proof.Machine
end

