-- ==== Sys2Proof/Machine/Step.lean ====
section
/-! DEFINITION. One step (40_fetch_addressing.md R100): the refusal before the first reset (R332), then the fetched instruction's meaning. -/

namespace Sys2Proof.Machine

/-- step() (R100): one whole instruction, the fault of an absent opcode, or the refusal NotReset. -/
def step (s : State) : Host.Outcome State Fault Refusal :=
  if s.started then exec (fetchInstr s) (afterFetch s) else .refused .notReset

/-- The state whose very next step runs the instruction of this table word: it stands at PC (log entry 6). -/
def State.withFetchWord (s : State) (nbits w : Nat) : State :=
  storeAtPc (tableByte nbits w 0) (tableByte nbits w 1) (tableByte nbits w 2) s

end Sys2Proof.Machine
end

