-- ==== Sys2Proof/Machine/BusTrace.lean ====
section
/-! DEFINITION. The bus accesses of one step in their order (20_memory.md R61, R65; 40_fetch_addressing.md R118; 46_unofficial.md R271), as an observation of the state before the step, on any bus: what an observer of the bus sees. -/

namespace Sys2Proof.Machine

variable {σ : Type} {bus : Bus σ}

/-- One call on the bus (R50). -/
inductive BusAccess where
  | read (a : Addr)
  | write (a : Addr) (v : Byte)
deriving DecidableEq, Repr

/-- The pointer bytes a mode reads, low then high (R111, R112). -/
def pointerReads (m : MemRef) (s : State σ bus) : List BusAccess :=
  match m with
  | .izx i => [.read (zeroPage (i + s.x)), .read (zeroPage (i + s.x + 1))]
  | .izy i => [.read (zeroPage i), .read (zeroPage (i + 1))]
  | .zp _ | .zpx _ | .zpy _ | .abs _ _ | .absx _ _ | .absy _ _ => []

/-- The read class (R118). -/
def readAccesses (m : MemRef) (s : State σ bus) : List BusAccess := pointerReads m s ++ [.read (ea m s)]

/-- The read class with an immediate form, which reads nothing further (R108). -/
def operandAccesses (o : Operand) (s : State σ bus) : List BusAccess :=
  match o with
  | .imm _ => []
  | .mem m => readAccesses m s

/-- The write class: no read of EA (R118). -/
def storeAccesses (m : MemRef) (v : Byte) (s : State σ bus) : List BusAccess :=
  pointerReads m s ++ [.write (ea m s) v]

/-- The read-modify-write class: "one read then one write" (R118). -/
def modifyAccesses (m : MemRef) (f : Byte → State σ bus → Byte × State σ bus) (s : State σ bus) : List BusAccess :=
  pointerReads m s ++ [.read (ea m s), .write (ea m s) (f (memValue m s) (afterMem m s)).1]

/-- A shift: the accumulator form makes no access (R118). -/
def targetAccesses (t : Target) (f : Byte → State σ bus → Byte × State σ bus) (s : State σ bus) : List BusAccess :=
  match t with
  | .acc => []
  | .mem m => modifyAccesses m f s

/-- Push16 from a stack pointer (R201). -/
def push16Accesses (order : StackWordOrder) (w : Addr) (sp : Byte) : List BusAccess :=
  match order with
  | .highFirst => [.write (stackAddr sp) (hi8 w), .write (stackAddr (sp - 1)) (lo8 w)]
  | .lowFirst => [.write (stackAddr sp) (lo8 w), .write (stackAddr (sp - 1)) (hi8 w)]

/-- The two bytes of a little-endian word (R13). -/
def word16Accesses (a : Addr) : List BusAccess := [.read a, .read (a + 1)]

/-- The accesses of an instruction after its own bytes are fetched (R61, items 3 to 6). -/
def bodyAccesses (i : Instr) (s : State σ bus) : List BusAccess :=
  match i with
  | .adc o | .sbc o | .cmp o | .cpx o | .cpy o | .and_ o | .ora o | .eor o => operandAccesses o s
  | .lda o | .ldx o | .ldy o => operandAccesses o s
  | .bit m | .lax m => readAccesses m s
  | .sta m => storeAccesses m s.a s
  | .stx m => storeAccesses m s.x s
  | .sty m => storeAccesses m s.y s
  | .sax m => storeAccesses m (s.a &&& s.x) s
  | .asl t => targetAccesses t aslF s
  | .lsr t => targetAccesses t lsrF s
  | .rol t => targetAccesses t rolF s
  | .ror t => targetAccesses t rorF s
  | .inc m | .isb m => modifyAccesses m incF s
  | .dec m | .dcp m => modifyAccesses m decF s
  | .slo m => modifyAccesses m aslF s
  | .rla m => modifyAccesses m rolF s
  | .sre m => modifyAccesses m lsrF s
  | .rra m => modifyAccesses m rorF s
  | .nopMem _ m => if s.cfg.nopOperandRead then readAccesses m s else pointerReads m s
  | .jmpInd l h => [.read (w16 h l), .read (w16 h (l + 1))]
  | .jsr _ _ => push16Accesses s.cfg.stackWordOrder (s.pc + 2) s.sp
  | .rts => [.read (stackAddr (s.sp + 1)), .read (stackAddr (s.sp + 2))]
  | .brk =>
    push16Accesses s.cfg.stackWordOrder (s.pc + brkOffset s.cfg) s.sp ++
      [.write (stackAddr (s.sp - 2)) (pushedStatus s.p)] ++ word16Accesses brkVector
  | .rti => [.read (stackAddr (s.sp + 1)), .read (stackAddr (s.sp + 2)), .read (stackAddr (s.sp + 3))]
  | .php => [.write (stackAddr s.sp) (pushedStatus s.p)]
  | .pha => [.write (stackAddr s.sp) s.a]
  | .plp | .pla => [.read (stackAddr (s.sp + 1))]
  | .bcc _ | .bcs _ | .beq _ | .bne _ | .bmi _ | .bpl _ | .bvc _ | .bvs _ | .jmp _ _ => []
  | .tax | .tay | .txa | .tya | .tsx | .txs | .inx | .iny | .dex | .dey => []
  | .clc | .sec | .cli | .sei | .cld | .sed | .clv => []
  | .nop | .sbcEB _ | .nopImp _ | .nopImm _ | .invalid _ => []

/-- The fetch of an instruction's bytes: the opcode at PC, then PC+1 and PC+2 as its length asks (R61, R101). -/
def fetchAccesses (i : Instr) (s : State σ bus) : List BusAccess :=
  (List.range i.length).map (fun k => BusAccess.read (s.pc + BitVec.ofNat 16 k))

/-- Every bus access of one step, in order (R61). Before the first reset a step makes none (R332); a step
that meets an absent opcode makes the opcode read alone (R300). -/
def stepAccesses (s : State σ bus) : List BusAccess :=
  if s.started then fetchAccesses (fetchInstr s) s ++ bodyAccesses (fetchInstr s) (afterFetch s) else []

/-- The state a bus is left in by a list of accesses, made in their order (R50, R61). -/
def replay (bus : Bus σ) (accesses : List BusAccess) (m : σ) : σ :=
  accesses.foldl (fun m a => match a with
    | .read a => (bus.read m a).2
    | .write a v => bus.write m a v) m

/-- The bus accesses of reset(): the two vector reads, and only without an override (R330). -/
def resetAccesses (override : Option Addr) : List BusAccess :=
  match override with
  | none => word16Accesses resetVector
  | some _ => []

end Sys2Proof.Machine
end

