-- ==== Sys2Proof/Machine/AnyBus.lean ====
section
/-! DEFINITION. The same machine on any bus (00_scope.md R9; 20_memory.md R50, R56, R62): the meanings of Dispatch.lean and the step of Step.lean, with the bus as a parameter. On the default mapper they are exec and step (Laws/AnyBus.lean). -/

namespace Sys2Proof.Machine

variable {σ : Type} {bus : Bus σ}

/-- exec on any bus (R56): "the processor is agnostic" to the mapper, so each arm is the meaning of
Dispatch.lean. -/
def execOver (i : Instr) (s : State σ bus) : Host.Outcome (State σ bus) Fault Refusal :=
  match i with
  | .adc o => execAdc o s
  | .sbc o => execSbc o s
  | .cmp o => execCmp o s
  | .cpx o => execCpx o s
  | .cpy o => execCpy o s
  | .asl t => execAsl t s
  | .lsr t => execLsr t s
  | .rol t => execRol t s
  | .ror t => execRor t s
  | .and_ o => execAnd o s
  | .ora o => execOra o s
  | .eor o => execEor o s
  | .bit m => execBit m s
  | .bcc off => execBcc off s
  | .bcs off => execBcs off s
  | .beq off => execBeq off s
  | .bne off => execBne off s
  | .bmi off => execBmi off s
  | .bpl off => execBpl off s
  | .bvc off => execBvc off s
  | .bvs off => execBvs off s
  | .jmp l h => execJmp l h s
  | .jmpInd l h => execJmpInd l h s
  | .jsr l h => execJsr l h s
  | .rts => execRts s
  | .brk => execBrk s
  | .rti => execRti s
  | .php => execPhp s
  | .plp => execPlp s
  | .pha => execPha s
  | .pla => execPla s
  | .lda o => execLda o s
  | .ldx o => execLdx o s
  | .ldy o => execLdy o s
  | .sta m => execSta m s
  | .stx m => execStx m s
  | .sty m => execSty m s
  | .tax => execTax s
  | .tay => execTay s
  | .txa => execTxa s
  | .tya => execTya s
  | .tsx => execTsx s
  | .txs => execTxs s
  | .inc m => execInc m s
  | .dec m => execDec m s
  | .inx => execInx s
  | .iny => execIny s
  | .dex => execDex s
  | .dey => execDey s
  | .clc => execClc s
  | .sec => execSec s
  | .cli => execCli s
  | .sei => execSei s
  | .cld => execCld s
  | .sed => execSed s
  | .clv => execClv s
  | .nop => execNop s
  | .lax m => execLax m s
  | .sax m => execSax m s
  | .sbcEB imm => execSbcEB imm s
  | .dcp m => execDcp m s
  | .isb m => execIsb m s
  | .slo m => execSlo m s
  | .rla m => execRla m s
  | .sre m => execSre m s
  | .rra m => execRra m s
  | .nopImp op => execNopImp op s
  | .nopImm imm => execNopImm imm s
  | .nopMem op m => execNopMem op m s
  | .invalid op => execInvalid op s

/-- step() on any bus (R62, R100): a function of the state and the bus. -/
def stepOver (s : State σ bus) : Host.Outcome (State σ bus) Fault Refusal :=
  if s.started then execOver (fetchInstr s) (afterFetch s) else .refused .notReset

end Sys2Proof.Machine
end

