-- ==== Sys2Proof/Machine/HostMoves.lean ====
section
/-! DEFINITION. What the host can do to the machine (60_exceptions.md R316, R317, R318; 10_state.md R35): load, reset (Ops.lean), step, observe, run, and the optional interrupt injection (R304 to R306). -/

namespace Sys2Proof.Machine

variable {σ : Type} {bus : Bus σ}

/-- What the accessors show (R35). -/
structure Observation where
  a : Byte
  x : Byte
  y : Byte
  sp : Byte
  pc : Addr
  p : Byte
  cyc : Cycles
deriving DecidableEq, Repr

/-- The accessors (R35): nothing before the first reset, where no component has a value (R36, R332). -/
def observe (s : State σ bus) : Option Observation :=
  if s.started then some ⟨s.a, s.x, s.y, s.sp, s.pc, s.p, s.cyc⟩ else none

/-- What a call of step() gives its caller (R316, C6). -/
inductive StepReport where
  | ok
  | fault (f : Fault)
  | refused (r : Refusal)
deriving DecidableEq, Repr

/-- step() as the host calls it (R316), on any bus: the next state; with a fault, the state with nothing
done but the opcode read, which changes nothing under the default mapper (R300); with a refusal, the
unchanged state (R332). -/
def hostStep (s : State σ bus) : State σ bus × StepReport :=
  match stepOver s with
  | .next t => (t, .ok)
  | .fault f => (afterFetch s, .fault f)
  | .refused r => (s, .refused r)

/-- N calls of step(), ending at the first that does not succeed (R318). -/
def runSteps : Nat → State σ bus → State σ bus × StepReport
  | 0, s => (s, .ok)
  | n + 1, s =>
    match hostStep s with
    | (t, .ok) => runSteps n t
    | stopped => stopped

/-- A run (R318): reset(), then N steps or the first fault. -/
def resetAndRun (override : Option Addr) (n : Nat) (s : State σ bus) : State σ bus × StepReport :=
  runSteps n (resetMachine override s)

/-- The host fills the bus before reset (R57, R317, R334): bytes at rising addresses modulo 65536. -/
def loadBytes : Addr → List Byte → State σ bus → State σ bus
  | _, [], s => s
  | a, v :: rest, s => loadBytes (a + 1) rest (s.write a v)

/-- A machine whose processor has no state yet (R332), over a store; its registers are not observable. -/
def State.beforeReset (cfg : Config) (m : σ) : State σ bus where
  a := 0
  x := 0
  y := 0
  sp := 0
  pc := 0
  p := 0
  cyc := 0
  mem := m
  started := false
  cfg := cfg

/-- The two interrupts of R305. -/
inductive Interrupt where
  | nmi
  | irq
deriving DecidableEq, Repr

/-- The vector of an interrupt (R305). -/
def Interrupt.vector : Interrupt → Addr
  | .nmi => nmiVector
  | .irq => brkVector

/-- The entry sequence of R305: no offset on PC, bit 4 of the pushed status 0, seven cycles. -/
def interruptEntry (i : Interrupt) (s : State σ bus) : State σ bus :=
  addCycles 7 (vectoredEntry s.pc ((s.p &&& 0xEF) ||| 0x20) false i.vector s)

/-- What a host extension that injects interrupts does between two steps (R305, R306): nothing unless
INTERRUPT_INJECTION is set; NMI, an edge, wins and ignores P.I; IRQ, a level, is taken only when P.I = 0. -/
def injectInterrupt (nmiEdge irqLevel : Bool) (s : State σ bus) : Option (State σ bus) :=
  if s.cfg.interruptInjection && s.started then
    if nmiEdge then some (interruptEntry .nmi s)
    else if irqLevel && !s.flag .i then some (interruptEntry .irq s)
    else none
  else none

end Sys2Proof.Machine
end

