-- ==== Sys2Proof/Safety.lean ====
section
/-! DEFINITION. The terms claims are stated in: the invariant of reachable states, what an instruction leaves unchanged, and what a run without a fault is. -/

namespace Sys2Proof.Machine

variable {σ : Type} {bus : Bus σ}

/-- What holds in every reachable state: the store is in canonical form, and P.U is 1 (R27). -/
def State.Inv (s : State) : Prop := s.mem.wf = true ∧ s.flag .u = true

/-- The 8-bit registers (R21). -/
inductive Reg where
  | a | x | y | sp
deriving DecidableEq, Repr

/-- Reads an 8-bit register. -/
def State.reg (s : State σ bus) : Reg → Byte
  | .a => s.a
  | .x => s.x
  | .y => s.y
  | .sp => s.sp

/-- Every 8-bit register outside the list is unchanged. -/
def KeepsRegsBut (rs : List Reg) (s t : State σ bus) : Prop := ∀ r, r ∉ rs → t.reg r = s.reg r

/-- Every bit of P outside the list is unchanged. -/
def KeepsFlagsBut (fs : List Flag) (s t : State σ bus) : Prop := ∀ f, f ∉ fs → t.flag f = s.flag f

/-- Every address reads as before. -/
def KeepsMemory (s t : State σ bus) : Prop := ∀ a, t.read a = s.read a

/-- Every address reads as before but those that reach a cell of the listed addresses (R54, R55). -/
def KeepsMemoryBut (stored : List Addr) (s t : State) : Prop :=
  ∀ a, (∀ b ∈ stored, cellOf a ≠ cellOf b) → t.read a = s.read a

/-- The parameters and the reset mark are unchanged (R333). -/
def KeepsMachine (s t : State σ bus) : Prop := t.cfg = s.cfg ∧ t.started = s.started

/-- Z and N are those of a value (R28). -/
def ShowsZN (v : Byte) (t : State σ bus) : Prop :=
  t.flag .z = decide (v.toNat = 0) ∧ t.flag .n = decide (128 ≤ v.toNat)

/-- PC advances by a length and CYC by a cost (R104, R105). -/
def Advances (len cost : Nat) (s t : State σ bus) : Prop :=
  t.pc = s.pc + BitVec.ofNat 16 len ∧ t.cyc = s.cyc + BitVec.ofNat 64 cost

/-- An instruction that stores nothing: its length and its cycles (R104, R105), and nothing changed but
the listed registers and flags. -/
def RegisterStep (i : Instr) (cross : Bool) (rs : List Reg) (fs : List Flag) (s t : State) : Prop :=
  Advances i.length (cycles i cross) s t ∧ KeepsRegsBut rs s t ∧ KeepsFlagsBut fs s t ∧
    KeepsMemory s t ∧ KeepsMachine s t

/-- An instruction that stores bytes: as RegisterStep, and every byte of memory but those at the listed
addresses reads as before. -/
def StoringStep (i : Instr) (cross : Bool) (rs : List Reg) (fs : List Flag) (stored : List Addr)
    (s t : State) : Prop :=
  Advances i.length (cycles i cross) s t ∧ KeepsRegsBut rs s t ∧ KeepsFlagsBut fs s t ∧
    KeepsMemoryBut stored s t ∧ KeepsMachine s t

/-- The cycles of a read-class form (R84): the page-cross penalty stands in three modes (R117). -/
def readCost (m : Mode) (cross : Bool) : Nat :=
  match m with
  | .imm => 2
  | .zp => 3
  | .zpx | .zpy | .abs => 4
  | .absx | .absy => 4 + cross.toNat
  | .izx => 6
  | .izy => 5 + cross.toNat
  | .imp | .acc | .rel | .ind => 0

/-- The cycles of a write-class form (R84, R117): no penalty. -/
def storeCost (m : Mode) : Nat :=
  match m with
  | .zp => 3
  | .zpx | .zpy | .abs => 4
  | .absx | .absy => 5
  | .izx | .izy => 6
  | .imp | .acc | .imm | .rel | .ind => 0

/-- The cycles of a read-modify-write or accumulator form (R84, R117): no penalty. -/
def modifyCost (m : Mode) : Nat :=
  match m with
  | .acc => 2
  | .zp => 5
  | .zpx | .abs => 6
  | .absx | .absy => 7
  | .izx | .izy => 8
  | .imp | .imm | .zpy | .rel | .ind => 0

/-- The cycles of every instruction but a branch's extra ones, form by form (R84). -/
def costOf (i : Instr) (cross : Bool) : Nat :=
  match i with
  | .adc o | .sbc o | .cmp o | .cpx o | .cpy o | .and_ o | .ora o | .eor o => readCost o.mode cross
  | .lda o | .ldx o | .ldy o => readCost o.mode cross
  | .bit m | .lax m | .nopMem _ m => readCost m.mode cross
  | .sta m | .stx m | .sty m | .sax m => storeCost m.mode
  | .asl t | .lsr t | .rol t | .ror t => modifyCost t.mode
  | .inc m | .dec m | .dcp m | .isb m | .slo m | .rla m | .sre m | .rra m => modifyCost m.mode
  | .bcc _ | .bcs _ | .beq _ | .bne _ | .bmi _ | .bpl _ | .bvc _ | .bvs _ => 2
  | .jmp _ _ => 3
  | .jmpInd _ _ => 5
  | .jsr _ _ | .rts | .rti => 6
  | .brk => 7
  | .php | .pha => 3
  | .plp | .pla => 4
  | .tax | .tay | .txa | .tya | .tsx | .txs | .inx | .iny | .dex | .dey => 2
  | .clc | .sec | .cli | .sei | .cld | .sed | .clv => 2
  | .nop | .sbcEB _ | .nopImp _ | .nopImm _ => 2
  | .invalid _ => 0

/-- The 8-bit registers an instruction writes (R22 to R25). -/
def writtenRegs : Instr → List Reg
  | .adc _ | .sbc _ | .sbcEB _ | .and_ _ | .ora _ | .eor _ | .lda _ | .txa | .tya => [.a]
  | .slo _ | .rla _ | .sre _ | .rra _ | .isb _ => [.a]
  | .asl t | .lsr t | .rol t | .ror t => if t.mode = .acc then [.a] else []
  | .ldx _ | .tax | .tsx | .inx | .dex => [.x]
  | .ldy _ | .tay | .iny | .dey => [.y]
  | .lax _ => [.a, .x]
  | .pla => [.a, .sp]
  | .txs | .pha | .php | .plp | .jsr _ _ | .rts | .brk | .rti => [.sp]
  | .cmp _ | .cpx _ | .cpy _ | .bit _ | .inc _ | .dec _ | .dcp _ => []
  | .sta _ | .stx _ | .sty _ | .sax _ => []
  | .bcc _ | .bcs _ | .beq _ | .bne _ | .bmi _ | .bpl _ | .bvc _ | .bvs _ | .jmp _ _ | .jmpInd _ _ => []
  | .clc | .sec | .cli | .sei | .cld | .sed | .clv => []
  | .nop | .nopImp _ | .nopImm _ | .nopMem _ _ | .invalid _ => []

/-- The flags an instruction writes (R29). -/
def writtenFlags : Instr → List Flag
  | .adc _ | .sbc _ | .sbcEB _ | .rra _ | .isb _ => [.c, .z, .v, .n]
  | .cmp _ | .cpx _ | .cpy _ | .dcp _ | .asl _ | .lsr _ | .rol _ | .ror _ => [.c, .z, .n]
  | .slo _ | .rla _ | .sre _ => [.c, .z, .n]
  | .and_ _ | .ora _ | .eor _ | .lda _ | .ldx _ | .ldy _ | .lax _ | .pla | .inc _ | .dec _ => [.z, .n]
  | .tax | .tay | .txa | .tya | .tsx | .inx | .iny | .dex | .dey => [.z, .n]
  | .bit _ => [.z, .v, .n]
  | .clc | .sec => [.c]
  | .cli | .sei => [.i]
  | .cld | .sed => [.d]
  | .clv => [.v]
  | .brk => [.i, .b]
  | .plp | .rti => [.c, .z, .i, .d, .b, .u, .v, .n]
  | .sta _ | .stx _ | .sty _ | .sax _ | .txs | .pha | .php => []
  | .bcc _ | .bcs _ | .beq _ | .bne _ | .bmi _ | .bpl _ | .bvc _ | .bvs _ => []
  | .jmp _ _ | .jmpInd _ _ | .jsr _ _ | .rts => []
  | .nop | .nopImp _ | .nopImm _ | .nopMem _ _ | .invalid _ => []

/-- The instructions that assign PC (R104); the branches do so when taken. -/
def assignsPC : Instr → Bool
  | .bcc _ | .bcs _ | .beq _ | .bne _ | .bmi _ | .bpl _ | .bvc _ | .bvs _ => true
  | .jmp _ _ | .jmpInd _ _ | .jsr _ _ | .rts | .brk | .rti => true
  | .adc _ | .sbc _ | .sbcEB _ | .cmp _ | .cpx _ | .cpy _ | .and_ _ | .ora _ | .eor _ | .bit _ => false
  | .asl _ | .lsr _ | .rol _ | .ror _ | .php | .plp | .pha | .pla | .inc _ | .dec _ => false
  | .lda _ | .ldx _ | .ldy _ | .sta _ | .stx _ | .sty _ | .lax _ | .sax _ => false
  | .tax | .tay | .txa | .tya | .tsx | .txs | .inx | .iny | .dex | .dey => false
  | .clc | .sec | .cli | .sei | .cld | .sed | .clv => false
  | .dcp _ | .isb _ | .slo _ | .rla _ | .sre _ | .rra _ => false
  | .nop | .nopImp _ | .nopImm _ | .nopMem _ _ | .invalid _ => false

/-- The instructions that write memory: stores, memory forms of the read-modify-write class, and pushes
(R118, R200). -/
def writesMemory : Instr → Bool
  | .sta _ | .stx _ | .sty _ | .sax _ | .inc _ | .dec _ => true
  | .asl t | .lsr t | .rol t | .ror t => t.mode != .acc
  | .dcp _ | .isb _ | .slo _ | .rla _ | .sre _ | .rra _ => true
  | .pha | .php | .jsr _ _ | .brk => true
  | .adc _ | .sbc _ | .sbcEB _ | .cmp _ | .cpx _ | .cpy _ | .and_ _ | .ora _ | .eor _ | .bit _ => false
  | .bcc _ | .bcs _ | .beq _ | .bne _ | .bmi _ | .bpl _ | .bvc _ | .bvs _ => false
  | .jmp _ _ | .jmpInd _ _ | .rts | .rti | .plp | .pla | .lda _ | .ldx _ | .ldy _ | .lax _ => false
  | .tax | .tay | .txa | .tya | .tsx | .txs | .inx | .iny | .dex | .dey => false
  | .clc | .sec | .cli | .sei | .cld | .sed | .clv => false
  | .nop | .nopImp _ | .nopImm _ | .nopMem _ _ | .invalid _ => false

/-- Two machines, each on a bus of its own, that agree in all but the bus: registers, P, CYC, the reset mark
and the parameters. -/
def SameProcessor {σ τ : Type} {bus : Bus σ} {bus' : Bus τ} (s : State σ bus) (t : State τ bus') : Prop :=
  t.a = s.a ∧ t.x = s.x ∧ t.y = s.y ∧ t.sp = s.sp ∧ t.pc = s.pc ∧ t.p = s.p ∧ t.cyc = s.cyc ∧
    t.started = s.started ∧ t.cfg = s.cfg

/-- A relation of the states of two buses which reads and writes keep, and which the bytes read do not tell
apart (R50). The video channel is not asked about (R51). -/
def BusesAgree {σ τ : Type} (bus : Bus σ) (bus' : Bus τ) (R : σ → τ → Prop) : Prop :=
  ∀ m n, R m n →
    (∀ a, (bus'.read n a).1 = (bus.read m a).1 ∧ R (bus.read m a).2 (bus'.read n a).2) ∧
    (∀ a v, R (bus.write m a v) (bus'.write n a v))

/-- A run of n steps that ends normally (R318): none of them faults or is refused. -/
def SafeRun (n : Nat) (s : State σ bus) : Prop := (runSteps n s).2 = .ok

end Sys2Proof.Machine
end

