-- ==== Sys2Proof/Certificates/Slice0/Obligations.lean ====
section
/-! DEFINITION. The statements for the provers. Each name says what it states; the terms are those of Safety.lean. -/

open Sys2Proof Sys2Proof.Machine

/-! ## Encoding -/

/-- Decoding the bytes of a well-formed instruction gives it back, whatever follows, with every operand at
every value (R80, R84, R85). -/
def Obligations.DecodeOfEncodeIsTheInstruction : Prop :=
  ∀ i : Instr, i.wf = true →
    ∃ bytes, encode i = some bytes ∧ ∀ rest, decode (bytes ++ rest) = .ok (i, rest)

/-- Every opcode byte decodes to a well-formed instruction of its own length, whose encoding is the bytes
it was read from (R80, R82, R84, R85). -/
def Obligations.EncodeOfDecodeIsTheBytes : Prop :=
  ∀ op l h : Byte, (decodeBytes op l h).wf = true ∧ (decodeBytes op l h).length = lengthOf op ∧
    encode (decodeBytes op l h) = some ([op, l, h].take (lengthOf op))

/-- The map has 227 entries and 29 absent cells, which are those of R86; 151 entries are documented, and
the default UNOFFICIAL_SET is the other 76 (R84, R86, D1). The default admits every entry (R3). Of another
UNOFFICIAL_SET, R86 says that the parameter can change which bytes are absent; that a machine admits the
documented opcodes whatever its set, and a listed byte only where the table has an entry, is the model's own
deduction (log entry 7, DEDUCED). -/
def Obligations.DispatchTableHas227EntriesAnd29Absent : Prop :=
  (opcodeMap.length = 256 ∧ (opcodeMap.filter (·.isSome)).length = 227 ∧
    (opcodeMap.filter (·.any (·.official))).length = 151) ∧
  (∀ op : Byte, dispatchTable op = none ↔ op ∈ absentOpcodes) ∧
  (∀ op : Byte, op ∈ Config.default.unofficialSet ↔ ∃ e, dispatchTable op = some e ∧ e.official = false) ∧
  (∀ (set : List Byte) (op : Byte), admitted set op = true ↔
    ∃ e, dispatchTable op = some e ∧ (e.official = true ∨ op ∈ set)) ∧
  (∀ op : Byte, admitted Config.default.unofficialSet op = true ↔ op ∉ absentOpcodes)

/-- Words of the spec's encodings, one or more for each family, decode to the instructions they stand for
(R84, R88). A sanity statement. -/
def Obligations.EncodedWordsDecodeToTheirInstructions : Prop :=
  decode [0x69, 0x50] = .ok (.adc (.imm 0x50), []) ∧
  decode [0x9D, 0xF0, 0x02] = .ok (.sta (.absx 0xF0 0x02), []) ∧
  decode [0x36, 0x0F] = .ok (.rol (.mem (.zpx 0x0F)), []) ∧
  decode [0xB6, 0x80] = .ok (.ldx (.mem (.zpy 0x80)), []) ∧
  decode [0xD0, 0x10] = .ok (.bne 0x10, []) ∧
  decode [0x6C, 0xFF, 0x02] = .ok (.jmpInd 0xFF 0x02, []) ∧
  decode [0x00] = .ok (.brk, []) ∧
  decode [0xB3, 0x10] = .ok (.lax (.izy 0x10), []) ∧
  decode [0x1C, 0xA9, 0xA9] = .ok (.nopMem 0x1C (.absx 0xA9 0xA9), []) ∧
  decode [0x02] = .ok (.invalid 0x02, [])

/-- The cycles of every form of every instruction, but a branch's extra ones, are those of the opcode map
(R84, R105, R117). -/
def Obligations.CyclesOfEveryForm : Prop :=
  ∀ (i : Instr) (cross : Bool), i.wf = true → cycles i cross = costOf i cross

/-! ## Addressing -/

/-- Page-zero modes: the index wraps inside page zero, and no address is 256 or more (R109, R110). -/
def Obligations.ZeroPageIndexWrapsInPageZero : Prop :=
  ∀ (i : Byte) (s : State),
    (ea (.zp i) s).toNat = i.toNat ∧
    (ea (.zpx i) s).toNat = (i.toNat + s.x.toNat) % 256 ∧
    (ea (.zpy i) s).toNat = (i.toNat + s.y.toNat) % 256 ∧
    crosses (.zp i) s = false ∧ crosses (.zpx i) s = false ∧ crosses (.zpy i) s = false

/-- The two modes with a page-zero pointer, whose second byte wraps inside page zero. (zp,X) adds X before
the pointer is read and has no page test (R111); (zp),Y adds Y to the pointer's word modulo 65536, and its
page test is on the low byte (R112). That the (zp),Y pointer wraps too is the spec's own decision D13, an
inference and not the source's words, which the model follows (log entry 9). -/
def Obligations.IndirectModesReadAPageZeroPointer : Prop :=
  ∀ (i p : Byte) (s : State) (lo hi : Addr), lo.toNat = p.toNat → hi.toNat = (p.toNat + 1) % 256 →
    (p.toNat = (i.toNat + s.x.toNat) % 256 →
      (ea (.izx i) s).toNat = (s.read hi).toNat * 256 + (s.read lo).toNat ∧ crosses (.izx i) s = false) ∧
    (p = i →
      (ea (.izy i) s).toNat = ((s.read hi).toNat * 256 + (s.read lo).toNat + s.y.toNat) % 65536 ∧
      crosses (.izy i) s = decide (0xFF < (s.read lo).toNat + s.y.toNat))

/-- Absolute and absolute indexed (R113, R114). -/
def Obligations.AbsoluteIndexedWrapsAtTheTopOfMemory : Prop :=
  ∀ (l h : Byte) (s : State),
    (ea (.abs l h) s).toNat = h.toNat * 256 + l.toNat ∧ crosses (.abs l h) s = false ∧
    (ea (.absx l h) s).toNat = (h.toNat * 256 + l.toNat + s.x.toNat) % 65536 ∧
    crosses (.absx l h) s = decide (0xFF < l.toNat + s.x.toNat) ∧
    (ea (.absy l h) s).toNat = (h.toNat * 256 + l.toNat + s.y.toNat) % 65536 ∧
    crosses (.absy l h) s = decide (0xFF < l.toNat + s.y.toNat)

/-- In every mode, cross is that the EA stands in another page than the address the index is added to
(R117's derived sentence). -/
def Obligations.CrossIsAChangeOfPage : Prop :=
  ∀ (m : MemRef) (s : State), crosses m s = (hi8 (ea m s) != hi8 (baseAddr m s))

/-! ## Flags and arithmetic -/

/-- set_ZN (R28). -/
def Obligations.SetZNWritesZAndNOnly : Prop :=
  ∀ (v : Byte) (s : State), ShowsZN v (setZN v s) ∧ KeepsFlagsBut [.z, .n] s (setZN v s) ∧
    KeepsRegsBut [] s (setZN v s) ∧ (setZN v s).pc = s.pc ∧ (setZN v s).cyc = s.cyc ∧
    (setZN v s).mem = s.mem ∧ KeepsMachine s (setZN v s)

/-- ADC completes in every state with the adder's result and flags (R140, R141). -/
def Obligations.AdcAddsOperandAndCarry : Prop :=
  ∀ (o : Operand) (s : State), ∃ t, exec (.adc o) s = .next t ∧
    t.a.toNat = (s.a.toNat + (operandValue o s).toNat + (s.flag .c).toNat) % 256 ∧
    t.flag .c = decide (255 < s.a.toNat + (operandValue o s).toNat + (s.flag .c).toNat) ∧
    t.flag .v = (s.a.msb == (operandValue o s).msb && t.a.msb != s.a.msb) ∧
    ShowsZN t.a t ∧ RegisterStep (.adc o) (operandCrosses o s) [.a] [.c, .z, .v, .n] s t

/-- SBC, in every form and as opcode EB, completes with the closed form: A - m - (1 - C), C iff there is no
borrow, V iff the signs of A and m differ and the result's sign is not A's (R142, R263). -/
def Obligations.SbcSubtractsOperandAndBorrow : Prop :=
  (∀ (o : Operand) (s : State), ∃ t, exec (.sbc o) s = .next t ∧
    t.a.toNat = (s.a.toNat + 256 - (operandValue o s).toNat - (1 - (s.flag .c).toNat)) % 256 ∧
    t.flag .c = decide ((operandValue o s).toNat + (1 - (s.flag .c).toNat) ≤ s.a.toNat) ∧
    t.flag .v = (s.a.msb != (operandValue o s).msb && t.a.msb != s.a.msb) ∧
    ShowsZN t.a t ∧ RegisterStep (.sbc o) (operandCrosses o s) [.a] [.c, .z, .v, .n] s t) ∧
  (∀ (i : Byte) (s : State), ∃ t, exec (.sbcEB i) s = .next t ∧
    t.a.toNat = (s.a.toNat + 256 - i.toNat - (1 - (s.flag .c).toNat)) % 256 ∧
    t.flag .c = decide (i.toNat + (1 - (s.flag .c).toNat) ≤ s.a.toNat) ∧
    t.flag .v = (s.a.msb != i.msb && t.a.msb != s.a.msb) ∧
    ShowsZN t.a t ∧ RegisterStep (.sbcEB i) false [.a] [.c, .z, .v, .n] s t)

/-- "SBC(x) must equal ADC(x XOR 0xFF) bit-for-bit for all A, x, carry-in combinations" (R142): the whole
next state of the immediate forms, documented or not. -/
def Obligations.SbcIsAdcOfTheComplement : Prop :=
  ∀ (i : Byte) (s : State),
    exec (.sbc (.imm i)) s = exec (.adc (.imm (i ^^^ 0xFF))) s ∧
    exec (.sbcEB i) s = exec (.adc (.imm (i ^^^ 0xFF))) s

/-- CMP, CPX and CPY: C is the unsigned compare, Z and N those of the difference, and no register and no
other flag changes (R143 to R146). -/
def Obligations.ComparesWriteCarryZeroNegative : Prop :=
  ∀ (o : Operand) (s : State),
    (∃ t, exec (.cmp o) s = .next t ∧ t.flag .c = decide ((operandValue o s).toNat ≤ s.a.toNat) ∧
      ShowsZN (BitVec.ofNat 8 (s.a.toNat + 256 - (operandValue o s).toNat)) t ∧
      RegisterStep (.cmp o) (operandCrosses o s) [] [.c, .z, .n] s t) ∧
    (∃ t, exec (.cpx o) s = .next t ∧ t.flag .c = decide ((operandValue o s).toNat ≤ s.x.toNat) ∧
      ShowsZN (BitVec.ofNat 8 (s.x.toNat + 256 - (operandValue o s).toNat)) t ∧
      RegisterStep (.cpx o) (operandCrosses o s) [] [.c, .z, .n] s t) ∧
    (∃ t, exec (.cpy o) s = .next t ∧ t.flag .c = decide ((operandValue o s).toNat ≤ s.y.toNat) ∧
      ShowsZN (BitVec.ofNat 8 (s.y.toNat + 256 - (operandValue o s).toNat)) t ∧
      RegisterStep (.cpy o) (operandCrosses o s) [] [.c, .z, .n] s t)

/-! ## Shifts, logic, BIT -/

/-- The accumulator forms of the shifts and rotates (R160 to R164). -/
def Obligations.ShiftsOfTheAccumulator : Prop :=
  ∀ s : State,
    (∃ t, exec (.asl .acc) s = .next t ∧ t.a.toNat = s.a.toNat * 2 % 256 ∧
      t.flag .c = s.a.getLsbD 7 ∧ ShowsZN t.a t ∧ RegisterStep (.asl .acc) false [.a] [.c, .z, .n] s t) ∧
    (∃ t, exec (.lsr .acc) s = .next t ∧ t.a.toNat = s.a.toNat / 2 ∧
      t.flag .c = s.a.getLsbD 0 ∧ ShowsZN t.a t ∧ RegisterStep (.lsr .acc) false [.a] [.c, .z, .n] s t) ∧
    (∃ t, exec (.rol .acc) s = .next t ∧ t.a.toNat = s.a.toNat * 2 % 256 + (s.flag .c).toNat ∧
      t.flag .c = s.a.getLsbD 7 ∧ ShowsZN t.a t ∧ RegisterStep (.rol .acc) false [.a] [.c, .z, .n] s t) ∧
    (∃ t, exec (.ror .acc) s = .next t ∧ t.a.toNat = s.a.toNat / 2 + 128 * (s.flag .c).toNat ∧
      t.flag .c = s.a.getLsbD 0 ∧ ShowsZN t.a t ∧ RegisterStep (.ror .acc) false [.a] [.c, .z, .n] s t)

/-- The memory forms of the shifts and rotates: the byte at EA is replaced, and nothing else is stored
(R160 to R164). -/
def Obligations.ShiftsOfMemory : Prop :=
  ∀ (m : MemRef) (s : State),
    (∃ t, exec (.asl (.mem m)) s = .next t ∧ (t.read (ea m s)).toNat = (s.read (ea m s)).toNat * 2 % 256 ∧
      t.flag .c = (s.read (ea m s)).getLsbD 7 ∧ ShowsZN (t.read (ea m s)) t ∧
      StoringStep (.asl (.mem m)) false [] [.c, .z, .n] [ea m s] s t) ∧
    (∃ t, exec (.lsr (.mem m)) s = .next t ∧ (t.read (ea m s)).toNat = (s.read (ea m s)).toNat / 2 ∧
      t.flag .c = (s.read (ea m s)).getLsbD 0 ∧ ShowsZN (t.read (ea m s)) t ∧
      StoringStep (.lsr (.mem m)) false [] [.c, .z, .n] [ea m s] s t) ∧
    (∃ t, exec (.rol (.mem m)) s = .next t ∧
      (t.read (ea m s)).toNat = (s.read (ea m s)).toNat * 2 % 256 + (s.flag .c).toNat ∧
      t.flag .c = (s.read (ea m s)).getLsbD 7 ∧ ShowsZN (t.read (ea m s)) t ∧
      StoringStep (.rol (.mem m)) false [] [.c, .z, .n] [ea m s] s t) ∧
    (∃ t, exec (.ror (.mem m)) s = .next t ∧
      (t.read (ea m s)).toNat = (s.read (ea m s)).toNat / 2 + 128 * (s.flag .c).toNat ∧
      t.flag .c = (s.read (ea m s)).getLsbD 0 ∧ ShowsZN (t.read (ea m s)) t ∧
      StoringStep (.ror (.mem m)) false [] [.c, .z, .n] [ea m s] s t)

/-- AND, ORA and EOR (R165 to R167). -/
def Obligations.LogicCombinesOperandIntoA : Prop :=
  ∀ (o : Operand) (s : State),
    (∃ t, exec (.and_ o) s = .next t ∧ t.a = s.a &&& operandValue o s ∧ ShowsZN t.a t ∧
      RegisterStep (.and_ o) (operandCrosses o s) [.a] [.z, .n] s t) ∧
    (∃ t, exec (.ora o) s = .next t ∧ t.a = s.a ||| operandValue o s ∧ ShowsZN t.a t ∧
      RegisterStep (.ora o) (operandCrosses o s) [.a] [.z, .n] s t) ∧
    (∃ t, exec (.eor o) s = .next t ∧ t.a = s.a ^^^ operandValue o s ∧ ShowsZN t.a t ∧
      RegisterStep (.eor o) (operandCrosses o s) [.a] [.z, .n] s t)

/-- BIT (R168). -/
def Obligations.BitTestsOperandBits : Prop :=
  ∀ (m : MemRef) (s : State), ∃ t, exec (.bit m) s = .next t ∧
    t.flag .v = (s.read (ea m s)).getLsbD 6 ∧ t.flag .n = (s.read (ea m s)).getLsbD 7 ∧
    t.flag .z = decide (s.read (ea m s) &&& s.a = 0) ∧
    RegisterStep (.bit m) (crosses m s) [] [.v, .n, .z] s t

/-! ## Loads, stores, transfers, increments, flags -/

/-- LDA, LDX, LDY and LAX (R220 to R222, R261). -/
def Obligations.LoadsFillTheirRegisters : Prop :=
  (∀ (o : Operand) (s : State),
    (∃ t, exec (.lda o) s = .next t ∧ t.a = operandValue o s ∧ ShowsZN t.a t ∧
      RegisterStep (.lda o) (operandCrosses o s) [.a] [.z, .n] s t) ∧
    (∃ t, exec (.ldx o) s = .next t ∧ t.x = operandValue o s ∧ ShowsZN t.x t ∧
      RegisterStep (.ldx o) (operandCrosses o s) [.x] [.z, .n] s t) ∧
    (∃ t, exec (.ldy o) s = .next t ∧ t.y = operandValue o s ∧ ShowsZN t.y t ∧
      RegisterStep (.ldy o) (operandCrosses o s) [.y] [.z, .n] s t)) ∧
  (∀ (m : MemRef) (s : State),
    (∃ t, exec (.lax m) s = .next t ∧ t.a = s.read (ea m s) ∧ t.x = s.read (ea m s) ∧ ShowsZN t.a t ∧
      RegisterStep (.lax m) (crosses m s) [.a, .x] [.z, .n] s t))

/-- STA, STX, STY and SAX: the byte at EA becomes the register's, no other byte, register or flag changes
(R223 to R225, R262). -/
def Obligations.StoresWriteOneByte : Prop :=
  ∀ (m : MemRef) (s : State),
    (∃ t, exec (.sta m) s = .next t ∧ t.read (ea m s) = s.a ∧
      StoringStep (.sta m) (crosses m s) [] [] [ea m s] s t) ∧
    (∃ t, exec (.stx m) s = .next t ∧ t.read (ea m s) = s.x ∧
      StoringStep (.stx m) (crosses m s) [] [] [ea m s] s t) ∧
    (∃ t, exec (.sty m) s = .next t ∧ t.read (ea m s) = s.y ∧
      StoringStep (.sty m) (crosses m s) [] [] [ea m s] s t) ∧
    (∃ t, exec (.sax m) s = .next t ∧ t.read (ea m s) = s.a &&& s.x ∧
      StoringStep (.sax m) (crosses m s) [] [] [ea m s] s t)

/-- The six transfers, with their opcode bytes and their two cycles (R226 to R231). -/
def Obligations.TransfersCopyARegister : Prop :=
  ∀ s : State,
    (encode .tax = some [0xAA] ∧ cycles .tax false = 2 ∧ ∃ t, exec .tax s = .next t ∧ t.x = s.a ∧
      ShowsZN t.x t ∧ RegisterStep .tax false [.x] [.z, .n] s t) ∧
    (encode .tay = some [0xA8] ∧ cycles .tay false = 2 ∧ ∃ t, exec .tay s = .next t ∧ t.y = s.a ∧
      ShowsZN t.y t ∧ RegisterStep .tay false [.y] [.z, .n] s t) ∧
    (encode .txa = some [0x8A] ∧ cycles .txa false = 2 ∧ ∃ t, exec .txa s = .next t ∧ t.a = s.x ∧
      ShowsZN t.a t ∧ RegisterStep .txa false [.a] [.z, .n] s t) ∧
    (encode .tya = some [0x98] ∧ cycles .tya false = 2 ∧ ∃ t, exec .tya s = .next t ∧ t.a = s.y ∧
      ShowsZN t.a t ∧ RegisterStep .tya false [.a] [.z, .n] s t) ∧
    (encode .tsx = some [0xBA] ∧ cycles .tsx false = 2 ∧ ∃ t, exec .tsx s = .next t ∧ t.x = s.sp ∧
      ShowsZN t.x t ∧ RegisterStep .tsx false [.x] [.z, .n] s t) ∧
    (encode .txs = some [0x9A] ∧ cycles .txs false = 2 ∧ ∃ t, exec .txs s = .next t ∧ t.sp = s.x ∧
      RegisterStep .txs false [.sp] [] s t)

/-- INX, INY, DEX and DEY, with their opcode bytes and cycles (R234 to R237). -/
def Obligations.IndexRegistersCountModulo256 : Prop :=
  ∀ s : State,
    (encode .inx = some [0xE8] ∧ cycles .inx false = 2 ∧ ∃ t, exec .inx s = .next t ∧
      t.x.toNat = (s.x.toNat + 1) % 256 ∧ ShowsZN t.x t ∧ RegisterStep .inx false [.x] [.z, .n] s t) ∧
    (encode .iny = some [0xC8] ∧ cycles .iny false = 2 ∧ ∃ t, exec .iny s = .next t ∧
      t.y.toNat = (s.y.toNat + 1) % 256 ∧ ShowsZN t.y t ∧ RegisterStep .iny false [.y] [.z, .n] s t) ∧
    (encode .dex = some [0xCA] ∧ cycles .dex false = 2 ∧ ∃ t, exec .dex s = .next t ∧
      t.x.toNat = (s.x.toNat + 255) % 256 ∧ ShowsZN t.x t ∧ RegisterStep .dex false [.x] [.z, .n] s t) ∧
    (encode .dey = some [0x88] ∧ cycles .dey false = 2 ∧ ∃ t, exec .dey s = .next t ∧
      t.y.toNat = (s.y.toNat + 255) % 256 ∧ ShowsZN t.y t ∧ RegisterStep .dey false [.y] [.z, .n] s t)

/-- INC and DEC: the byte at EA counts modulo 256; C and V stay (R232, R233). -/
def Obligations.IncAndDecCountMemoryModulo256 : Prop :=
  ∀ (m : MemRef) (s : State),
    (∃ t, exec (.inc m) s = .next t ∧ (t.read (ea m s)).toNat = ((s.read (ea m s)).toNat + 1) % 256 ∧
      ShowsZN (t.read (ea m s)) t ∧ StoringStep (.inc m) (crosses m s) [] [.z, .n] [ea m s] s t) ∧
    (∃ t, exec (.dec m) s = .next t ∧ (t.read (ea m s)).toNat = ((s.read (ea m s)).toNat + 255) % 256 ∧
      ShowsZN (t.read (ea m s)) t ∧ StoringStep (.dec m) (crosses m s) [] [.z, .n] [ea m s] s t)

/-- The seven flag instructions write one flag each (R238 to R244). -/
def Obligations.FlagInstructionsWriteOneFlag : Prop :=
  ∀ (s : State) (i : Instr) (op : Byte) (f : Flag) (v : Bool),
    (i, op, f, v) ∈ [(Instr.clc, (0x18 : Byte), Flag.c, false), (.sec, 0x38, .c, true), (.cli, 0x58, .i, false),
      (.sei, 0x78, .i, true), (.cld, 0xD8, .d, false), (.sed, 0xF8, .d, true), (.clv, 0xB8, .v, false)] →
    encode i = some [op] ∧ cycles i false = 2 ∧
      ∃ t, exec i s = .next t ∧ t.flag f = v ∧ RegisterStep i false [] [f] s t

/-- The NOPs change PC and CYC alone (R245, R270, R271). On any bus, the bus included: a memory-operand NOP
reads its EA, and discards the byte, if NOP_OPERAND_READ says so, and otherwise leaves the bus as it was. -/
def Obligations.NopsOnlyAdvance : Prop :=
  (∀ s : State, encode .nop = some [0xEA] ∧ cycles .nop false = 2 ∧
    ∃ t, exec .nop s = .next t ∧ RegisterStep .nop false [] [] s t) ∧
  (∀ (s : State) (op : Byte), ∃ t, exec (.nopImp op) s = .next t ∧ RegisterStep (.nopImp op) false [] [] s t) ∧
  (∀ (s : State) (i : Byte), ∃ t, exec (.nopImm i) s = .next t ∧ RegisterStep (.nopImm i) false [] [] s t) ∧
  (∀ (s : State) (op : Byte) (m : MemRef), ∃ t, exec (.nopMem op m) s = .next t ∧
    RegisterStep (.nopMem op m) (crosses m s) [] [] s t) ∧
  (∀ (σ : Type) (bus : Bus σ) (s : State σ bus) (op : Byte) (m : MemRef), (Instr.nopMem op m).wf = true →
    ∃ t, execOver (.nopMem op m) s = .next t ∧
      Advances (Instr.nopMem op m).length (cycles (.nopMem op m) (crosses m s)) s t ∧
      KeepsRegsBut [] s t ∧ KeepsFlagsBut [] s t ∧ KeepsMachine s t ∧
      t.mem = if s.cfg.nopOperandRead = true then (bus.read s.mem (ea m s)).2 else s.mem)

/-! ## Branches, jumps, call and return -/

/-- The eight branches (R180 to R188): untaken, PC advances by 2 in 2 cycles; taken, PC is the signed
offset from the next instruction in 3 cycles, 4 if that changes the page; nothing else changes. -/
def Obligations.BranchesTakenAndNotTaken : Prop :=
  ∀ (s : State) (off : Byte) (i : Instr) (op : Byte) (cond : Bool),
    (i, op, cond) ∈ [(Instr.bcc off, (0x90 : Byte), !s.flag .c), (.bcs off, 0xB0, s.flag .c),
      (.beq off, 0xF0, s.flag .z), (.bne off, 0xD0, !s.flag .z), (.bmi off, 0x30, s.flag .n),
      (.bpl off, 0x10, !s.flag .n), (.bvc off, 0x50, !s.flag .v), (.bvs off, 0x70, s.flag .v)] →
    encode i = some [op, off] ∧ ∃ t, exec i s = .next t ∧
      (cond = false → t.pc.toNat = (s.pc.toNat + 2) % 65536 ∧ t.cyc = s.cyc + 2) ∧
      (cond = true →
        t.pc.toNat = (s.pc.toNat + 2 + (if off.toNat < 128 then off.toNat else off.toNat + 0xFF00)) % 65536 ∧
        t.cyc = s.cyc + (if t.pc.toNat / 256 = (s.pc.toNat + 2) % 65536 / 256 then 3 else 4)) ∧
      KeepsRegsBut [] s t ∧ KeepsFlagsBut [] s t ∧ KeepsMemory s t ∧ KeepsMachine s t

/-- JMP absolute (R189) makes no data access; JMP indirect (R190) takes the high byte of its target from
the pointer's own page. -/
def Obligations.JumpsSetPC : Prop :=
  (∀ (l h : Byte) (s : State), encode (.jmp l h) = some [0x4C, l, h] ∧
    ∃ t, exec (.jmp l h) s = .next t ∧ t.pc.toNat = h.toNat * 256 + l.toNat ∧ t.cyc = s.cyc + 3 ∧
      KeepsRegsBut [] s t ∧ KeepsFlagsBut [] s t ∧ KeepsMemory s t ∧ KeepsMachine s t ∧
      bodyAccesses (.jmp l h) s = []) ∧
  (∀ (l h : Byte) (s : State) (lo hi : Addr),
    lo.toNat = h.toNat * 256 + l.toNat → hi.toNat = h.toNat * 256 + (l.toNat + 1) % 256 →
    encode (.jmpInd l h) = some [0x6C, l, h] ∧
    ∃ t, exec (.jmpInd l h) s = .next t ∧
      t.pc.toNat = (s.read hi).toNat * 256 + (s.read lo).toNat ∧ t.cyc = s.cyc + 5 ∧
      KeepsRegsBut [] s t ∧ KeepsFlagsBut [] s t ∧ KeepsMemory s t ∧ KeepsMachine s t)

/-- JSR (R191): pushes the address of its last byte in the order of the parameter, and jumps. -/
def Obligations.JsrPushesItsLastAddress : Prop :=
  ∀ (l h : Byte) (s : State), encode (.jsr l h) = some [0x20, l, h] ∧
    ∃ t, exec (.jsr l h) s = .next t ∧ t.pc.toNat = h.toNat * 256 + l.toNat ∧ t.sp = s.sp - 2 ∧
      t.cyc = s.cyc + 6 ∧
      (s.cfg.stackWordOrder = .highFirst →
        t.read (stackAddr s.sp) = hi8 (s.pc + 2) ∧ t.read (stackAddr (s.sp - 1)) = lo8 (s.pc + 2)) ∧
      (s.cfg.stackWordOrder = .lowFirst →
        t.read (stackAddr s.sp) = lo8 (s.pc + 2) ∧ t.read (stackAddr (s.sp - 1)) = hi8 (s.pc + 2)) ∧
      KeepsRegsBut [.sp] s t ∧ KeepsFlagsBut [] s t ∧ KeepsMachine s t ∧
      KeepsMemoryBut [stackAddr s.sp, stackAddr (s.sp - 1)] s t

/-- RTS (R192): pulls a word and returns to the address after it. -/
def Obligations.RtsReturnsAfterThePulledWord : Prop :=
  ∀ s : State, encode .rts = some [0x60] ∧
    ∃ t, exec .rts s = .next t ∧ t.sp = s.sp + 2 ∧ t.cyc = s.cyc + 6 ∧
      (s.cfg.stackWordOrder = .highFirst → t.pc.toNat =
        ((s.read (stackAddr (s.sp + 2))).toNat * 256 + (s.read (stackAddr (s.sp + 1))).toNat + 1) % 65536) ∧
      (s.cfg.stackWordOrder = .lowFirst → t.pc.toNat =
        ((s.read (stackAddr (s.sp + 1))).toNat * 256 + (s.read (stackAddr (s.sp + 2))).toNat + 1) % 65536) ∧
      KeepsRegsBut [.sp] s t ∧ KeepsFlagsBut [] s t ∧ KeepsMemory s t ∧ KeepsMachine s t

/-- RTS after JSR returns to the instruction after the JSR with the stack pointer restored, at every SP
and under either word order (R191, R192, R201). -/
def Obligations.RtsUndoesJsr : Prop :=
  ∀ (l h : Byte) (s : State), ∃ t u, exec (.jsr l h) s = .next t ∧ exec .rts t = .next u ∧
    u.pc = s.pc + 3 ∧ KeepsRegsBut [] s u ∧ KeepsFlagsBut [] s u ∧ u.cyc = s.cyc + 12

/-! ## Stack, BRK, RTI -/

/-- The stack primitives (R200), with PHA and PHP above them. -/
def Obligations.PushAndPullStayInPageOne : Prop :=
  (∀ sp : Byte, (stackAddr sp).toNat = 0x0100 + sp.toNat) ∧
  (∀ (v : Byte) (s : State), (push v s).read (stackAddr s.sp) = v ∧
    (push v s).sp.toNat = (s.sp.toNat + 255) % 256 ∧ KeepsMemoryBut [stackAddr s.sp] s (push v s) ∧
    KeepsRegsBut [.sp] s (push v s) ∧ KeepsFlagsBut [] s (push v s) ∧ (push v s).pc = s.pc ∧
    (push v s).cyc = s.cyc ∧ KeepsMachine s (push v s)) ∧
  (∀ s : State, (pull s).2.sp.toNat = (s.sp.toNat + 1) % 256 ∧
    (pull s).1 = s.read (stackAddr (pull s).2.sp) ∧ KeepsMemory s (pull s).2 ∧
    KeepsRegsBut [.sp] s (pull s).2 ∧ KeepsFlagsBut [] s (pull s).2 ∧ (pull s).2.pc = s.pc ∧
    (pull s).2.cyc = s.cyc ∧ KeepsMachine s (pull s).2)

/-- Push16 lays the bytes as the order says, and Pull16 gives the word back and restores SP, at every SP
(R201). -/
def Obligations.PullWordUndoesPushWord : Prop :=
  ∀ (w : Addr) (s : State),
    (s.cfg.stackWordOrder = .highFirst → (push16 w s).read (stackAddr s.sp) = hi8 w ∧
      (push16 w s).read (stackAddr (s.sp - 1)) = lo8 w) ∧
    (s.cfg.stackWordOrder = .lowFirst → (push16 w s).read (stackAddr s.sp) = lo8 w ∧
      (push16 w s).read (stackAddr (s.sp - 1)) = hi8 w) ∧
    (push16 w s).sp = s.sp - 2 ∧
    (pull16 (push16 w s)).1 = w ∧ (pull16 (push16 w s)).2.sp = s.sp

/-- PHA and PHP (R206, R208, R202): the byte pushed, and nothing else but SP. -/
def Obligations.PhaAndPhpPushOneByte : Prop :=
  ∀ s : State,
    (encode .pha = some [0x48] ∧ cycles .pha false = 3 ∧ ∃ t, exec .pha s = .next t ∧
      t.read (stackAddr s.sp) = s.a ∧ t.sp = s.sp - 1 ∧
      StoringStep .pha false [.sp] [] [stackAddr s.sp] s t) ∧
    (encode .php = some [0x08] ∧ cycles .php false = 3 ∧ ∃ t, exec .php s = .next t ∧
      t.read (stackAddr s.sp) = s.p ||| 0x30 ∧ t.sp = s.sp - 1 ∧
      StoringStep .php false [.sp] [] [stackAddr s.sp] s t)

/-- PLA (R210). -/
def Obligations.PlaPullsA : Prop :=
  ∀ s : State, encode .pla = some [0x68] ∧ cycles .pla false = 4 ∧ ∃ t, exec .pla s = .next t ∧
    t.a = s.read (stackAddr (s.sp + 1)) ∧ t.sp = s.sp + 1 ∧ ShowsZN t.a t ∧
    RegisterStep .pla false [.a, .sp] [.z, .n] s t

/-- PLP (R203, R207): six flags from the pulled byte, U = 1, and B as PULL_B_POLICY says. -/
def Obligations.PlpRestoresStatus : Prop :=
  ∀ s : State, encode .plp = some [0x28] ∧ cycles .plp false = 4 ∧ ∃ t, exec .plp s = .next t ∧
    (s.cfg.pullBPolicy = .clear → t.p = (s.read (stackAddr (s.sp + 1)) &&& 0xEF) ||| 0x20) ∧
    (s.cfg.pullBPolicy = .keep →
      t.p = (s.read (stackAddr (s.sp + 1)) &&& 0xCF) ||| (s.p &&& 0x10) ||| 0x20) ∧
    t.sp = s.sp + 1 ∧ RegisterStep .plp false [.sp] [.c, .z, .i, .d, .b, .u, .v, .n] s t

/-- BRK (R205): the return address, the status byte, I, B, and the vector at 0xFFFE, for either value of
BRK_RETURN_OFFSET and either word order. -/
def Obligations.BrkEntersThroughTheVector : Prop :=
  ∀ (s : State) (ret : Addr),
    ret = s.pc + (match s.cfg.brkReturnOffset with | .one => 1 | .two => 2) →
    encode .brk = some [0x00] ∧ ∃ t, exec .brk s = .next t ∧
      t.pc = w16 (s.read 0xFFFF) (s.read 0xFFFE) ∧ t.sp = s.sp - 3 ∧ t.cyc = s.cyc + 7 ∧
      (s.cfg.stackWordOrder = .highFirst →
        t.read (stackAddr s.sp) = hi8 ret ∧ t.read (stackAddr (s.sp - 1)) = lo8 ret) ∧
      (s.cfg.stackWordOrder = .lowFirst →
        t.read (stackAddr s.sp) = lo8 ret ∧ t.read (stackAddr (s.sp - 1)) = hi8 ret) ∧
      t.read (stackAddr (s.sp - 2)) = s.p ||| 0x30 ∧
      t.flag .i = true ∧ t.flag .b = true ∧
      KeepsRegsBut [.sp] s t ∧ KeepsFlagsBut [.i, .b] s t ∧ KeepsMachine s t ∧
      KeepsMemoryBut [stackAddr s.sp, stackAddr (s.sp - 1), stackAddr (s.sp - 2)] s t

/-- RTI (R209): status, then PC, with no +1. -/
def Obligations.RtiRestoresStatusAndPC : Prop :=
  ∀ s : State, encode .rti = some [0x40] ∧ ∃ t, exec .rti s = .next t ∧ t.sp = s.sp + 3 ∧
    t.cyc = s.cyc + 6 ∧
    (s.cfg.pullBPolicy = .clear → t.p = (s.read (stackAddr (s.sp + 1)) &&& 0xEF) ||| 0x20) ∧
    (s.cfg.pullBPolicy = .keep →
      t.p = (s.read (stackAddr (s.sp + 1)) &&& 0xCF) ||| (s.p &&& 0x10) ||| 0x20) ∧
    (s.cfg.stackWordOrder = .highFirst →
      t.pc = w16 (s.read (stackAddr (s.sp + 3))) (s.read (stackAddr (s.sp + 2)))) ∧
    (s.cfg.stackWordOrder = .lowFirst →
      t.pc = w16 (s.read (stackAddr (s.sp + 2))) (s.read (stackAddr (s.sp + 3)))) ∧
    KeepsRegsBut [.sp] s t ∧ KeepsMemory s t ∧ KeepsMachine s t

/-- RTI after BRK (R205, R209, R308): back at the pushed address with the stack pointer and every flag but
B and U as before the BRK; under PULL_B_POLICY Clear, B is 0. -/
def Obligations.RtiUndoesBrk : Prop :=
  ∀ s : State, ∃ t u, exec .brk s = .next t ∧ exec .rti t = .next u ∧
    u.pc = s.pc + (match s.cfg.brkReturnOffset with | .one => 1 | .two => 2) ∧
    KeepsRegsBut [] s u ∧ KeepsFlagsBut [.b, .u] s u ∧ u.flag .u = true ∧
    (s.cfg.pullBPolicy = .clear → u.flag .b = false) ∧ (s.cfg.pullBPolicy = .keep → u.flag .b = true)

/-! ## Undocumented opcodes -/

/-- DCP and ISB (R264, R265): the counted byte is stored, and the compare or the subtraction is against it. -/
def Obligations.DcpAndIsbCountThenUseTheByte : Prop :=
  ∀ (m : MemRef) (s : State),
    (∃ t, exec (.dcp m) s = .next t ∧ (t.read (ea m s)).toNat = ((s.read (ea m s)).toNat + 255) % 256 ∧
      t.flag .c = decide ((t.read (ea m s)).toNat ≤ s.a.toNat) ∧
      ShowsZN (BitVec.ofNat 8 (s.a.toNat + 256 - (t.read (ea m s)).toNat)) t ∧
      StoringStep (.dcp m) (crosses m s) [] [.c, .z, .n] [ea m s] s t) ∧
    (∃ t, exec (.isb m) s = .next t ∧ (t.read (ea m s)).toNat = ((s.read (ea m s)).toNat + 1) % 256 ∧
      t.a.toNat = (s.a.toNat + 256 - (t.read (ea m s)).toNat - (1 - (s.flag .c).toNat)) % 256 ∧
      t.flag .c = decide ((t.read (ea m s)).toNat + (1 - (s.flag .c).toNat) ≤ s.a.toNat) ∧
      t.flag .v = (s.a.msb != (t.read (ea m s)).msb && t.a.msb != s.a.msb) ∧ ShowsZN t.a t ∧
      StoringStep (.isb m) (crosses m s) [.a] [.c, .z, .v, .n] [ea m s] s t)

/-- SLO, RLA, SRE and RRA (R266 to R269): the shifted byte is stored and combined into A; RRA adds the
carry its own rotate produced. -/
def Obligations.ShiftCombinationsUseTheShiftedByte : Prop :=
  ∀ (m : MemRef) (s : State),
    (∃ t, exec (.slo m) s = .next t ∧ (t.read (ea m s)).toNat = (s.read (ea m s)).toNat * 2 % 256 ∧
      t.a = s.a ||| t.read (ea m s) ∧ t.flag .c = (s.read (ea m s)).getLsbD 7 ∧ ShowsZN t.a t ∧
      StoringStep (.slo m) (crosses m s) [.a] [.c, .z, .n] [ea m s] s t) ∧
    (∃ t, exec (.rla m) s = .next t ∧
      (t.read (ea m s)).toNat = (s.read (ea m s)).toNat * 2 % 256 + (s.flag .c).toNat ∧
      t.a = s.a &&& t.read (ea m s) ∧ t.flag .c = (s.read (ea m s)).getLsbD 7 ∧ ShowsZN t.a t ∧
      StoringStep (.rla m) (crosses m s) [.a] [.c, .z, .n] [ea m s] s t) ∧
    (∃ t, exec (.sre m) s = .next t ∧ (t.read (ea m s)).toNat = (s.read (ea m s)).toNat / 2 ∧
      t.a = s.a ^^^ t.read (ea m s) ∧ t.flag .c = (s.read (ea m s)).getLsbD 0 ∧ ShowsZN t.a t ∧
      StoringStep (.sre m) (crosses m s) [.a] [.c, .z, .n] [ea m s] s t) ∧
    (∃ t, exec (.rra m) s = .next t ∧
      (t.read (ea m s)).toNat = (s.read (ea m s)).toNat / 2 + 128 * (s.flag .c).toNat ∧
      t.a.toNat = (s.a.toNat + (t.read (ea m s)).toNat + (s.read (ea m s)).toNat % 2) % 256 ∧
      t.flag .c = decide (255 < s.a.toNat + (t.read (ea m s)).toNat + (s.read (ea m s)).toNat % 2) ∧
      t.flag .v = (s.a.msb == (t.read (ea m s)).msb && t.a.msb != s.a.msb) ∧ ShowsZN t.a t ∧
      StoringStep (.rra m) (crosses m s) [.a] [.c, .z, .v, .n] [ea m s] s t)

/-- Each undocumented combination leaves A, X, P and the store as its two documented primitives run one
after the other (R260 to R269). -/
def Obligations.UndocumentedOpcodesAreCompositions : Prop :=
  ∀ (m : MemRef) (s : State) (first second combined : Instr),
    (first, second, combined) ∈
      [(Instr.lda (.mem m), Instr.tax, Instr.lax m),
       (.dec m, .cmp (.imm (s.read (ea m s) - 1)), .dcp m),
       (.inc m, .sbc (.imm (s.read (ea m s) + 1)), .isb m),
       (.asl (.mem m), .ora (.imm (aslF (s.read (ea m s)) s).1), .slo m),
       (.rol (.mem m), .and_ (.imm (rolF (s.read (ea m s)) s).1), .rla m),
       (.lsr (.mem m), .eor (.imm (lsrF (s.read (ea m s)) s).1), .sre m),
       (.ror (.mem m), .adc (.imm (rorF (s.read (ea m s)) s).1), .rra m)] →
    ∃ t u v, exec first s = .next t ∧ exec second t = .next u ∧ exec combined s = .next v ∧
      KeepsRegsBut [] u v ∧ v.p = u.p ∧ v.mem = u.mem

/-! ## The step, its faults, reset -/

/-- A step runs the decoded instruction and adds nothing around it but the fetch (R100, R101). On the default
mapper the fetch changes nothing, so the step is exec at that state. On any bus the bytes are read in rising
order, only those the length asks for, and the instruction runs at the state after them; the default mapper's
step and exec are the same machine's (R56, R62). -/
def Obligations.StepRunsTheDecodedInstruction : Prop :=
  (∀ (s : State) (i : Instr) (rest : List Byte),
    s.started = true → admitted s.cfg.unofficialSet (s.read s.pc) = true →
    decode [s.read s.pc, s.read (s.pc + 1), s.read (s.pc + 2)] = .ok (i, rest) →
    step s = exec i s) ∧
  (∀ (σ : Type) (bus : Bus σ) (s s1 s2 s3 : State σ bus) (i : Instr) (rest : List Byte),
    s1 = s.afterRead s.pc → s2 = s1.afterRead (s.pc + 1) → s3 = s2.afterRead (s.pc + 2) →
    s.started = true → admitted s.cfg.unofficialSet (s.read s.pc) = true →
    decode [s.read s.pc, s1.read (s.pc + 1), s2.read (s.pc + 2)] = .ok (i, rest) →
    (i.length = 1 → stepOver s = execOver i s1) ∧ (i.length = 2 → stepOver s = execOver i s2) ∧
    (i.length = 3 → stepOver s = execOver i s3)) ∧
  (∀ s : State, stepOver s = step s) ∧ (∀ (i : Instr) (s : State), execOver i s = exec i s)

/-- An absent opcode byte (R300): the fault with the byte and PC, the state kept, and one bus access, the
opcode read, which is all that another bus than the default mapper can show of it. -/
def Obligations.AbsentOpcodeFaults : Prop :=
  (∀ (op : Byte) (s : State), exec (.invalid op) s = .fault (.invalidOpcode op s.pc)) ∧
  (∀ s : State, s.started = true → s.read s.pc ∈ absentOpcodes →
    step s = .fault (.invalidOpcode (s.read s.pc) s.pc) ∧
    hostStep s = (s, .fault (.invalidOpcode (s.read s.pc) s.pc)) ∧ stepAccesses s = [.read s.pc]) ∧
  (∀ (σ : Type) (bus : Bus σ) (s : State σ bus), s.started = true → s.read s.pc ∈ absentOpcodes →
    stepOver s = .fault (.invalidOpcode (s.read s.pc) s.pc) ∧
    hostStep s = (s.afterRead s.pc, .fault (.invalidOpcode (s.read s.pc) s.pc)) ∧
    stepAccesses s = [.read s.pc])

/-- There is no other exception (R302), on any bus (R56): a started machine's step succeeds if the table has
the opcode, and is the InvalidOpcode fault otherwise. -/
def Obligations.StepSucceedsExactlyOnAdmittedOpcodes : Prop :=
  (∀ s : State, s.started = true →
    (admitted s.cfg.unofficialSet (s.read s.pc) = true → ∃ t, step s = .next t) ∧
    (admitted s.cfg.unofficialSet (s.read s.pc) = false →
      step s = .fault (.invalidOpcode (s.read s.pc) s.pc))) ∧
  (∀ (σ : Type) (bus : Bus σ) (s : State σ bus), s.started = true →
    (admitted s.cfg.unofficialSet (s.read s.pc) = true → ∃ t, stepOver s = .next t) ∧
    (admitted s.cfg.unofficialSet (s.read s.pc) = false →
      stepOver s = .fault (.invalidOpcode (s.read s.pc) s.pc)))

/-- Before the first reset a step is refused, changes nothing, the bus included, makes no bus access, and
nothing can be observed (R332), on any bus. -/
def Obligations.StepBeforeResetIsRefused : Prop :=
  (∀ s : State, s.started = false →
    step s = .refused .notReset ∧ hostStep s = (s, .refused .notReset) ∧ stepAccesses s = [] ∧
    observe s = none) ∧
  (∀ (σ : Type) (bus : Bus σ) (s : State σ bus), s.started = false →
    stepOver s = .refused .notReset ∧ hostStep s = (s, .refused .notReset) ∧ stepAccesses s = [] ∧
    observe s = none)

/-- reset() (R330, R331, R333), from every state, with and without an override. -/
def Obligations.ResetSetsEveryRegister : Prop :=
  ∀ (override : Option Addr) (s t : State), resetMachine override s = t →
    t.a = 0 ∧ t.x = 0 ∧ t.y = 0 ∧ t.sp = 0xFD ∧ t.p = 0x24 ∧ t.cyc = 7 ∧
    (∀ target, override = some target → t.pc = target) ∧
    (override = none → t.pc = w16 (s.read 0xFFFD) (s.read 0xFFFC)) ∧
    t.mem = s.mem ∧ t.cfg = s.cfg ∧ t.started = true

/-- The reset state of the interface is reset() with the default parameters and no byte loaded; that no
byte is loaded is the model's choice (log entry 1). -/
def Obligations.ResetStateIsResetOfAnEmptyStore : Prop :=
  State.reset = resetMachine none (State.beforeReset Config.default [])

/-- The reset state meets the invariant. -/
def Obligations.ResetStateMeetsInvariant : Prop := State.reset.Inv

/-- Every step keeps the invariant: the store stays canonical and P.U stays 1 (R27, R55). -/
def Obligations.EveryStepKeepsInvariant : Prop :=
  ∀ s t : State, s.Inv → step s = .next t → t.Inv

/-- No step changes the parameters, which are arguments of the step, and after no step is the processor
without a state (R37). Holding both in State, as cfg and started, is the model's choice (log entries 2 and 3);
the statement says that the choice shows nowhere. On any bus as on the default mapper. -/
def Obligations.NoStepChangesTheParameters : Prop :=
  (∀ s t : State, step s = .next t → KeepsMachine s t) ∧
  (∀ (σ : Type) (bus : Bus σ) (s t : State σ bus), stepOver s = .next t → KeepsMachine s t)

/-- Every successful step adds between 2 and 8 cycles (R31, R84, R105), on any bus (R339). -/
def Obligations.EveryStepCostsTwoToEightCycles : Prop :=
  (∀ s t : State, step s = .next t → ∃ n, 2 ≤ n ∧ n ≤ 8 ∧ t.cyc = s.cyc + BitVec.ofNat 64 n) ∧
  (∀ (σ : Type) (bus : Bus σ) (s t : State σ bus), stepOver s = .next t →
    ∃ n, 2 ≤ n ∧ n ≤ 8 ∧ t.cyc = s.cyc + BitVec.ofNat 64 n)

/-- After a fault or a refusal the host meets the same one again, however often it calls step() (R301, R318). -/
def Obligations.AStoppedRunStaysStopped : Prop :=
  ∀ (n k : Nat) (s t : State) (r : StepReport), runSteps n s = (t, r) → r ≠ .ok →
    runSteps (n + k) s = (t, r) ∧ hostStep t = (t, r)

/-- A word stored where the next fetch reads runs as the very next instruction, if its opcode is admitted.
That withFetchWord stands for the load of a program is the model's choice (log entry 6, DESIGN CHOICE). -/
def Obligations.StoredWordRunsNext : Prop :=
  ∀ (s : State) (op l h : Byte), admitted s.cfg.unofficialSet op = true →
    step (s.withFetchWord 24 (op.toNat + 256 * l.toNat + 65536 * h.toNat)) =
      exec (decodeBytes op l h) (s.withFetchWord 24 (op.toNat + 256 * l.toNat + 65536 * h.toNat))

/-! ## Whole-machine rules -/

/-- Only the listed instructions write A, X, Y, SP and each flag, assign PC, or write memory (R22 to R25,
R29, R104, R118). On any bus the same holds of the processor's components (R56). -/
def Obligations.OnlyTheListedInstructionsWriteEachComponent : Prop :=
  (∀ (i : Instr) (s t : State), exec i s = .next t →
    KeepsRegsBut (writtenRegs i) s t ∧ KeepsFlagsBut (writtenFlags i) s t ∧ KeepsMachine s t ∧
    (assignsPC i = false → t.pc = s.pc + BitVec.ofNat 16 i.length) ∧
    (writesMemory i = false → t.mem = s.mem)) ∧
  (∀ (σ : Type) (bus : Bus σ) (i : Instr) (s t : State σ bus), execOver i s = .next t →
    KeepsRegsBut (writtenRegs i) s t ∧ KeepsFlagsBut (writtenFlags i) s t ∧ KeepsMachine s t ∧
    (assignsPC i = false → t.pc = s.pc + BitVec.ofNat 16 i.length))

/-- Arithmetic is binary whatever D is, and of the default model's instructions only PHP and BRK, which push P,
read D or I (R4, R29): one instruction of any other kind, executed in two states that differ in D alone or in I
alone, gives next states that differ in that flag alone at most. What PHP and BRK push is PhaAndPhpPushOneByte's
and BrkEntersThroughTheVector's to say. -/
def Obligations.NoInstructionButPhpAndBrkReadsDecimalOrInterrupt : Prop :=
  ∀ (i : Instr) (s t : State) (f : Flag) (v : Bool), f ∈ [Flag.d, Flag.i] → i ≠ .php → i ≠ .brk →
    exec i s = .next t → ∃ u, exec i (s.setFlag f v) = .next u ∧
      KeepsRegsBut [] t u ∧ KeepsFlagsBut [f] t u ∧ u.pc = t.pc ∧ u.cyc = t.cyc ∧ u.mem = t.mem ∧
      KeepsMachine t u

/-- No instruction reads CYC: with another count before the step, the next state is the same but for a
count shifted by the same amount (R31, R338). -/
def Obligations.NoResultDependsOnTheCycleCounter : Prop :=
  ∀ (s : State) (c : Cycles),
    step { s with cyc := s.cyc + c } =
      match step s with
      | .next t => .next { t with cyc := t.cyc + c }
      | .fault f => .fault f
      | .refused r => .refused r

/-- The core reaches the bus only through the reads and writes of its access lists, on any bus (R50, R56,
R61, R62). The bus is left by a call of step(), whatever its outcome, and by reset() as those accesses in their
order leave it; on the default mapper, where reads do nothing, the writes are all that change the store. And two
machines that agree in all but the bus, on two buses whose reads give the same bytes, stay so: a step is a
function of the processor's state and of the bytes the bus returns, and never uses the video channel (R51). -/
def Obligations.StepAndResetSeeTheBusOnlyThroughTheirAccesses : Prop :=
  (∀ (σ : Type) (bus : Bus σ) (override : Option Addr) (s : State σ bus),
    (hostStep s).1.mem = replay bus (stepAccesses s) s.mem ∧
    (resetMachine override s).mem = replay bus (resetAccesses override) s.mem) ∧
  (∀ s t : State, step s = .next t → t.mem = replay defaultMapper (stepAccesses s) s.mem) ∧
  (∀ (σ τ : Type) (bus : Bus σ) (bus' : Bus τ) (R : σ → τ → Prop), BusesAgree bus bus' R →
    ∀ (s : State σ bus) (t : State τ bus'), SameProcessor s t → R s.mem t.mem →
      (hostStep t).2 = (hostStep s).2 ∧ SameProcessor (hostStep s).1 (hostStep t).1 ∧
      R (hostStep s).1.mem (hostStep t).1.mem ∧ stepAccesses t = stepAccesses s ∧
      ∀ override : Option Addr, SameProcessor (resetMachine override s) (resetMachine override t) ∧
        R (resetMachine override s).mem (resetMachine override t).mem)

/-! ## Memory -/

/-- The default mapper (R54, R55): the cell of each address, reads after writes, and the video channel. -/
def Obligations.DefaultMapperMirrorsAndStores : Prop :=
  (∀ a : Addr, (a.toNat < 0x2000 → cellOf a = a.toNat % 0x800) ∧
    (0x2000 ≤ a.toNat → a.toNat < 0x4000 → cellOf a = 0x2000 + a.toNat % 8) ∧
    (0x4000 ≤ a.toNat → cellOf a = a.toNat)) ∧
  (∀ (m : Memory) (a b : Addr) (v : Byte),
    (defaultMapper.read (defaultMapper.write m a v) b).1 =
      (if cellOf b = cellOf a then v else (defaultMapper.read m b).1) ∧
    (defaultMapper.read m a).2 = m ∧
    defaultMapper.videoRead m a = (0, m) ∧ defaultMapper.videoWrite m a v = m)

/-- In canonical form, two stores that read the same at every address are equal. -/
def Obligations.CanonicalStoresAreDeterminedByReads : Prop :=
  ∀ m n : Memory, m.wf = true → n.wf = true →
    (∀ a : Addr, (defaultMapper.read m a).1 = (defaultMapper.read n a).1) → m = n

/-! ## Interrupt injection -/

/-- The optional injection (R305, R306): absent by default (R9); when set, NMI first, then IRQ if I = 0; the
entry pushes PC and P with bit 4 clear, sets I, and loads PC from the vector in 7 cycles. That it is a move of
the host between steps, which says whether an NMI edge and an IRQ level are there, with nothing pending in the
machine, is the model's deduction (log entry 10, DEDUCED). -/
def Obligations.InterruptInjectionFollowsItsContract : Prop :=
  Config.default.interruptInjection = false ∧
  (∀ (nmi irq : Bool) (s : State), s.cfg.interruptInjection = false → injectInterrupt nmi irq s = none) ∧
  (∀ (nmi irq : Bool) (s : State), s.cfg.interruptInjection = true → s.started = true →
    injectInterrupt nmi irq s =
      if nmi = true then some (interruptEntry .nmi s)
      else if irq = true ∧ s.flag .i = false then some (interruptEntry .irq s) else none) ∧
  (∀ (k : Interrupt) (s t : State), interruptEntry k s = t →
    t.read (stackAddr (s.sp - 2)) = (s.p &&& 0xEF) ||| 0x20 ∧
    (s.cfg.stackWordOrder = .highFirst →
      t.read (stackAddr s.sp) = hi8 s.pc ∧ t.read (stackAddr (s.sp - 1)) = lo8 s.pc) ∧
    (s.cfg.stackWordOrder = .lowFirst →
      t.read (stackAddr s.sp) = lo8 s.pc ∧ t.read (stackAddr (s.sp - 1)) = hi8 s.pc) ∧
    t.flag .i = true ∧ KeepsFlagsBut [.i] s t ∧ t.sp = s.sp - 3 ∧ KeepsRegsBut [.sp] s t ∧
    t.pc = (match k with
      | .nmi => w16 (s.read 0xFFFB) (s.read 0xFFFA)
      | .irq => w16 (s.read 0xFFFF) (s.read 0xFFFE)) ∧
    t.cyc = s.cyc + 7 ∧ KeepsMachine s t ∧
    KeepsMemoryBut [stackAddr s.sp, stackAddr (s.sp - 1), stackAddr (s.sp - 2)] s t)
end

