-- ==== Sys2Proof/Laws/State.lean ====
section
/-! SUPPORT. One lemma per field per update of State: what the primitive updates leave alone, and what they set. -/

namespace Sys2Proof.Machine

variable {σ : Type} {bus : Bus σ}

/-! setFlag writes P alone. -/

@[simp] theorem setFlag_a (s : State σ bus) (f : Flag) (v : Bool) : (s.setFlag f v).a = s.a := rfl
@[simp] theorem setFlag_x (s : State σ bus) (f : Flag) (v : Bool) : (s.setFlag f v).x = s.x := rfl
@[simp] theorem setFlag_y (s : State σ bus) (f : Flag) (v : Bool) : (s.setFlag f v).y = s.y := rfl
@[simp] theorem setFlag_sp (s : State σ bus) (f : Flag) (v : Bool) : (s.setFlag f v).sp = s.sp := rfl
@[simp] theorem setFlag_pc (s : State σ bus) (f : Flag) (v : Bool) : (s.setFlag f v).pc = s.pc := rfl
@[simp] theorem setFlag_cyc (s : State σ bus) (f : Flag) (v : Bool) : (s.setFlag f v).cyc = s.cyc := rfl
@[simp] theorem setFlag_mem (s : State σ bus) (f : Flag) (v : Bool) : (s.setFlag f v).mem = s.mem := rfl
@[simp] theorem setFlag_started (s : State σ bus) (f : Flag) (v : Bool) : (s.setFlag f v).started = s.started := rfl
@[simp] theorem setFlag_cfg (s : State σ bus) (f : Flag) (v : Bool) : (s.setFlag f v).cfg = s.cfg := rfl
@[simp] theorem setFlag_read (s : State σ bus) (f : Flag) (v : Bool) (b : Addr) : (s.setFlag f v).read b = s.read b := rfl

/-! setZN writes P alone. -/

@[simp] theorem setZN_a (v : Byte) (s : State σ bus) : (setZN v s).a = s.a := rfl
@[simp] theorem setZN_x (v : Byte) (s : State σ bus) : (setZN v s).x = s.x := rfl
@[simp] theorem setZN_y (v : Byte) (s : State σ bus) : (setZN v s).y = s.y := rfl
@[simp] theorem setZN_sp (v : Byte) (s : State σ bus) : (setZN v s).sp = s.sp := rfl
@[simp] theorem setZN_pc (v : Byte) (s : State σ bus) : (setZN v s).pc = s.pc := rfl
@[simp] theorem setZN_cyc (v : Byte) (s : State σ bus) : (setZN v s).cyc = s.cyc := rfl
@[simp] theorem setZN_mem (v : Byte) (s : State σ bus) : (setZN v s).mem = s.mem := rfl
@[simp] theorem setZN_started (v : Byte) (s : State σ bus) : (setZN v s).started = s.started := rfl
@[simp] theorem setZN_cfg (v : Byte) (s : State σ bus) : (setZN v s).cfg = s.cfg := rfl
@[simp] theorem setZN_read (v : Byte) (s : State σ bus) (b : Addr) : (setZN v s).read b = s.read b := rfl

/-! write writes the bus alone. -/

@[simp] theorem write_a (s : State σ bus) (a : Addr) (v : Byte) : (s.write a v).a = s.a := rfl
@[simp] theorem write_x (s : State σ bus) (a : Addr) (v : Byte) : (s.write a v).x = s.x := rfl
@[simp] theorem write_y (s : State σ bus) (a : Addr) (v : Byte) : (s.write a v).y = s.y := rfl
@[simp] theorem write_sp (s : State σ bus) (a : Addr) (v : Byte) : (s.write a v).sp = s.sp := rfl
@[simp] theorem write_pc (s : State σ bus) (a : Addr) (v : Byte) : (s.write a v).pc = s.pc := rfl
@[simp] theorem write_p (s : State σ bus) (a : Addr) (v : Byte) : (s.write a v).p = s.p := rfl
@[simp] theorem write_cyc (s : State σ bus) (a : Addr) (v : Byte) : (s.write a v).cyc = s.cyc := rfl
@[simp] theorem write_started (s : State σ bus) (a : Addr) (v : Byte) : (s.write a v).started = s.started := rfl
@[simp] theorem write_cfg (s : State σ bus) (a : Addr) (v : Byte) : (s.write a v).cfg = s.cfg := rfl
@[simp] theorem write_flag (s : State σ bus) (a : Addr) (v : Byte) (g : Flag) : (s.write a v).flag g = s.flag g := rfl

/-! afterRead moves the bus alone, and on the default mapper nothing (R55, R62). -/

@[simp] theorem afterRead_a (s : State σ bus) (a : Addr) : (s.afterRead a).a = s.a := rfl
@[simp] theorem afterRead_x (s : State σ bus) (a : Addr) : (s.afterRead a).x = s.x := rfl
@[simp] theorem afterRead_y (s : State σ bus) (a : Addr) : (s.afterRead a).y = s.y := rfl
@[simp] theorem afterRead_sp (s : State σ bus) (a : Addr) : (s.afterRead a).sp = s.sp := rfl
@[simp] theorem afterRead_pc (s : State σ bus) (a : Addr) : (s.afterRead a).pc = s.pc := rfl
@[simp] theorem afterRead_p (s : State σ bus) (a : Addr) : (s.afterRead a).p = s.p := rfl
@[simp] theorem afterRead_cyc (s : State σ bus) (a : Addr) : (s.afterRead a).cyc = s.cyc := rfl
@[simp] theorem afterRead_started (s : State σ bus) (a : Addr) : (s.afterRead a).started = s.started := rfl
@[simp] theorem afterRead_cfg (s : State σ bus) (a : Addr) : (s.afterRead a).cfg = s.cfg := rfl
@[simp] theorem afterRead_flag (s : State σ bus) (a : Addr) (g : Flag) : (s.afterRead a).flag g = s.flag g := rfl
@[simp] theorem afterRead_mem (s : State σ bus) (a : Addr) : (s.afterRead a).mem = (bus.read s.mem a).2 := rfl
@[simp] theorem afterRead_default (s : State) (a : Addr) : s.afterRead a = s := rfl
@[simp] theorem write_mem (s : State σ bus) (a : Addr) (v : Byte) : (s.write a v).mem = bus.write s.mem a v := rfl

/-! push writes the bus and SP. -/

@[simp] theorem push_a (v : Byte) (s : State σ bus) : (push v s).a = s.a := rfl
@[simp] theorem push_x (v : Byte) (s : State σ bus) : (push v s).x = s.x := rfl
@[simp] theorem push_y (v : Byte) (s : State σ bus) : (push v s).y = s.y := rfl
@[simp] theorem push_pc (v : Byte) (s : State σ bus) : (push v s).pc = s.pc := rfl
@[simp] theorem push_p (v : Byte) (s : State σ bus) : (push v s).p = s.p := rfl
@[simp] theorem push_cyc (v : Byte) (s : State σ bus) : (push v s).cyc = s.cyc := rfl
@[simp] theorem push_started (v : Byte) (s : State σ bus) : (push v s).started = s.started := rfl
@[simp] theorem push_cfg (v : Byte) (s : State σ bus) : (push v s).cfg = s.cfg := rfl
@[simp] theorem push_flag (v : Byte) (s : State σ bus) (g : Flag) : (push v s).flag g = s.flag g := rfl

@[simp] theorem push_sp (v : Byte) (s : State σ bus) : (push v s).sp = s.sp - 1 := rfl

/-! pull moves SP, and reads the bus. -/

@[simp] theorem pull_a (s : State σ bus) : ((pull s).2).a = s.a := rfl
@[simp] theorem pull_x (s : State σ bus) : ((pull s).2).x = s.x := rfl
@[simp] theorem pull_y (s : State σ bus) : ((pull s).2).y = s.y := rfl
@[simp] theorem pull_pc (s : State σ bus) : ((pull s).2).pc = s.pc := rfl
@[simp] theorem pull_p (s : State σ bus) : ((pull s).2).p = s.p := rfl
@[simp] theorem pull_cyc (s : State σ bus) : ((pull s).2).cyc = s.cyc := rfl
@[simp] theorem pull_mem (s : State) : ((pull s).2).mem = s.mem := rfl
@[simp] theorem pull_started (s : State σ bus) : ((pull s).2).started = s.started := rfl
@[simp] theorem pull_cfg (s : State σ bus) : ((pull s).2).cfg = s.cfg := rfl
@[simp] theorem pull_flag (s : State σ bus) (g : Flag) : ((pull s).2).flag g = s.flag g := rfl
@[simp] theorem pull_read (s : State) (b : Addr) : ((pull s).2).read b = s.read b := rfl

@[simp] theorem pull_sp (s : State σ bus) : (pull s).2.sp = s.sp + 1 := rfl
@[simp] theorem pull_value (s : State σ bus) : (pull s).1 = s.read (stackAddr (s.sp + 1)) := rfl

/-! pull16 moves SP, and reads the bus. -/

@[simp] theorem pull16_a (s : State σ bus) : ((pull16 s).2).a = s.a := rfl
@[simp] theorem pull16_x (s : State σ bus) : ((pull16 s).2).x = s.x := rfl
@[simp] theorem pull16_y (s : State σ bus) : ((pull16 s).2).y = s.y := rfl
@[simp] theorem pull16_pc (s : State σ bus) : ((pull16 s).2).pc = s.pc := rfl
@[simp] theorem pull16_p (s : State σ bus) : ((pull16 s).2).p = s.p := rfl
@[simp] theorem pull16_cyc (s : State σ bus) : ((pull16 s).2).cyc = s.cyc := rfl
@[simp] theorem pull16_mem (s : State) : ((pull16 s).2).mem = s.mem := rfl
@[simp] theorem pull16_started (s : State σ bus) : ((pull16 s).2).started = s.started := rfl
@[simp] theorem pull16_cfg (s : State σ bus) : ((pull16 s).2).cfg = s.cfg := rfl
@[simp] theorem pull16_flag (s : State σ bus) (g : Flag) : ((pull16 s).2).flag g = s.flag g := rfl
@[simp] theorem pull16_read (s : State) (b : Addr) : ((pull16 s).2).read b = s.read b := rfl
@[simp] theorem pull16_sp (s : State σ bus) : (pull16 s).2.sp = s.sp + 1 + 1 := rfl

/-! addCycles writes CYC alone. -/

@[simp] theorem addCycles_a (n : Nat) (s : State σ bus) : (addCycles n s).a = s.a := rfl
@[simp] theorem addCycles_x (n : Nat) (s : State σ bus) : (addCycles n s).x = s.x := rfl
@[simp] theorem addCycles_y (n : Nat) (s : State σ bus) : (addCycles n s).y = s.y := rfl
@[simp] theorem addCycles_sp (n : Nat) (s : State σ bus) : (addCycles n s).sp = s.sp := rfl
@[simp] theorem addCycles_pc (n : Nat) (s : State σ bus) : (addCycles n s).pc = s.pc := rfl
@[simp] theorem addCycles_p (n : Nat) (s : State σ bus) : (addCycles n s).p = s.p := rfl
@[simp] theorem addCycles_mem (n : Nat) (s : State σ bus) : (addCycles n s).mem = s.mem := rfl
@[simp] theorem addCycles_started (n : Nat) (s : State σ bus) : (addCycles n s).started = s.started := rfl
@[simp] theorem addCycles_cfg (n : Nat) (s : State σ bus) : (addCycles n s).cfg = s.cfg := rfl
@[simp] theorem addCycles_flag (n : Nat) (s : State σ bus) (g : Flag) : (addCycles n s).flag g = s.flag g := rfl
@[simp] theorem addCycles_read (n : Nat) (s : State σ bus) (b : Addr) : (addCycles n s).read b = s.read b := rfl

@[simp] theorem addCycles_cyc (n : Nat) (s : State σ bus) : (addCycles n s).cyc = s.cyc + BitVec.ofNat 64 n := rfl

/-! finish writes PC and CYC; finishAt writes CYC. -/

@[simp] theorem finish_a (i : Instr) (c : Bool) (s : State σ bus) : (finish i c s).a = s.a := rfl
@[simp] theorem finish_x (i : Instr) (c : Bool) (s : State σ bus) : (finish i c s).x = s.x := rfl
@[simp] theorem finish_y (i : Instr) (c : Bool) (s : State σ bus) : (finish i c s).y = s.y := rfl
@[simp] theorem finish_sp (i : Instr) (c : Bool) (s : State σ bus) : (finish i c s).sp = s.sp := rfl
@[simp] theorem finish_p (i : Instr) (c : Bool) (s : State σ bus) : (finish i c s).p = s.p := rfl
@[simp] theorem finish_mem (i : Instr) (c : Bool) (s : State σ bus) : (finish i c s).mem = s.mem := rfl
@[simp] theorem finish_started (i : Instr) (c : Bool) (s : State σ bus) : (finish i c s).started = s.started := rfl
@[simp] theorem finish_cfg (i : Instr) (c : Bool) (s : State σ bus) : (finish i c s).cfg = s.cfg := rfl
@[simp] theorem finish_flag (i : Instr) (c : Bool) (s : State σ bus) (g : Flag) : (finish i c s).flag g = s.flag g := rfl
@[simp] theorem finish_read (i : Instr) (c : Bool) (s : State σ bus) (b : Addr) : (finish i c s).read b = s.read b := rfl

@[simp] theorem finish_pc (i : Instr) (c : Bool) (s : State σ bus) :
    (finish i c s).pc = s.pc + BitVec.ofNat 16 i.length := rfl
@[simp] theorem finish_cyc (i : Instr) (c : Bool) (s : State σ bus) :
    (finish i c s).cyc = s.cyc + BitVec.ofNat 64 (cycles i c) := rfl

@[simp] theorem finishAt_a (i : Instr) (s : State σ bus) : (finishAt i s).a = s.a := rfl
@[simp] theorem finishAt_x (i : Instr) (s : State σ bus) : (finishAt i s).x = s.x := rfl
@[simp] theorem finishAt_y (i : Instr) (s : State σ bus) : (finishAt i s).y = s.y := rfl
@[simp] theorem finishAt_sp (i : Instr) (s : State σ bus) : (finishAt i s).sp = s.sp := rfl
@[simp] theorem finishAt_pc (i : Instr) (s : State σ bus) : (finishAt i s).pc = s.pc := rfl
@[simp] theorem finishAt_p (i : Instr) (s : State σ bus) : (finishAt i s).p = s.p := rfl
@[simp] theorem finishAt_mem (i : Instr) (s : State σ bus) : (finishAt i s).mem = s.mem := rfl
@[simp] theorem finishAt_started (i : Instr) (s : State σ bus) : (finishAt i s).started = s.started := rfl
@[simp] theorem finishAt_cfg (i : Instr) (s : State σ bus) : (finishAt i s).cfg = s.cfg := rfl
@[simp] theorem finishAt_flag (i : Instr) (s : State σ bus) (g : Flag) : (finishAt i s).flag g = s.flag g := rfl
@[simp] theorem finishAt_read (i : Instr) (s : State σ bus) (b : Addr) : (finishAt i s).read b = s.read b := rfl

@[simp] theorem finishAt_cyc (i : Instr) (s : State σ bus) :
    (finishAt i s).cyc = s.cyc + BitVec.ofNat 64 (cycles i false) := rfl

/-! The accessor by register name. -/

@[simp] theorem reg_a (s : State σ bus) : s.reg .a = s.a := rfl
@[simp] theorem reg_x (s : State σ bus) : s.reg .x = s.x := rfl
@[simp] theorem reg_y (s : State σ bus) : s.reg .y = s.y := rfl
@[simp] theorem reg_sp (s : State σ bus) : s.reg .sp = s.sp := rfl

/-! Reads and flags look at the store and at P alone. -/

theorem read_congr (s t : State σ bus) (h : s.mem = t.mem) (b : Addr) : s.read b = t.read b := by
  simp [State.read, h]

theorem flag_congr (s t : State σ bus) (h : s.p = t.p) (g : Flag) : s.flag g = t.flag g := by
  simp [State.flag, h]

end Sys2Proof.Machine
end

