-- ==== Sys2Proof/Laws/Flags.lean ====
section
/-! SUPPORT. What each flag computation leaves in P: the flag algebra is read after write, bit by bit. -/

namespace Sys2Proof.Machine

variable {σ : Type} {bus : Bus σ}

theorem getFlag_putFlag (f g : Flag) (b : Bool) (p : Byte) :
    getFlag g (putFlag f b p) = if g = f then b else getFlag g p := by
  cases f <;> cases g <;> cases b <;> simp [getFlag, putFlag, Flag.mask, Flag.index]

@[simp] theorem setFlag_flag (s : State σ bus) (f : Flag) (b : Bool) (g : Flag) :
    (s.setFlag f b).flag g = if g = f then b else s.flag g := getFlag_putFlag f g b s.p

@[simp] theorem setZN_flag (v : Byte) (s : State σ bus) (g : Flag) :
    (setZN v s).flag g = if g = .n then v.msb else if g = .z then v == 0 else s.flag g := by
  simp [setZN]

theorem byte_beq_zero (v : Byte) : (v == 0) = decide (v.toNat = 0) := by
  rw [Bool.eq_iff_iff]
  simp [BitVec.toNat_eq]

theorem byte_msb (v : Byte) : v.msb = decide (128 ≤ v.toNat) := by
  simp [BitVec.msb_eq_decide]

/-- set_ZN shows Z and N of its value (R28). -/
theorem setZN_showsZN (v : Byte) (s : State σ bus) : ShowsZN v (setZN v s) := by
  constructor
  · rw [setZN_flag]; simpa using byte_beq_zero v
  · rw [setZN_flag]; simp [byte_msb]

/-- Two status bytes with the same eight flags are equal. -/
theorem status_ext (p q : Byte) (h : ∀ f, getFlag f p = getFlag f q) : p = q := by
  apply BitVec.eq_of_getLsbD_eq
  intro k hk
  have hc := h .c; have hz := h .z; have hi := h .i; have hd := h .d
  have hb := h .b; have hu := h .u; have hv := h .v; have hn := h .n
  simp only [getFlag, Flag.index] at hc hz hi hd hb hu hv hn
  match k, hk with
  | 0, _ => exact hc
  | 1, _ => exact hz
  | 2, _ => exact hi
  | 3, _ => exact hd
  | 4, _ => exact hb
  | 5, _ => exact hu
  | 6, _ => exact hv
  | 7, _ => exact hn

/-- A status byte pulled from the stack (R203): six flags from the byte, U = 1, B by the policy. -/
theorem restoreStatus_flag (v : Byte) (s : State σ bus) (g : Flag) :
    (restoreStatus v s).flag g =
      match g with
      | .u => true
      | .b => (match s.cfg.pullBPolicy with | .clear => false | .keep => s.flag .b)
      | g => getFlag g v := by
  cases h : s.cfg.pullBPolicy <;> cases g <;> simp [restoreStatus, State.flag, getFlag, Flag.index, h]

/-- The pushed status byte (R202). -/
theorem pushedStatus_flag (p : Byte) (g : Flag) :
    getFlag g (pushedStatus p) = (g == .b || g == .u || getFlag g p) := by
  cases g <;> simp [getFlag, pushedStatus, Flag.index]

end Sys2Proof.Machine
end

