-- ==== Sys2Proof/Laws/Memory.lean ====
section
/-! SUPPORT. The store: read after write, and the canonical form that every write keeps (20_memory.md R55, R63). -/

namespace Sys2Proof.Machine

theorem readCell_eraseCell (m : Memory) (c d : Nat) :
    (m.eraseCell c).readCell d = if d = c then unlistedByte else m.readCell d := by
  induction m with
  | nil => simp [Memory.eraseCell, Memory.readCell]
  | cons e rest ih =>
    obtain ⟨k, w⟩ := e
    simp only [Memory.eraseCell] at ih
    by_cases hk : k = c
    · subst hk
      by_cases hd : d = k
      · subst hd; simpa [Memory.eraseCell, Memory.readCell] using ih
      · have : k ≠ d := fun h => hd h.symm
        simpa [Memory.eraseCell, Memory.readCell, hd, this] using ih
    · by_cases hd : k = d
      · subst hd; simp [Memory.eraseCell, Memory.readCell, hk]
      · simpa [Memory.eraseCell, Memory.readCell, hk, hd] using ih

theorem readCell_insertCell (m : Memory) (c d : Nat) (v : Byte) (h : m.readCell c = unlistedByte)
    (hc : ∀ e ∈ m, e.1 ≠ c) : (m.insertCell c v).readCell d = if d = c then v else m.readCell d := by
  induction m with
  | nil =>
    by_cases hd : d = c
    · simp [Memory.insertCell, Memory.readCell, hd]
    · have : c ≠ d := fun h => hd h.symm
      simp [Memory.insertCell, Memory.readCell, hd, this]
  | cons e rest ih =>
    obtain ⟨k, w⟩ := e
    have hk : k ≠ c := hc (k, w) (by simp)
    have hrest : ∀ e ∈ rest, e.1 ≠ c := fun e he => hc e (by simp [he])
    have h' : Memory.readCell rest c = unlistedByte := by simpa [Memory.readCell, hk] using h
    by_cases hlt : c < k
    · by_cases hd : d = c
      · simp [Memory.insertCell, Memory.readCell, hlt, hd]
      · have : c ≠ d := fun h => hd h.symm
        simp [Memory.insertCell, Memory.readCell, hlt, hd, this]
    · by_cases hd : k = d
      · subst hd
        simp [Memory.insertCell, Memory.readCell, hlt, hk]
      · simp [Memory.insertCell, Memory.readCell, hlt, hd, ih h' hrest]

theorem eraseCell_no_entry (m : Memory) (c : Nat) : ∀ e ∈ m.eraseCell c, e.1 ≠ c := by
  intro e he
  simpa using (List.mem_filter.mp he).2

/-- A read after a write of the store, for every store. -/
theorem readCell_writeCell (m : Memory) (c d : Nat) (v : Byte) :
    (m.writeCell c v).readCell d = if d = c then v else m.readCell d := by
  unfold Memory.writeCell
  by_cases hv : v = unlistedByte
  · simp [hv, readCell_eraseCell]
  · rw [if_neg hv, readCell_insertCell _ _ _ _ (by simp [readCell_eraseCell]) (eraseCell_no_entry m c),
      readCell_eraseCell]
    by_cases hd : d = c <;> simp [hd]

/-- A read after a write on the bus (R55, R63). -/
theorem write_read (s : State) (a b : Addr) (v : Byte) :
    (s.write a v).read b = if cellOf b = cellOf a then v else s.read b :=
  readCell_writeCell s.mem (cellOf a) (cellOf b) v

theorem wfFrom_mono (m : Memory) (lo lo' : Nat) (h : lo' ≤ lo) (hm : Memory.wfFrom lo m = true) :
    Memory.wfFrom lo' m = true := by
  cases m with
  | nil => rfl
  | cons e rest =>
    obtain ⟨k, w⟩ := e
    simp only [Memory.wfFrom, Bool.and_eq_true, decide_eq_true_eq] at hm ⊢
    exact ⟨⟨⟨h.trans hm.1.1.1, hm.1.1.2⟩, hm.1.2⟩, hm.2⟩

theorem wfFrom_eraseCell (m : Memory) (lo c : Nat) (hm : Memory.wfFrom lo m = true) :
    Memory.wfFrom lo (m.eraseCell c) = true := by
  induction m generalizing lo with
  | nil => rfl
  | cons e rest ih =>
    obtain ⟨k, w⟩ := e
    simp only [Memory.wfFrom, Bool.and_eq_true, decide_eq_true_eq] at hm
    have hr := ih (k + 1) hm.2
    simp only [Memory.eraseCell] at hr
    by_cases hk : k = c
    · simpa [Memory.eraseCell, hk] using wfFrom_mono _ _ _ (by omega) (hk ▸ hr)
    · simp only [Memory.eraseCell, List.filter_cons, bne_iff_ne, ne_eq, hk, not_false_eq_true, if_true]
      simp only [Memory.wfFrom, Bool.and_eq_true, decide_eq_true_eq]
      exact ⟨hm.1, hr⟩

theorem wfFrom_insertCell (m : Memory) (lo c : Nat) (v : Byte) (hlo : lo ≤ c) (hc : isCell c = true)
    (hv : v ≠ unlistedByte) (hm : Memory.wfFrom lo m = true) (hno : ∀ e ∈ m, e.1 ≠ c) :
    Memory.wfFrom lo (m.insertCell c v) = true := by
  induction m generalizing lo with
  | nil => simp [Memory.insertCell, Memory.wfFrom, hlo, hc, hv]
  | cons e rest ih =>
    obtain ⟨k, w⟩ := e
    have hk : k ≠ c := hno (k, w) (by simp)
    have hrest : ∀ e ∈ rest, e.1 ≠ c := fun e he => hno e (by simp [he])
    simp only [Memory.wfFrom, Bool.and_eq_true, decide_eq_true_eq] at hm
    by_cases hlt : c < k
    · simp only [Memory.insertCell, hlt, if_true, Memory.wfFrom, Bool.and_eq_true, decide_eq_true_eq]
      exact ⟨⟨⟨hlo, hc⟩, by simpa using hv⟩, ⟨⟨by omega, hm.1.1.2⟩, hm.1.2⟩, hm.2⟩
    · simp only [Memory.insertCell, hlt, if_false, Memory.wfFrom, Bool.and_eq_true, decide_eq_true_eq]
      exact ⟨hm.1, ih (k + 1) (by omega) hm.2 hrest⟩

theorem isCell_cellOf (a : Addr) : isCell (cellOf a) = true := by
  have ha := a.isLt
  unfold cellOf isCell
  split
  · have := Nat.mod_lt a.toNat (show 0x800 > 0 by decide)
    simp; omega
  · split
    · have := Nat.mod_lt a.toNat (show 8 > 0 by decide)
      simp; omega
    · simp; omega

/-- Every write to a cell keeps the canonical form. -/
theorem wf_writeCell (m : Memory) (c : Nat) (v : Byte) (hc : isCell c = true) (hm : m.wf = true) :
    (m.writeCell c v).wf = true := by
  unfold Memory.wf Memory.writeCell at *
  by_cases hv : v = unlistedByte
  · simpa [hv] using wfFrom_eraseCell m 0 c hm
  · simpa [hv] using
      wfFrom_insertCell _ 0 c v (Nat.zero_le c) hc hv (wfFrom_eraseCell m 0 c hm) (eraseCell_no_entry m c)

/-- Every write on the bus keeps the canonical form. -/
theorem wf_write (s : State) (a : Addr) (v : Byte) (h : s.mem.wf = true) : (s.write a v).mem.wf = true :=
  wf_writeCell s.mem (cellOf a) v (isCell_cellOf a) h

/-- The mapper's cell below 0x2000 (R54). -/
theorem cellOf_ram (a : Addr) (h : a.toNat < 0x2000) : cellOf a = a.toNat % 0x800 := by
  simp [cellOf, h]

/-- The mapper's cell in the register block (R54). -/
theorem cellOf_registers (a : Addr) (h : 0x2000 ≤ a.toNat) (h' : a.toNat < 0x4000) :
    cellOf a = 0x2000 + a.toNat % 8 := by
  have : ¬ a.toNat < 0x2000 := by omega
  simp [cellOf, this, h']

/-- The mapper's cell from 0x4000 on (R54). -/
theorem cellOf_high (a : Addr) (h : 0x4000 ≤ a.toNat) : cellOf a = a.toNat := by
  have h1 : ¬ a.toNat < 0x2000 := by omega
  have h2 : ¬ a.toNat < 0x4000 := by omega
  simp [cellOf, h1, h2]

end Sys2Proof.Machine
end

