-- ==== Sys2Proof/Laws/Reads.lean ====
section
/-! SUPPORT. Reads on any bus (20_memory.md R50, R62): whatever is read, and in whatever order, only the bus moves. -/

namespace Sys2Proof.Machine

variable {σ : Type} {bus : Bus σ}

/-- The two states differ in the bus alone. -/
def OnlyBusMoves (s t : State σ bus) : Prop := t = { s with mem := t.mem }

theorem OnlyBusMoves.a {s t : State σ bus} (h : OnlyBusMoves s t) : t.a = s.a := by
  unfold OnlyBusMoves at h
  rw [h]
theorem OnlyBusMoves.x {s t : State σ bus} (h : OnlyBusMoves s t) : t.x = s.x := by
  unfold OnlyBusMoves at h
  rw [h]
theorem OnlyBusMoves.y {s t : State σ bus} (h : OnlyBusMoves s t) : t.y = s.y := by
  unfold OnlyBusMoves at h
  rw [h]
theorem OnlyBusMoves.sp {s t : State σ bus} (h : OnlyBusMoves s t) : t.sp = s.sp := by
  unfold OnlyBusMoves at h
  rw [h]
theorem OnlyBusMoves.pc {s t : State σ bus} (h : OnlyBusMoves s t) : t.pc = s.pc := by
  unfold OnlyBusMoves at h
  rw [h]
theorem OnlyBusMoves.p {s t : State σ bus} (h : OnlyBusMoves s t) : t.p = s.p := by
  unfold OnlyBusMoves at h
  rw [h]
theorem OnlyBusMoves.cyc {s t : State σ bus} (h : OnlyBusMoves s t) : t.cyc = s.cyc := by
  unfold OnlyBusMoves at h
  rw [h]
theorem OnlyBusMoves.started {s t : State σ bus} (h : OnlyBusMoves s t) : t.started = s.started := by
  unfold OnlyBusMoves at h
  rw [h]
theorem OnlyBusMoves.cfg {s t : State σ bus} (h : OnlyBusMoves s t) : t.cfg = s.cfg := by
  unfold OnlyBusMoves at h
  rw [h]

theorem OnlyBusMoves.trans {s t u : State σ bus} (h : OnlyBusMoves s t) (k : OnlyBusMoves t u) :
    OnlyBusMoves s u := by
  unfold OnlyBusMoves at *
  rw [h] at k
  exact k

theorem onlyBusMoves_refl (s : State σ bus) : OnlyBusMoves s s := rfl

theorem onlyBusMoves_afterRead (s : State σ bus) (a : Addr) : OnlyBusMoves s (s.afterRead a) := rfl

theorem onlyBusMoves_afterRead16 (s : State σ bus) (a : Addr) : OnlyBusMoves s (s.afterRead16 a) := rfl

theorem onlyBusMoves_afterZpRead16 (s : State σ bus) (p : Byte) : OnlyBusMoves s (s.afterZpRead16 p) := rfl

theorem onlyBusMoves_afterReads (n : Nat) (a : Addr) (s : State σ bus) : OnlyBusMoves s (s.afterReads n a) := by
  induction n generalizing a s with
  | zero => rfl
  | succ n ih => exact (onlyBusMoves_afterRead s a).trans (ih (a + 1) (s.afterRead a))

theorem onlyBusMoves_afterPointer (m : MemRef) (s : State σ bus) : OnlyBusMoves s (afterPointer m s) := by
  cases m <;> rfl

theorem onlyBusMoves_afterMem (m : MemRef) (s : State σ bus) : OnlyBusMoves s (afterMem m s) :=
  (onlyBusMoves_afterPointer m s).trans (onlyBusMoves_afterRead _ _)

theorem onlyBusMoves_afterOperand (o : Operand) (s : State σ bus) : OnlyBusMoves s (afterOperand o s) := by
  cases o
  · rfl
  · exact onlyBusMoves_afterMem _ s

theorem onlyBusMoves_afterDiscardedOperand (m : MemRef) (s : State σ bus) :
    OnlyBusMoves s (afterDiscardedOperand m s) := by
  unfold afterDiscardedOperand
  split
  · exact onlyBusMoves_afterMem m s
  · exact onlyBusMoves_afterPointer m s

theorem onlyBusMoves_afterIndirect (l h : Byte) (s : State σ bus) : OnlyBusMoves s (afterIndirect l h s) := rfl

theorem onlyBusMoves_afterFetch (s : State σ bus) : OnlyBusMoves s (afterFetch s) := onlyBusMoves_afterReads _ _ s

theorem onlyBusMoves_afterVector (o : Option Addr) (s : State σ bus) : OnlyBusMoves s (afterVector o s) := by
  cases o <;> rfl

/-! The fields of each, one by one. -/

@[simp] theorem afterRead16_a (s : State σ bus) (a : Addr) : (s.afterRead16 a).a = s.a :=
  (onlyBusMoves_afterRead16 s a).a
@[simp] theorem afterRead16_x (s : State σ bus) (a : Addr) : (s.afterRead16 a).x = s.x :=
  (onlyBusMoves_afterRead16 s a).x
@[simp] theorem afterRead16_y (s : State σ bus) (a : Addr) : (s.afterRead16 a).y = s.y :=
  (onlyBusMoves_afterRead16 s a).y
@[simp] theorem afterRead16_sp (s : State σ bus) (a : Addr) : (s.afterRead16 a).sp = s.sp :=
  (onlyBusMoves_afterRead16 s a).sp
@[simp] theorem afterRead16_pc (s : State σ bus) (a : Addr) : (s.afterRead16 a).pc = s.pc :=
  (onlyBusMoves_afterRead16 s a).pc
@[simp] theorem afterRead16_p (s : State σ bus) (a : Addr) : (s.afterRead16 a).p = s.p :=
  (onlyBusMoves_afterRead16 s a).p
@[simp] theorem afterRead16_cyc (s : State σ bus) (a : Addr) : (s.afterRead16 a).cyc = s.cyc :=
  (onlyBusMoves_afterRead16 s a).cyc
@[simp] theorem afterRead16_started (s : State σ bus) (a : Addr) : (s.afterRead16 a).started = s.started :=
  (onlyBusMoves_afterRead16 s a).started
@[simp] theorem afterRead16_cfg (s : State σ bus) (a : Addr) : (s.afterRead16 a).cfg = s.cfg :=
  (onlyBusMoves_afterRead16 s a).cfg
@[simp] theorem afterRead16_flag (s : State σ bus) (a : Addr) (g : Flag) : (s.afterRead16 a).flag g = s.flag g :=
  flag_congr _ _ (afterRead16_p s a) g

@[simp] theorem afterZpRead16_a (s : State σ bus) (p : Byte) : (s.afterZpRead16 p).a = s.a :=
  (onlyBusMoves_afterZpRead16 s p).a
@[simp] theorem afterZpRead16_x (s : State σ bus) (p : Byte) : (s.afterZpRead16 p).x = s.x :=
  (onlyBusMoves_afterZpRead16 s p).x
@[simp] theorem afterZpRead16_y (s : State σ bus) (p : Byte) : (s.afterZpRead16 p).y = s.y :=
  (onlyBusMoves_afterZpRead16 s p).y
@[simp] theorem afterZpRead16_sp (s : State σ bus) (p : Byte) : (s.afterZpRead16 p).sp = s.sp :=
  (onlyBusMoves_afterZpRead16 s p).sp
@[simp] theorem afterZpRead16_pc (s : State σ bus) (p : Byte) : (s.afterZpRead16 p).pc = s.pc :=
  (onlyBusMoves_afterZpRead16 s p).pc
@[simp] theorem afterZpRead16_p (s : State σ bus) (p : Byte) : (s.afterZpRead16 p).p = s.p :=
  (onlyBusMoves_afterZpRead16 s p).p
@[simp] theorem afterZpRead16_cyc (s : State σ bus) (p : Byte) : (s.afterZpRead16 p).cyc = s.cyc :=
  (onlyBusMoves_afterZpRead16 s p).cyc
@[simp] theorem afterZpRead16_started (s : State σ bus) (p : Byte) : (s.afterZpRead16 p).started = s.started :=
  (onlyBusMoves_afterZpRead16 s p).started
@[simp] theorem afterZpRead16_cfg (s : State σ bus) (p : Byte) : (s.afterZpRead16 p).cfg = s.cfg :=
  (onlyBusMoves_afterZpRead16 s p).cfg
@[simp] theorem afterZpRead16_flag (s : State σ bus) (p : Byte) (g : Flag) : (s.afterZpRead16 p).flag g = s.flag g :=
  flag_congr _ _ (afterZpRead16_p s p) g

@[simp] theorem afterReads_a (n : Nat) (a : Addr) (s : State σ bus) : (s.afterReads n a).a = s.a :=
  (onlyBusMoves_afterReads n a s).a
@[simp] theorem afterReads_x (n : Nat) (a : Addr) (s : State σ bus) : (s.afterReads n a).x = s.x :=
  (onlyBusMoves_afterReads n a s).x
@[simp] theorem afterReads_y (n : Nat) (a : Addr) (s : State σ bus) : (s.afterReads n a).y = s.y :=
  (onlyBusMoves_afterReads n a s).y
@[simp] theorem afterReads_sp (n : Nat) (a : Addr) (s : State σ bus) : (s.afterReads n a).sp = s.sp :=
  (onlyBusMoves_afterReads n a s).sp
@[simp] theorem afterReads_pc (n : Nat) (a : Addr) (s : State σ bus) : (s.afterReads n a).pc = s.pc :=
  (onlyBusMoves_afterReads n a s).pc
@[simp] theorem afterReads_p (n : Nat) (a : Addr) (s : State σ bus) : (s.afterReads n a).p = s.p :=
  (onlyBusMoves_afterReads n a s).p
@[simp] theorem afterReads_cyc (n : Nat) (a : Addr) (s : State σ bus) : (s.afterReads n a).cyc = s.cyc :=
  (onlyBusMoves_afterReads n a s).cyc
@[simp] theorem afterReads_started (n : Nat) (a : Addr) (s : State σ bus) : (s.afterReads n a).started = s.started :=
  (onlyBusMoves_afterReads n a s).started
@[simp] theorem afterReads_cfg (n : Nat) (a : Addr) (s : State σ bus) : (s.afterReads n a).cfg = s.cfg :=
  (onlyBusMoves_afterReads n a s).cfg
@[simp] theorem afterReads_flag (n : Nat) (a : Addr) (s : State σ bus) (g : Flag) : (s.afterReads n a).flag g = s.flag g :=
  flag_congr _ _ (afterReads_p n a s) g

@[simp] theorem afterPointer_a (m : MemRef) (s : State σ bus) : (afterPointer m s).a = s.a :=
  (onlyBusMoves_afterPointer m s).a
@[simp] theorem afterPointer_x (m : MemRef) (s : State σ bus) : (afterPointer m s).x = s.x :=
  (onlyBusMoves_afterPointer m s).x
@[simp] theorem afterPointer_y (m : MemRef) (s : State σ bus) : (afterPointer m s).y = s.y :=
  (onlyBusMoves_afterPointer m s).y
@[simp] theorem afterPointer_sp (m : MemRef) (s : State σ bus) : (afterPointer m s).sp = s.sp :=
  (onlyBusMoves_afterPointer m s).sp
@[simp] theorem afterPointer_pc (m : MemRef) (s : State σ bus) : (afterPointer m s).pc = s.pc :=
  (onlyBusMoves_afterPointer m s).pc
@[simp] theorem afterPointer_p (m : MemRef) (s : State σ bus) : (afterPointer m s).p = s.p :=
  (onlyBusMoves_afterPointer m s).p
@[simp] theorem afterPointer_cyc (m : MemRef) (s : State σ bus) : (afterPointer m s).cyc = s.cyc :=
  (onlyBusMoves_afterPointer m s).cyc
@[simp] theorem afterPointer_started (m : MemRef) (s : State σ bus) : (afterPointer m s).started = s.started :=
  (onlyBusMoves_afterPointer m s).started
@[simp] theorem afterPointer_cfg (m : MemRef) (s : State σ bus) : (afterPointer m s).cfg = s.cfg :=
  (onlyBusMoves_afterPointer m s).cfg
@[simp] theorem afterPointer_flag (m : MemRef) (s : State σ bus) (g : Flag) : (afterPointer m s).flag g = s.flag g :=
  flag_congr _ _ (afterPointer_p m s) g

@[simp] theorem afterMem_a (m : MemRef) (s : State σ bus) : (afterMem m s).a = s.a :=
  (onlyBusMoves_afterMem m s).a
@[simp] theorem afterMem_x (m : MemRef) (s : State σ bus) : (afterMem m s).x = s.x :=
  (onlyBusMoves_afterMem m s).x
@[simp] theorem afterMem_y (m : MemRef) (s : State σ bus) : (afterMem m s).y = s.y :=
  (onlyBusMoves_afterMem m s).y
@[simp] theorem afterMem_sp (m : MemRef) (s : State σ bus) : (afterMem m s).sp = s.sp :=
  (onlyBusMoves_afterMem m s).sp
@[simp] theorem afterMem_pc (m : MemRef) (s : State σ bus) : (afterMem m s).pc = s.pc :=
  (onlyBusMoves_afterMem m s).pc
@[simp] theorem afterMem_p (m : MemRef) (s : State σ bus) : (afterMem m s).p = s.p :=
  (onlyBusMoves_afterMem m s).p
@[simp] theorem afterMem_cyc (m : MemRef) (s : State σ bus) : (afterMem m s).cyc = s.cyc :=
  (onlyBusMoves_afterMem m s).cyc
@[simp] theorem afterMem_started (m : MemRef) (s : State σ bus) : (afterMem m s).started = s.started :=
  (onlyBusMoves_afterMem m s).started
@[simp] theorem afterMem_cfg (m : MemRef) (s : State σ bus) : (afterMem m s).cfg = s.cfg :=
  (onlyBusMoves_afterMem m s).cfg
@[simp] theorem afterMem_flag (m : MemRef) (s : State σ bus) (g : Flag) : (afterMem m s).flag g = s.flag g :=
  flag_congr _ _ (afterMem_p m s) g

@[simp] theorem afterOperand_a (o : Operand) (s : State σ bus) : (afterOperand o s).a = s.a :=
  (onlyBusMoves_afterOperand o s).a
@[simp] theorem afterOperand_x (o : Operand) (s : State σ bus) : (afterOperand o s).x = s.x :=
  (onlyBusMoves_afterOperand o s).x
@[simp] theorem afterOperand_y (o : Operand) (s : State σ bus) : (afterOperand o s).y = s.y :=
  (onlyBusMoves_afterOperand o s).y
@[simp] theorem afterOperand_sp (o : Operand) (s : State σ bus) : (afterOperand o s).sp = s.sp :=
  (onlyBusMoves_afterOperand o s).sp
@[simp] theorem afterOperand_pc (o : Operand) (s : State σ bus) : (afterOperand o s).pc = s.pc :=
  (onlyBusMoves_afterOperand o s).pc
@[simp] theorem afterOperand_p (o : Operand) (s : State σ bus) : (afterOperand o s).p = s.p :=
  (onlyBusMoves_afterOperand o s).p
@[simp] theorem afterOperand_cyc (o : Operand) (s : State σ bus) : (afterOperand o s).cyc = s.cyc :=
  (onlyBusMoves_afterOperand o s).cyc
@[simp] theorem afterOperand_started (o : Operand) (s : State σ bus) : (afterOperand o s).started = s.started :=
  (onlyBusMoves_afterOperand o s).started
@[simp] theorem afterOperand_cfg (o : Operand) (s : State σ bus) : (afterOperand o s).cfg = s.cfg :=
  (onlyBusMoves_afterOperand o s).cfg
@[simp] theorem afterOperand_flag (o : Operand) (s : State σ bus) (g : Flag) : (afterOperand o s).flag g = s.flag g :=
  flag_congr _ _ (afterOperand_p o s) g

@[simp] theorem afterDiscardedOperand_a (m : MemRef) (s : State σ bus) : (afterDiscardedOperand m s).a = s.a :=
  (onlyBusMoves_afterDiscardedOperand m s).a
@[simp] theorem afterDiscardedOperand_x (m : MemRef) (s : State σ bus) : (afterDiscardedOperand m s).x = s.x :=
  (onlyBusMoves_afterDiscardedOperand m s).x
@[simp] theorem afterDiscardedOperand_y (m : MemRef) (s : State σ bus) : (afterDiscardedOperand m s).y = s.y :=
  (onlyBusMoves_afterDiscardedOperand m s).y
@[simp] theorem afterDiscardedOperand_sp (m : MemRef) (s : State σ bus) : (afterDiscardedOperand m s).sp = s.sp :=
  (onlyBusMoves_afterDiscardedOperand m s).sp
@[simp] theorem afterDiscardedOperand_pc (m : MemRef) (s : State σ bus) : (afterDiscardedOperand m s).pc = s.pc :=
  (onlyBusMoves_afterDiscardedOperand m s).pc
@[simp] theorem afterDiscardedOperand_p (m : MemRef) (s : State σ bus) : (afterDiscardedOperand m s).p = s.p :=
  (onlyBusMoves_afterDiscardedOperand m s).p
@[simp] theorem afterDiscardedOperand_cyc (m : MemRef) (s : State σ bus) : (afterDiscardedOperand m s).cyc = s.cyc :=
  (onlyBusMoves_afterDiscardedOperand m s).cyc
@[simp] theorem afterDiscardedOperand_started (m : MemRef) (s : State σ bus) : (afterDiscardedOperand m s).started = s.started :=
  (onlyBusMoves_afterDiscardedOperand m s).started
@[simp] theorem afterDiscardedOperand_cfg (m : MemRef) (s : State σ bus) : (afterDiscardedOperand m s).cfg = s.cfg :=
  (onlyBusMoves_afterDiscardedOperand m s).cfg
@[simp] theorem afterDiscardedOperand_flag (m : MemRef) (s : State σ bus) (g : Flag) : (afterDiscardedOperand m s).flag g = s.flag g :=
  flag_congr _ _ (afterDiscardedOperand_p m s) g

@[simp] theorem afterIndirect_a (l h : Byte) (s : State σ bus) : (afterIndirect l h s).a = s.a :=
  (onlyBusMoves_afterIndirect l h s).a
@[simp] theorem afterIndirect_x (l h : Byte) (s : State σ bus) : (afterIndirect l h s).x = s.x :=
  (onlyBusMoves_afterIndirect l h s).x
@[simp] theorem afterIndirect_y (l h : Byte) (s : State σ bus) : (afterIndirect l h s).y = s.y :=
  (onlyBusMoves_afterIndirect l h s).y
@[simp] theorem afterIndirect_sp (l h : Byte) (s : State σ bus) : (afterIndirect l h s).sp = s.sp :=
  (onlyBusMoves_afterIndirect l h s).sp
@[simp] theorem afterIndirect_pc (l h : Byte) (s : State σ bus) : (afterIndirect l h s).pc = s.pc :=
  (onlyBusMoves_afterIndirect l h s).pc
@[simp] theorem afterIndirect_p (l h : Byte) (s : State σ bus) : (afterIndirect l h s).p = s.p :=
  (onlyBusMoves_afterIndirect l h s).p
@[simp] theorem afterIndirect_cyc (l h : Byte) (s : State σ bus) : (afterIndirect l h s).cyc = s.cyc :=
  (onlyBusMoves_afterIndirect l h s).cyc
@[simp] theorem afterIndirect_started (l h : Byte) (s : State σ bus) : (afterIndirect l h s).started = s.started :=
  (onlyBusMoves_afterIndirect l h s).started
@[simp] theorem afterIndirect_cfg (l h : Byte) (s : State σ bus) : (afterIndirect l h s).cfg = s.cfg :=
  (onlyBusMoves_afterIndirect l h s).cfg
@[simp] theorem afterIndirect_flag (l h : Byte) (s : State σ bus) (g : Flag) : (afterIndirect l h s).flag g = s.flag g :=
  flag_congr _ _ (afterIndirect_p l h s) g

@[simp] theorem afterFetch_a (s : State σ bus) : (afterFetch s).a = s.a :=
  (onlyBusMoves_afterFetch s).a
@[simp] theorem afterFetch_x (s : State σ bus) : (afterFetch s).x = s.x :=
  (onlyBusMoves_afterFetch s).x
@[simp] theorem afterFetch_y (s : State σ bus) : (afterFetch s).y = s.y :=
  (onlyBusMoves_afterFetch s).y
@[simp] theorem afterFetch_sp (s : State σ bus) : (afterFetch s).sp = s.sp :=
  (onlyBusMoves_afterFetch s).sp
@[simp] theorem afterFetch_pc (s : State σ bus) : (afterFetch s).pc = s.pc :=
  (onlyBusMoves_afterFetch s).pc
@[simp] theorem afterFetch_p (s : State σ bus) : (afterFetch s).p = s.p :=
  (onlyBusMoves_afterFetch s).p
@[simp] theorem afterFetch_cyc (s : State σ bus) : (afterFetch s).cyc = s.cyc :=
  (onlyBusMoves_afterFetch s).cyc
@[simp] theorem afterFetch_started (s : State σ bus) : (afterFetch s).started = s.started :=
  (onlyBusMoves_afterFetch s).started
@[simp] theorem afterFetch_cfg (s : State σ bus) : (afterFetch s).cfg = s.cfg :=
  (onlyBusMoves_afterFetch s).cfg
@[simp] theorem afterFetch_flag (s : State σ bus) (g : Flag) : (afterFetch s).flag g = s.flag g :=
  flag_congr _ _ (afterFetch_p s) g

@[simp] theorem afterVector_a (o : Option Addr) (s : State σ bus) : (afterVector o s).a = s.a :=
  (onlyBusMoves_afterVector o s).a
@[simp] theorem afterVector_x (o : Option Addr) (s : State σ bus) : (afterVector o s).x = s.x :=
  (onlyBusMoves_afterVector o s).x
@[simp] theorem afterVector_y (o : Option Addr) (s : State σ bus) : (afterVector o s).y = s.y :=
  (onlyBusMoves_afterVector o s).y
@[simp] theorem afterVector_sp (o : Option Addr) (s : State σ bus) : (afterVector o s).sp = s.sp :=
  (onlyBusMoves_afterVector o s).sp
@[simp] theorem afterVector_pc (o : Option Addr) (s : State σ bus) : (afterVector o s).pc = s.pc :=
  (onlyBusMoves_afterVector o s).pc
@[simp] theorem afterVector_p (o : Option Addr) (s : State σ bus) : (afterVector o s).p = s.p :=
  (onlyBusMoves_afterVector o s).p
@[simp] theorem afterVector_cyc (o : Option Addr) (s : State σ bus) : (afterVector o s).cyc = s.cyc :=
  (onlyBusMoves_afterVector o s).cyc
@[simp] theorem afterVector_started (o : Option Addr) (s : State σ bus) : (afterVector o s).started = s.started :=
  (onlyBusMoves_afterVector o s).started
@[simp] theorem afterVector_cfg (o : Option Addr) (s : State σ bus) : (afterVector o s).cfg = s.cfg :=
  (onlyBusMoves_afterVector o s).cfg
@[simp] theorem afterVector_flag (o : Option Addr) (s : State σ bus) (g : Flag) : (afterVector o s).flag g = s.flag g :=
  flag_congr _ _ (afterVector_p o s) g

end Sys2Proof.Machine
end

