-- ==== Sys2Proof/Laws/Ops.lean ====
section
/-! SUPPORT. One spec lemma per shared operation: everything it can do to the state. -/

namespace Sys2Proof.Machine

variable {σ : Type} {bus : Bus σ}

/-! Words and bytes. -/

theorem w16_toNat (h l : Byte) : (w16 h l).toNat = h.toNat * 256 + l.toNat := by
  have hl := l.isLt
  simp only [w16, BitVec.toNat_append]
  rw [← Nat.shiftLeft_add_eq_or_of_lt hl, Nat.shiftLeft_eq]

theorem lo8_toNat (w : Addr) : (lo8 w).toNat = w.toNat % 256 := by simp [lo8]

theorem hi8_toNat (w : Addr) : (hi8 w).toNat = w.toNat / 256 := by
  have := w.isLt
  simp only [hi8, BitVec.extractLsb'_toNat, Nat.shiftRight_eq_div_pow]
  omega

@[simp] theorem lo8_w16 (h l : Byte) : lo8 (w16 h l) = l := by
  apply BitVec.eq_of_toNat_eq
  have := l.isLt
  rw [lo8_toNat, w16_toNat]
  omega

@[simp] theorem hi8_w16 (h l : Byte) : hi8 (w16 h l) = h := by
  apply BitVec.eq_of_toNat_eq
  have := l.isLt
  rw [hi8_toNat, w16_toNat]
  omega

@[simp] theorem w16_hi8_lo8 (w : Addr) : w16 (hi8 w) (lo8 w) = w := by
  apply BitVec.eq_of_toNat_eq
  rw [w16_toNat, hi8_toNat, lo8_toNat]
  omega

@[simp] theorem zeroPage_toNat (b : Byte) : (zeroPage b).toNat = b.toNat := by
  have := b.isLt
  simp only [zeroPage, BitVec.toNat_setWidth]
  omega

/-- The signed reading of a byte as an unsigned word (R11). -/
theorem sext16_toNat (b : Byte) :
    (sext16 b).toNat = if b.toNat < 128 then b.toNat else b.toNat + 0xFF00 := by
  have hb := b.isLt
  simp only [sext16, BitVec.toNat_signExtend, BitVec.msb_eq_decide]
  split <;> split <;> simp_all <;> omega

/-! On the default mapper reads change nothing (R55): each state after reads is the state before them. -/

@[simp] theorem afterRead16_default (s : State) (a : Addr) : s.afterRead16 a = s := rfl
@[simp] theorem afterZpRead16_default (s : State) (p : Byte) : s.afterZpRead16 p = s := rfl

@[simp] theorem afterReads_default (n : Nat) (a : Addr) (s : State) : s.afterReads n a = s := by
  induction n generalizing a with
  | zero => rfl
  | succ n ih => exact ih (a + 1)

@[simp] theorem afterPointer_default (m : MemRef) (s : State) : afterPointer m s = s := by cases m <;> rfl
@[simp] theorem afterMem_default (m : MemRef) (s : State) : afterMem m s = s := afterPointer_default m s
@[simp] theorem afterOperand_default (o : Operand) (s : State) : afterOperand o s = s := by
  cases o
  · rfl
  · exact afterMem_default _ s
@[simp] theorem afterIndirect_default (l h : Byte) (s : State) : afterIndirect l h s = s := rfl
@[simp] theorem afterFetch_default (s : State) : afterFetch s = s := afterReads_default _ _ s
@[simp] theorem afterVector_default (o : Option Addr) (s : State) : afterVector o s = s := by cases o <;> rfl
@[simp] theorem afterDiscardedOperand_default (m : MemRef) (s : State) : afterDiscardedOperand m s = s := by
  simp [afterDiscardedOperand]

@[simp] theorem memValue_default (m : MemRef) (s : State) : memValue m s = s.read (ea m s) := by
  rw [memValue, afterPointer_default]

@[simp] theorem store_default (m : MemRef) (v : Byte) (s : State) : store m v s = s.write (ea m s) v := by
  rw [store, afterPointer_default]

/-- Modify on the default mapper (R118): one read of EA, then one write of it. -/
theorem modify_default (m : MemRef) (f : Byte → State → Byte × State) (s : State) :
    modify m f s = ((f (s.read (ea m s)) s).1,
      (f (s.read (ea m s)) s).2.write (ea m s) (f (s.read (ea m s)) s).1) := by
  simp only [modify, memValue_default, afterMem_default]

/-! The stack page (R200): distinct stack pointers reach distinct cells. -/

theorem stackAddr_toNat (sp : Byte) : (stackAddr sp).toNat = 0x100 + sp.toNat := by
  simp [stackAddr, w16_toNat]

theorem cellOf_stackAddr (sp : Byte) : cellOf (stackAddr sp) = 0x100 + sp.toNat := by
  have := sp.isLt
  rw [cellOf_ram _ (by rw [stackAddr_toNat]; omega), stackAddr_toNat]
  omega

theorem cellOf_stackAddr_inj (b c : Byte) : cellOf (stackAddr b) = cellOf (stackAddr c) ↔ b = c := by
  rw [cellOf_stackAddr, cellOf_stackAddr]
  constructor
  · intro h; exact BitVec.eq_of_toNat_eq (by omega)
  · rintro rfl; rfl

/-- A read after a push (R200). -/
theorem push_read (v : Byte) (s : State) (b : Addr) :
    (push v s).read b = if cellOf b = cellOf (stackAddr s.sp) then v else s.read b :=
  write_read s (stackAddr s.sp) b v

theorem push_wf (v : Byte) (s : State) (h : s.mem.wf = true) : (push v s).mem.wf = true :=
  wf_write s (stackAddr s.sp) v h

/-- The first and the second byte Push16 pushes (R201). -/
def pushedFirst (w : Addr) (s : State σ bus) : Byte :=
  match s.cfg.stackWordOrder with
  | .highFirst => hi8 w
  | .lowFirst => lo8 w

/-- The second byte Push16 pushes (R201). -/
def pushedSecond (w : Addr) (s : State σ bus) : Byte :=
  match s.cfg.stackWordOrder with
  | .highFirst => lo8 w
  | .lowFirst => hi8 w

/-- Push16 is two pushes, in the order of the parameter (R201). -/
theorem push16_eq (w : Addr) (s : State σ bus) : push16 w s = push (pushedSecond w s) (push (pushedFirst w s) s) := by
  cases h : s.cfg.stackWordOrder <;> simp [push16, pushedFirst, pushedSecond, h]

theorem pull16_state (s : State σ bus) : (pull16 s).2 = (pull (pull s).2).2 := rfl

theorem sp_sub_two (sp : Byte) : sp - 1#8 - 1#8 = sp - 2#8 := by bv_omega

theorem sp_add_two (sp : Byte) : sp + 1#8 + 1#8 = sp + 2#8 := by bv_omega

/-- What Pull16 reads (R201). -/
theorem pull16_value (s : State) :
    (pull16 s).1 = match s.cfg.stackWordOrder with
      | .highFirst => w16 (s.read (stackAddr (s.sp + 2))) (s.read (stackAddr (s.sp + 1)))
      | .lowFirst => w16 (s.read (stackAddr (s.sp + 1))) (s.read (stackAddr (s.sp + 2))) := by
  cases h : s.cfg.stackWordOrder <;> simp [pull16, h, sp_add_two]

/-! Everything Push16 and Pull16 can do (R201). -/

/-- Push16 moves SP by two and writes no register else, no flag, no parameter. -/
theorem push16_fields (w : Addr) (s : State σ bus) :
    (push16 w s).a = s.a ∧ (push16 w s).x = s.x ∧ (push16 w s).y = s.y ∧ (push16 w s).sp = s.sp - 2 ∧
    (push16 w s).pc = s.pc ∧ (push16 w s).p = s.p ∧ (push16 w s).cyc = s.cyc ∧
    (push16 w s).started = s.started ∧ (push16 w s).cfg = s.cfg := by
  rw [push16_eq]
  exact ⟨rfl, rfl, rfl, sp_sub_two _, rfl, rfl, rfl, rfl, rfl⟩

/-- What every address reads after Push16. -/
theorem push16_read (w : Addr) (s : State) (b : Addr) :
    (push16 w s).read b =
      if cellOf b = cellOf (stackAddr (s.sp - 1)) then pushedSecond w s
      else if cellOf b = cellOf (stackAddr s.sp) then pushedFirst w s else s.read b := by
  rw [push16_eq, push_read, push_read, push_sp]

theorem push16_first (w : Addr) (s : State) : (push16 w s).read (stackAddr s.sp) = pushedFirst w s := by
  rw [push16_read, if_neg, if_pos rfl]
  rw [cellOf_stackAddr_inj]
  bv_omega

theorem push16_second (w : Addr) (s : State) :
    (push16 w s).read (stackAddr (s.sp - 1)) = pushedSecond w s := by
  rw [push16_read, if_pos rfl]

/-- The two bytes of Push16, in either order of the parameter. -/
theorem pushed_orders (w : Addr) (s : State σ bus) :
    (s.cfg.stackWordOrder = .highFirst → pushedFirst w s = hi8 w ∧ pushedSecond w s = lo8 w) ∧
    (s.cfg.stackWordOrder = .lowFirst → pushedFirst w s = lo8 w ∧ pushedSecond w s = hi8 w) := by
  constructor <;> intro h <;> simp [pushedFirst, pushedSecond, h]

/-- Pull16 gives back a word that stands where Push16 left it. -/
theorem pull16_pushed (w : Addr) (s t : State) (hc : t.cfg = s.cfg) (hs : t.sp = s.sp - 2)
    (h1 : t.read (stackAddr s.sp) = pushedFirst w s)
    (h2 : t.read (stackAddr (s.sp - 1)) = pushedSecond w s) : (pull16 t).1 = w := by
  have e1 : t.sp + 1 = s.sp - 1 := by rw [hs]; bv_omega
  have e2 : t.sp + 2 = s.sp := by rw [hs]; bv_omega
  rw [pull16_value, hc, e1, e2, h1, h2]
  cases h : s.cfg.stackWordOrder <;> simp [pushedFirst, pushedSecond, h]

/-! The vectored entry and the return from it (R205, R209, R305). -/

/-- Everything but PC that the vectored entry does, on any bus: the three pushes, then the vector's two reads. -/
theorem vectoredEntry_fields (ret : Addr) (status : Byte) (isBrk : Bool) (vector : Addr) (s : State σ bus) :
    let t := vectoredEntry ret status isBrk vector s
    t.a = s.a ∧ t.x = s.x ∧ t.y = s.y ∧ t.sp = s.sp - 3 ∧ t.cyc = s.cyc ∧ t.started = s.started ∧
    t.cfg = s.cfg ∧ t.mem = ((push status (push16 ret s)).afterRead16 vector).mem ∧
    ∀ f, t.flag f = if f = .b ∧ isBrk = true then true else if f = .i then true else s.flag f := by
  obtain ⟨ha, hx, hy, hsp, -, hp, hcyc, hs, hc⟩ := push16_fields ret s
  generalize hu : push16 ret s = u at *
  have hsp' : (push status u).sp = s.sp - 3 := by
    rw [push_sp, hsp]
    bv_omega
  have hf : ∀ f, ((push status u).setFlag .i true).flag f = if f = .i then true else s.flag f := by
    intro f
    rw [setFlag_flag, push_flag, flag_congr _ _ hp]
  unfold vectoredEntry
  rw [hu]
  cases isBrk
  · refine ⟨ha, hx, hy, hsp', hcyc, hs, hc, rfl, fun f => ?_⟩
    rw [if_neg (by simp)]
    exact hf f
  · refine ⟨ha, hx, hy, hsp', hcyc, hs, hc, rfl, fun f => ?_⟩
    rw [← hf f]
    show (((push status u).setFlag .i true).setFlag .b true).flag f = _
    rw [setFlag_flag]
    by_cases hb : f = .b <;> simp [hb]

/-- On the default mapper the vector's reads change nothing. -/
theorem vectoredEntry_mem (ret : Addr) (status : Byte) (isBrk : Bool) (vector : Addr) (s : State) :
    (vectoredEntry ret status isBrk vector s).mem = (push status (push16 ret s)).mem := by
  rw [(vectoredEntry_fields ret status isBrk vector s).2.2.2.2.2.2.2.1, afterRead16_default]

/-- What every address reads after the vectored entry: the three pushed bytes, and the rest as before. -/
theorem vectoredEntry_read (ret : Addr) (status : Byte) (isBrk : Bool) (vector : Addr) (s : State) (b : Addr) :
    (vectoredEntry ret status isBrk vector s).read b =
      if cellOf b = cellOf (stackAddr (s.sp - 2)) then status
      else if cellOf b = cellOf (stackAddr (s.sp - 1)) then pushedSecond ret s
      else if cellOf b = cellOf (stackAddr s.sp) then pushedFirst ret s else s.read b := by
  have hm := vectoredEntry_mem ret status isBrk vector s
  rw [read_congr _ _ hm, push_read, (push16_fields ret s).2.2.2.1, push16_read]

/-- The PC of the vectored entry is the word at the vector; no vector stands in the stack page. -/
theorem vectoredEntry_pc (ret : Addr) (status : Byte) (isBrk : Bool) (vector : Addr) (s : State)
    (hv : 0x4000 ≤ vector.toNat) (hv' : vector.toNat < 0xFFFF) :
    (vectoredEntry ret status isBrk vector s).pc = s.read16 vector := by
  have hv1 : (vector + 1).toNat = vector.toNat + 1 := by
    rw [BitVec.toNat_add]
    simp
    omega
  have hr : ∀ b : Addr, 0x4000 ≤ b.toNat → (vectoredEntry ret status isBrk vector s).read b = s.read b := by
    intro b hb
    have hne : ∀ sp : Byte, cellOf b ≠ cellOf (stackAddr sp) := by
      intro sp
      have := sp.isLt
      rw [cellOf_high b hb, cellOf_stackAddr]
      omega
    rw [vectoredEntry_read, if_neg (hne _), if_neg (hne _), if_neg (hne _)]
  have hpc : (vectoredEntry ret status isBrk vector s).pc =
      (vectoredEntry ret status isBrk vector s).read16 vector := by cases isBrk <;> rfl
  rw [hpc]
  simp only [State.read16, afterRead_default]
  rw [hr _ hv, hr _ (by omega)]

/-! Memory operations keep the canonical form. -/

theorem push16_wf (w : Addr) (s : State) (h : s.mem.wf = true) : (push16 w s).mem.wf = true := by
  rw [push16_eq]
  exact push_wf _ _ (push_wf _ _ h)

theorem modify_wf (m : MemRef) (f : Byte → State → Byte × State) (s : State)
    (hf : ∀ v s, (f v s).2.mem = s.mem) (h : s.mem.wf = true) : (modify m f s).2.mem.wf = true :=
  wf_write _ _ _ (by rw [hf, afterMem_default]; exact h)

end Sys2Proof.Machine
end

