-- ==== Sys2Proof/Laws/Operations.lean ====
section
/-! SUPPORT. The composite operations, field by field: what the adder, the compare, the shifts, the loads and the logic leave alone, and what they write. -/

namespace Sys2Proof.Machine

variable {σ : Type} {bus : Bus σ}

@[simp] theorem addWithCarry_x (m : Byte) (s : State σ bus) : (addWithCarry m s).x = s.x := rfl
@[simp] theorem addWithCarry_y (m : Byte) (s : State σ bus) : (addWithCarry m s).y = s.y := rfl
@[simp] theorem addWithCarry_sp (m : Byte) (s : State σ bus) : (addWithCarry m s).sp = s.sp := rfl
@[simp] theorem addWithCarry_pc (m : Byte) (s : State σ bus) : (addWithCarry m s).pc = s.pc := rfl
@[simp] theorem addWithCarry_cyc (m : Byte) (s : State σ bus) : (addWithCarry m s).cyc = s.cyc := rfl
@[simp] theorem addWithCarry_mem (m : Byte) (s : State σ bus) : (addWithCarry m s).mem = s.mem := rfl
@[simp] theorem addWithCarry_started (m : Byte) (s : State σ bus) : (addWithCarry m s).started = s.started := rfl
@[simp] theorem addWithCarry_cfg (m : Byte) (s : State σ bus) : (addWithCarry m s).cfg = s.cfg := rfl
@[simp] theorem addWithCarry_read (m : Byte) (s : State σ bus) (b : Addr) : (addWithCarry m s).read b = s.read b := rfl

@[simp] theorem addWithCarry_a (m : Byte) (s : State σ bus) :
    (addWithCarry m s).a = BitVec.ofNat 8 (s.a.toNat + m.toNat + s.carry) := rfl

/-- The adder's flags (R140). -/
theorem addWithCarry_flag (m : Byte) (s : State σ bus) (g : Flag) :
    (addWithCarry m s).flag g =
      match g with
      | .c => decide (s.a.toNat + m.toNat + s.carry > 255)
      | .v => s.a.msb == m.msb && (addWithCarry m s).a.msb != s.a.msb
      | .z => (addWithCarry m s).a == 0
      | .n => (addWithCarry m s).a.msb
      | g => s.flag g := by
  have key : (addWithCarry m s).flag g = if g = .n then (addWithCarry m s).a.msb else
      if g = .z then (addWithCarry m s).a == 0 else
      if g = .v then s.a.msb == m.msb && (addWithCarry m s).a.msb != s.a.msb else
      if g = .c then decide (s.a.toNat + m.toNat + s.carry > 255) else s.flag g := by
    rw [addWithCarry_a]
    show (setZN _ _).flag g = _
    rw [setZN_flag]
    congr 1
    congr 1
    show ((s.setFlag .c _).setFlag .v _).flag g = _
    rw [setFlag_flag, setFlag_flag]
  rw [key]
  cases g <;> rfl

@[simp] theorem compare_a (r m : Byte) (s : State σ bus) : (compare r m s).a = s.a := rfl
@[simp] theorem compare_x (r m : Byte) (s : State σ bus) : (compare r m s).x = s.x := rfl
@[simp] theorem compare_y (r m : Byte) (s : State σ bus) : (compare r m s).y = s.y := rfl
@[simp] theorem compare_sp (r m : Byte) (s : State σ bus) : (compare r m s).sp = s.sp := rfl
@[simp] theorem compare_pc (r m : Byte) (s : State σ bus) : (compare r m s).pc = s.pc := rfl
@[simp] theorem compare_cyc (r m : Byte) (s : State σ bus) : (compare r m s).cyc = s.cyc := rfl
@[simp] theorem compare_mem (r m : Byte) (s : State σ bus) : (compare r m s).mem = s.mem := rfl
@[simp] theorem compare_started (r m : Byte) (s : State σ bus) : (compare r m s).started = s.started := rfl
@[simp] theorem compare_cfg (r m : Byte) (s : State σ bus) : (compare r m s).cfg = s.cfg := rfl
@[simp] theorem compare_read (r m : Byte) (s : State σ bus) (b : Addr) : (compare r m s).read b = s.read b := rfl

/-- The compare's flags (R143). -/
theorem compare_flag (r m : Byte) (s : State σ bus) (g : Flag) :
    (compare r m s).flag g =
      match g with
      | .c => decide (m.toNat ≤ r.toNat)
      | .z => r - m == 0
      | .n => (r - m).msb
      | g => s.flag g := by
  show (setZN _ _).flag g = _
  rw [setZN_flag, setFlag_flag]
  cases g <;> rfl

@[simp] theorem bitTest_a (m : Byte) (s : State σ bus) : (bitTest m s).a = s.a := rfl
@[simp] theorem bitTest_x (m : Byte) (s : State σ bus) : (bitTest m s).x = s.x := rfl
@[simp] theorem bitTest_y (m : Byte) (s : State σ bus) : (bitTest m s).y = s.y := rfl
@[simp] theorem bitTest_sp (m : Byte) (s : State σ bus) : (bitTest m s).sp = s.sp := rfl
@[simp] theorem bitTest_pc (m : Byte) (s : State σ bus) : (bitTest m s).pc = s.pc := rfl
@[simp] theorem bitTest_cyc (m : Byte) (s : State σ bus) : (bitTest m s).cyc = s.cyc := rfl
@[simp] theorem bitTest_mem (m : Byte) (s : State σ bus) : (bitTest m s).mem = s.mem := rfl
@[simp] theorem bitTest_started (m : Byte) (s : State σ bus) : (bitTest m s).started = s.started := rfl
@[simp] theorem bitTest_cfg (m : Byte) (s : State σ bus) : (bitTest m s).cfg = s.cfg := rfl
@[simp] theorem bitTest_read (m : Byte) (s : State σ bus) (b : Addr) : (bitTest m s).read b = s.read b := rfl

/-- BIT's flags (R168). -/
theorem bitTest_flag (m : Byte) (s : State σ bus) (g : Flag) :
    (bitTest m s).flag g =
      match g with
      | .v => m.getLsbD 6
      | .n => m.getLsbD 7
      | .z => m &&& s.a == 0
      | g => s.flag g := by
  show (((s.setFlag .v _).setFlag .n _).setFlag .z _).flag g = _
  rw [setFlag_flag, setFlag_flag, setFlag_flag]
  cases g <;> rfl

@[simp] theorem aslF_a (m : Byte) (s : State σ bus) : (aslF m s).2.a = s.a := rfl
@[simp] theorem aslF_x (m : Byte) (s : State σ bus) : (aslF m s).2.x = s.x := rfl
@[simp] theorem aslF_y (m : Byte) (s : State σ bus) : (aslF m s).2.y = s.y := rfl
@[simp] theorem aslF_sp (m : Byte) (s : State σ bus) : (aslF m s).2.sp = s.sp := rfl
@[simp] theorem aslF_pc (m : Byte) (s : State σ bus) : (aslF m s).2.pc = s.pc := rfl
@[simp] theorem aslF_cyc (m : Byte) (s : State σ bus) : (aslF m s).2.cyc = s.cyc := rfl
@[simp] theorem aslF_mem (m : Byte) (s : State σ bus) : (aslF m s).2.mem = s.mem := rfl
@[simp] theorem aslF_started (m : Byte) (s : State σ bus) : (aslF m s).2.started = s.started := rfl
@[simp] theorem aslF_cfg (m : Byte) (s : State σ bus) : (aslF m s).2.cfg = s.cfg := rfl
@[simp] theorem aslF_read (m : Byte) (s : State σ bus) (b : Addr) : (aslF m s).2.read b = s.read b := rfl

@[simp] theorem lsrF_a (m : Byte) (s : State σ bus) : (lsrF m s).2.a = s.a := rfl
@[simp] theorem lsrF_x (m : Byte) (s : State σ bus) : (lsrF m s).2.x = s.x := rfl
@[simp] theorem lsrF_y (m : Byte) (s : State σ bus) : (lsrF m s).2.y = s.y := rfl
@[simp] theorem lsrF_sp (m : Byte) (s : State σ bus) : (lsrF m s).2.sp = s.sp := rfl
@[simp] theorem lsrF_pc (m : Byte) (s : State σ bus) : (lsrF m s).2.pc = s.pc := rfl
@[simp] theorem lsrF_cyc (m : Byte) (s : State σ bus) : (lsrF m s).2.cyc = s.cyc := rfl
@[simp] theorem lsrF_mem (m : Byte) (s : State σ bus) : (lsrF m s).2.mem = s.mem := rfl
@[simp] theorem lsrF_started (m : Byte) (s : State σ bus) : (lsrF m s).2.started = s.started := rfl
@[simp] theorem lsrF_cfg (m : Byte) (s : State σ bus) : (lsrF m s).2.cfg = s.cfg := rfl
@[simp] theorem lsrF_read (m : Byte) (s : State σ bus) (b : Addr) : (lsrF m s).2.read b = s.read b := rfl

@[simp] theorem rolF_a (m : Byte) (s : State σ bus) : (rolF m s).2.a = s.a := rfl
@[simp] theorem rolF_x (m : Byte) (s : State σ bus) : (rolF m s).2.x = s.x := rfl
@[simp] theorem rolF_y (m : Byte) (s : State σ bus) : (rolF m s).2.y = s.y := rfl
@[simp] theorem rolF_sp (m : Byte) (s : State σ bus) : (rolF m s).2.sp = s.sp := rfl
@[simp] theorem rolF_pc (m : Byte) (s : State σ bus) : (rolF m s).2.pc = s.pc := rfl
@[simp] theorem rolF_cyc (m : Byte) (s : State σ bus) : (rolF m s).2.cyc = s.cyc := rfl
@[simp] theorem rolF_mem (m : Byte) (s : State σ bus) : (rolF m s).2.mem = s.mem := rfl
@[simp] theorem rolF_started (m : Byte) (s : State σ bus) : (rolF m s).2.started = s.started := rfl
@[simp] theorem rolF_cfg (m : Byte) (s : State σ bus) : (rolF m s).2.cfg = s.cfg := rfl
@[simp] theorem rolF_read (m : Byte) (s : State σ bus) (b : Addr) : (rolF m s).2.read b = s.read b := rfl

@[simp] theorem rorF_a (m : Byte) (s : State σ bus) : (rorF m s).2.a = s.a := rfl
@[simp] theorem rorF_x (m : Byte) (s : State σ bus) : (rorF m s).2.x = s.x := rfl
@[simp] theorem rorF_y (m : Byte) (s : State σ bus) : (rorF m s).2.y = s.y := rfl
@[simp] theorem rorF_sp (m : Byte) (s : State σ bus) : (rorF m s).2.sp = s.sp := rfl
@[simp] theorem rorF_pc (m : Byte) (s : State σ bus) : (rorF m s).2.pc = s.pc := rfl
@[simp] theorem rorF_cyc (m : Byte) (s : State σ bus) : (rorF m s).2.cyc = s.cyc := rfl
@[simp] theorem rorF_mem (m : Byte) (s : State σ bus) : (rorF m s).2.mem = s.mem := rfl
@[simp] theorem rorF_started (m : Byte) (s : State σ bus) : (rorF m s).2.started = s.started := rfl
@[simp] theorem rorF_cfg (m : Byte) (s : State σ bus) : (rorF m s).2.cfg = s.cfg := rfl
@[simp] theorem rorF_read (m : Byte) (s : State σ bus) (b : Addr) : (rorF m s).2.read b = s.read b := rfl

@[simp] theorem incF_a (m : Byte) (s : State σ bus) : (incF m s).2.a = s.a := rfl
@[simp] theorem incF_x (m : Byte) (s : State σ bus) : (incF m s).2.x = s.x := rfl
@[simp] theorem incF_y (m : Byte) (s : State σ bus) : (incF m s).2.y = s.y := rfl
@[simp] theorem incF_sp (m : Byte) (s : State σ bus) : (incF m s).2.sp = s.sp := rfl
@[simp] theorem incF_pc (m : Byte) (s : State σ bus) : (incF m s).2.pc = s.pc := rfl
@[simp] theorem incF_cyc (m : Byte) (s : State σ bus) : (incF m s).2.cyc = s.cyc := rfl
@[simp] theorem incF_mem (m : Byte) (s : State σ bus) : (incF m s).2.mem = s.mem := rfl
@[simp] theorem incF_started (m : Byte) (s : State σ bus) : (incF m s).2.started = s.started := rfl
@[simp] theorem incF_cfg (m : Byte) (s : State σ bus) : (incF m s).2.cfg = s.cfg := rfl
@[simp] theorem incF_read (m : Byte) (s : State σ bus) (b : Addr) : (incF m s).2.read b = s.read b := rfl

@[simp] theorem decF_a (m : Byte) (s : State σ bus) : (decF m s).2.a = s.a := rfl
@[simp] theorem decF_x (m : Byte) (s : State σ bus) : (decF m s).2.x = s.x := rfl
@[simp] theorem decF_y (m : Byte) (s : State σ bus) : (decF m s).2.y = s.y := rfl
@[simp] theorem decF_sp (m : Byte) (s : State σ bus) : (decF m s).2.sp = s.sp := rfl
@[simp] theorem decF_pc (m : Byte) (s : State σ bus) : (decF m s).2.pc = s.pc := rfl
@[simp] theorem decF_cyc (m : Byte) (s : State σ bus) : (decF m s).2.cyc = s.cyc := rfl
@[simp] theorem decF_mem (m : Byte) (s : State σ bus) : (decF m s).2.mem = s.mem := rfl
@[simp] theorem decF_started (m : Byte) (s : State σ bus) : (decF m s).2.started = s.started := rfl
@[simp] theorem decF_cfg (m : Byte) (s : State σ bus) : (decF m s).2.cfg = s.cfg := rfl
@[simp] theorem decF_read (m : Byte) (s : State σ bus) (b : Addr) : (decF m s).2.read b = s.read b := rfl

/-- The flags after a shift (R160). -/
theorem shifted_flag (r : Byte) (out : Bool) (s : State σ bus) (g : Flag) :
    (shifted r out s).2.flag g = if g = .n then r.msb else if g = .z then r == 0 else if g = .c then out else s.flag g := by
  show (setZN _ _).flag g = _
  rw [setZN_flag, setFlag_flag]

@[simp] theorem loadA_x (v : Byte) (s : State σ bus) : (loadA v s).x = s.x := rfl
@[simp] theorem loadA_y (v : Byte) (s : State σ bus) : (loadA v s).y = s.y := rfl
@[simp] theorem loadA_sp (v : Byte) (s : State σ bus) : (loadA v s).sp = s.sp := rfl
@[simp] theorem loadA_pc (v : Byte) (s : State σ bus) : (loadA v s).pc = s.pc := rfl
@[simp] theorem loadA_cyc (v : Byte) (s : State σ bus) : (loadA v s).cyc = s.cyc := rfl
@[simp] theorem loadA_mem (v : Byte) (s : State σ bus) : (loadA v s).mem = s.mem := rfl
@[simp] theorem loadA_started (v : Byte) (s : State σ bus) : (loadA v s).started = s.started := rfl
@[simp] theorem loadA_cfg (v : Byte) (s : State σ bus) : (loadA v s).cfg = s.cfg := rfl
@[simp] theorem loadA_read (v : Byte) (s : State σ bus) (b : Addr) : (loadA v s).read b = s.read b := rfl

@[simp] theorem loadA_a (v : Byte) (s : State σ bus) : (loadA v s).a = v := rfl

@[simp] theorem loadA_flag (v : Byte) (s : State σ bus) (g : Flag) :
    (loadA v s).flag g = if g = .n then v.msb else if g = .z then v == 0 else s.flag g := by
  show (setZN _ _).flag g = _
  rw [setZN_flag]
  rfl

@[simp] theorem loadX_a (v : Byte) (s : State σ bus) : (loadX v s).a = s.a := rfl
@[simp] theorem loadX_y (v : Byte) (s : State σ bus) : (loadX v s).y = s.y := rfl
@[simp] theorem loadX_sp (v : Byte) (s : State σ bus) : (loadX v s).sp = s.sp := rfl
@[simp] theorem loadX_pc (v : Byte) (s : State σ bus) : (loadX v s).pc = s.pc := rfl
@[simp] theorem loadX_cyc (v : Byte) (s : State σ bus) : (loadX v s).cyc = s.cyc := rfl
@[simp] theorem loadX_mem (v : Byte) (s : State σ bus) : (loadX v s).mem = s.mem := rfl
@[simp] theorem loadX_started (v : Byte) (s : State σ bus) : (loadX v s).started = s.started := rfl
@[simp] theorem loadX_cfg (v : Byte) (s : State σ bus) : (loadX v s).cfg = s.cfg := rfl
@[simp] theorem loadX_read (v : Byte) (s : State σ bus) (b : Addr) : (loadX v s).read b = s.read b := rfl

@[simp] theorem loadX_x (v : Byte) (s : State σ bus) : (loadX v s).x = v := rfl

@[simp] theorem loadX_flag (v : Byte) (s : State σ bus) (g : Flag) :
    (loadX v s).flag g = if g = .n then v.msb else if g = .z then v == 0 else s.flag g := by
  show (setZN _ _).flag g = _
  rw [setZN_flag]
  rfl

@[simp] theorem loadY_a (v : Byte) (s : State σ bus) : (loadY v s).a = s.a := rfl
@[simp] theorem loadY_x (v : Byte) (s : State σ bus) : (loadY v s).x = s.x := rfl
@[simp] theorem loadY_sp (v : Byte) (s : State σ bus) : (loadY v s).sp = s.sp := rfl
@[simp] theorem loadY_pc (v : Byte) (s : State σ bus) : (loadY v s).pc = s.pc := rfl
@[simp] theorem loadY_cyc (v : Byte) (s : State σ bus) : (loadY v s).cyc = s.cyc := rfl
@[simp] theorem loadY_mem (v : Byte) (s : State σ bus) : (loadY v s).mem = s.mem := rfl
@[simp] theorem loadY_started (v : Byte) (s : State σ bus) : (loadY v s).started = s.started := rfl
@[simp] theorem loadY_cfg (v : Byte) (s : State σ bus) : (loadY v s).cfg = s.cfg := rfl
@[simp] theorem loadY_read (v : Byte) (s : State σ bus) (b : Addr) : (loadY v s).read b = s.read b := rfl

@[simp] theorem loadY_y (v : Byte) (s : State σ bus) : (loadY v s).y = v := rfl

@[simp] theorem loadY_flag (v : Byte) (s : State σ bus) (g : Flag) :
    (loadY v s).flag g = if g = .n then v.msb else if g = .z then v == 0 else s.flag g := by
  show (setZN _ _).flag g = _
  rw [setZN_flag]
  rfl

@[simp] theorem andA_x (v : Byte) (s : State σ bus) : (andA v s).x = s.x := rfl
@[simp] theorem andA_y (v : Byte) (s : State σ bus) : (andA v s).y = s.y := rfl
@[simp] theorem andA_sp (v : Byte) (s : State σ bus) : (andA v s).sp = s.sp := rfl
@[simp] theorem andA_pc (v : Byte) (s : State σ bus) : (andA v s).pc = s.pc := rfl
@[simp] theorem andA_cyc (v : Byte) (s : State σ bus) : (andA v s).cyc = s.cyc := rfl
@[simp] theorem andA_mem (v : Byte) (s : State σ bus) : (andA v s).mem = s.mem := rfl
@[simp] theorem andA_started (v : Byte) (s : State σ bus) : (andA v s).started = s.started := rfl
@[simp] theorem andA_cfg (v : Byte) (s : State σ bus) : (andA v s).cfg = s.cfg := rfl
@[simp] theorem andA_read (v : Byte) (s : State σ bus) (b : Addr) : (andA v s).read b = s.read b := rfl

@[simp] theorem andA_a (v : Byte) (s : State σ bus) : (andA v s).a = s.a &&& v := rfl

@[simp] theorem andA_flag (v : Byte) (s : State σ bus) (g : Flag) :
    (andA v s).flag g = if g = .n then (s.a &&& v).msb else if g = .z then s.a &&& v == 0 else s.flag g := by
  show (setZN _ _).flag g = _
  rw [setZN_flag]
  rfl

@[simp] theorem orA_x (v : Byte) (s : State σ bus) : (orA v s).x = s.x := rfl
@[simp] theorem orA_y (v : Byte) (s : State σ bus) : (orA v s).y = s.y := rfl
@[simp] theorem orA_sp (v : Byte) (s : State σ bus) : (orA v s).sp = s.sp := rfl
@[simp] theorem orA_pc (v : Byte) (s : State σ bus) : (orA v s).pc = s.pc := rfl
@[simp] theorem orA_cyc (v : Byte) (s : State σ bus) : (orA v s).cyc = s.cyc := rfl
@[simp] theorem orA_mem (v : Byte) (s : State σ bus) : (orA v s).mem = s.mem := rfl
@[simp] theorem orA_started (v : Byte) (s : State σ bus) : (orA v s).started = s.started := rfl
@[simp] theorem orA_cfg (v : Byte) (s : State σ bus) : (orA v s).cfg = s.cfg := rfl
@[simp] theorem orA_read (v : Byte) (s : State σ bus) (b : Addr) : (orA v s).read b = s.read b := rfl

@[simp] theorem orA_a (v : Byte) (s : State σ bus) : (orA v s).a = s.a ||| v := rfl

@[simp] theorem orA_flag (v : Byte) (s : State σ bus) (g : Flag) :
    (orA v s).flag g = if g = .n then (s.a ||| v).msb else if g = .z then s.a ||| v == 0 else s.flag g := by
  show (setZN _ _).flag g = _
  rw [setZN_flag]
  rfl

@[simp] theorem xorA_x (v : Byte) (s : State σ bus) : (xorA v s).x = s.x := rfl
@[simp] theorem xorA_y (v : Byte) (s : State σ bus) : (xorA v s).y = s.y := rfl
@[simp] theorem xorA_sp (v : Byte) (s : State σ bus) : (xorA v s).sp = s.sp := rfl
@[simp] theorem xorA_pc (v : Byte) (s : State σ bus) : (xorA v s).pc = s.pc := rfl
@[simp] theorem xorA_cyc (v : Byte) (s : State σ bus) : (xorA v s).cyc = s.cyc := rfl
@[simp] theorem xorA_mem (v : Byte) (s : State σ bus) : (xorA v s).mem = s.mem := rfl
@[simp] theorem xorA_started (v : Byte) (s : State σ bus) : (xorA v s).started = s.started := rfl
@[simp] theorem xorA_cfg (v : Byte) (s : State σ bus) : (xorA v s).cfg = s.cfg := rfl
@[simp] theorem xorA_read (v : Byte) (s : State σ bus) (b : Addr) : (xorA v s).read b = s.read b := rfl

@[simp] theorem xorA_a (v : Byte) (s : State σ bus) : (xorA v s).a = s.a ^^^ v := rfl

@[simp] theorem xorA_flag (v : Byte) (s : State σ bus) (g : Flag) :
    (xorA v s).flag g = if g = .n then (s.a ^^^ v).msb else if g = .z then s.a ^^^ v == 0 else s.flag g := by
  show (setZN _ _).flag g = _
  rw [setZN_flag]
  rfl

@[simp] theorem restoreStatus_a (v : Byte) (s : State σ bus) : (restoreStatus v s).a = s.a := by
  unfold restoreStatus; split <;> rfl
@[simp] theorem restoreStatus_x (v : Byte) (s : State σ bus) : (restoreStatus v s).x = s.x := by
  unfold restoreStatus; split <;> rfl
@[simp] theorem restoreStatus_y (v : Byte) (s : State σ bus) : (restoreStatus v s).y = s.y := by
  unfold restoreStatus; split <;> rfl
@[simp] theorem restoreStatus_sp (v : Byte) (s : State σ bus) : (restoreStatus v s).sp = s.sp := by
  unfold restoreStatus; split <;> rfl
@[simp] theorem restoreStatus_pc (v : Byte) (s : State σ bus) : (restoreStatus v s).pc = s.pc := by
  unfold restoreStatus; split <;> rfl
@[simp] theorem restoreStatus_cyc (v : Byte) (s : State σ bus) : (restoreStatus v s).cyc = s.cyc := by
  unfold restoreStatus; split <;> rfl
@[simp] theorem restoreStatus_mem (v : Byte) (s : State σ bus) : (restoreStatus v s).mem = s.mem := by
  unfold restoreStatus; split <;> rfl
@[simp] theorem restoreStatus_started (v : Byte) (s : State σ bus) : (restoreStatus v s).started = s.started := by
  unfold restoreStatus; split <;> rfl
@[simp] theorem restoreStatus_cfg (v : Byte) (s : State σ bus) : (restoreStatus v s).cfg = s.cfg := by
  unfold restoreStatus; split <;> rfl
@[simp] theorem restoreStatus_read (v : Byte) (s : State σ bus) (b : Addr) : (restoreStatus v s).read b = s.read b := by
  unfold restoreStatus; split <;> rfl

end Sys2Proof.Machine
end

