-- ==== Sys2Proof/Laws/Steps.lean ====
section
/-! SUPPORT. The frame of an instruction from the frame of its body: what finish adds, and the closed forms of the adder's complement, the compare's difference and the shifts. -/

namespace Sys2Proof.Machine

variable {σ : Type} {bus : Bus σ}

/-- An instruction whose body stores nothing (R104, R105). -/
theorem registerStep_finish (i : Instr) (c : Bool) (rs : List Reg) (fs : List Flag) (s u : State)
    (hpc : u.pc = s.pc) (hcyc : u.cyc = s.cyc) (hr : KeepsRegsBut rs s u) (hf : KeepsFlagsBut fs s u)
    (hm : u.mem = s.mem) (hk : KeepsMachine s u) : RegisterStep i c rs fs s (finish i c u) := by
  refine ⟨⟨by simp [hpc], by simp [hcyc]⟩, ?_, ?_, ?_, hk⟩
  · intro r hr'
    rw [← hr r hr']
    cases r <;> rfl
  · intro f hf'
    rw [← hf f hf', finish_flag]
  · exact fun a => read_congr _ _ (by simpa using hm) a

/-- An instruction whose body stores bytes (R104, R105). -/
theorem storingStep_finish (i : Instr) (c : Bool) (rs : List Reg) (fs : List Flag) (l : List Addr)
    (s u : State) (hpc : u.pc = s.pc) (hcyc : u.cyc = s.cyc) (hr : KeepsRegsBut rs s u)
    (hf : KeepsFlagsBut fs s u) (hm : KeepsMemoryBut l s u) (hk : KeepsMachine s u) :
    StoringStep i c rs fs l s (finish i c u) := by
  refine ⟨⟨by simp [hpc], by simp [hcyc]⟩, ?_, ?_, ?_, hk⟩
  · intro r hr'
    rw [← hr r hr']
    cases r <;> rfl
  · intro f hf'
    rw [← hf f hf', finish_flag]
  · intro a ha
    rw [← hm a ha, finish_read]

theorem showsZN_of_flags (v : Byte) (t : State σ bus) (hz : t.flag .z = (v == 0)) (hn : t.flag .n = v.msb) :
    ShowsZN v t :=
  ⟨by rw [hz, byte_beq_zero], by rw [hn, byte_msb]⟩

/-- A write keeps every byte but those of its cell. -/
theorem write_keepsMemoryBut (s : State) (a : Addr) (v : Byte) : KeepsMemoryBut [a] s (s.write a v) := by
  intro b hb
  rw [write_read, if_neg (hb a (by simp))]

theorem complement_eq (m : Byte) : m ^^^ 0xFF = ~~~m := by
  rw [show (0xFF : Byte) = BitVec.allOnes 8 from rfl, BitVec.xor_allOnes]

/-- The adder on the complement of an operand is the subtraction with borrow (R142's closed form). -/
theorem addWithCarry_complement (m : Byte) (s : State σ bus) :
    (addWithCarry (m ^^^ 0xFF) s).a.toNat = (s.a.toNat + 256 - m.toNat - (1 - (s.flag .c).toNat)) % 256 ∧
    (addWithCarry (m ^^^ 0xFF) s).flag .c = decide (m.toNat + (1 - (s.flag .c).toNat) ≤ s.a.toNat) ∧
    (addWithCarry (m ^^^ 0xFF) s).flag .v =
      (s.a.msb != m.msb && (addWithCarry (m ^^^ 0xFF) s).a.msb != s.a.msb) := by
  have hm := m.isLt
  have hc : (s.flag .c).toNat ≤ 1 := Bool.toNat_le _
  have hn : (m ^^^ 0xFF).toNat = 255 - m.toNat := by rw [complement_eq, BitVec.toNat_not]
  have hs : (m ^^^ 0xFF).msb = !m.msb := by rw [complement_eq]; simp
  refine ⟨?_, ?_, ?_⟩
  · rw [addWithCarry_a, hn, BitVec.toNat_ofNat, State.carry]
    omega
  · simp only [addWithCarry_flag, hn, State.carry]
    congr 1
    simp only [eq_iff_iff]
    omega
  · simp only [addWithCarry_flag, hs]
    congr 1
    cases s.a.msb <;> cases m.msb <;> rfl

/-- The adder looks at A and P alone. -/
theorem addWithCarry_congr (m : Byte) (s t : State σ bus) (ha : s.a = t.a) (hp : s.p = t.p) :
    (addWithCarry m s).a = (addWithCarry m t).a ∧ (addWithCarry m s).p = (addWithCarry m t).p := by
  have hc : s.carry = t.carry := by simp [State.carry, flag_congr s t hp]
  have h : (addWithCarry m s).a = (addWithCarry m t).a := by rw [addWithCarry_a, addWithCarry_a, ha, hc]
  refine ⟨h, status_ext _ _ fun f => ?_⟩
  show State.flag _ f = State.flag _ f
  rw [addWithCarry_flag, addWithCarry_flag, h, ha, hc]
  cases f <;> simp only [flag_congr s t hp]

theorem difference_eq (a m : Byte) : BitVec.ofNat 8 (a.toNat + 256 - m.toNat) = a - m := by
  apply BitVec.eq_of_toNat_eq
  have := m.isLt
  have := a.isLt
  rw [BitVec.toNat_ofNat, BitVec.toNat_sub]
  omega

/-! The shifted bytes as numbers (R160). -/

theorem aslF_value (m : Byte) (s : State σ bus) : (aslF m s).1.toNat = m.toNat * 2 % 256 := by
  simp [aslF, shifted, Nat.shiftLeft_eq]

theorem lsrF_value (m : Byte) (s : State σ bus) : (lsrF m s).1.toNat = m.toNat / 2 := by
  simp [lsrF, shifted, Nat.shiftRight_eq_div_pow]

theorem rolF_value (m : Byte) (s : State σ bus) : (rolF m s).1.toNat = m.toNat * 2 % 256 + (s.flag .c).toNat := by
  have hc : (s.flag .c).toNat ≤ 1 := Bool.toNat_le _
  have hm := m.isLt
  simp only [rolF, shifted, State.carry, BitVec.toNat_add, BitVec.toNat_shiftLeft, BitVec.toNat_ofNat,
    Nat.shiftLeft_eq]
  omega

theorem rorF_value (m : Byte) (s : State σ bus) : (rorF m s).1.toNat = m.toNat / 2 + 128 * (s.flag .c).toNat := by
  have hc : (s.flag .c).toNat ≤ 1 := Bool.toNat_le _
  have hm := m.isLt
  simp only [rorF, shifted, State.carry, BitVec.toNat_add, BitVec.toNat_ushiftRight, BitVec.toNat_ofNat,
    Nat.shiftRight_eq_div_pow]
  omega

theorem incF_value (m : Byte) (s : State σ bus) : (incF m s).1.toNat = (m.toNat + 1) % 256 := by simp [incF]

theorem decF_value (m : Byte) (s : State σ bus) : (decF m s).1.toNat = (m.toNat + 255) % 256 := by
  have hm := m.isLt
  show (m - 1).toNat = _
  rw [BitVec.toNat_sub]
  simp
  omega

/-- The flags a shift or a count leaves: those of its result, and C where it is a shift. -/
theorem aslF_flag (m : Byte) (s : State σ bus) (g : Flag) : (aslF m s).2.flag g =
    if g = .n then (aslF m s).1.msb else if g = .z then (aslF m s).1 == 0 else if g = .c then m.getLsbD 7
      else s.flag g := shifted_flag _ _ s g

theorem lsrF_flag (m : Byte) (s : State σ bus) (g : Flag) : (lsrF m s).2.flag g =
    if g = .n then (lsrF m s).1.msb else if g = .z then (lsrF m s).1 == 0 else if g = .c then m.getLsbD 0
      else s.flag g := shifted_flag _ _ s g

theorem rolF_flag (m : Byte) (s : State σ bus) (g : Flag) : (rolF m s).2.flag g =
    if g = .n then (rolF m s).1.msb else if g = .z then (rolF m s).1 == 0 else if g = .c then m.getLsbD 7
      else s.flag g := shifted_flag _ _ s g

theorem rorF_flag (m : Byte) (s : State σ bus) (g : Flag) : (rorF m s).2.flag g =
    if g = .n then (rorF m s).1.msb else if g = .z then (rorF m s).1 == 0 else if g = .c then m.getLsbD 0
      else s.flag g := shifted_flag _ _ s g

theorem incF_flag (m : Byte) (s : State σ bus) (g : Flag) : (incF m s).2.flag g =
    if g = .n then (incF m s).1.msb else if g = .z then (incF m s).1 == 0 else s.flag g := setZN_flag _ s g

theorem decF_flag (m : Byte) (s : State σ bus) (g : Flag) : (decF m s).2.flag g =
    if g = .n then (decF m s).1.msb else if g = .z then (decF m s).1 == 0 else s.flag g := setZN_flag _ s g

/-- The flags after Modify are those of its operation, on any bus. -/
theorem modify_flag (m : MemRef) (f : Byte → State σ bus → Byte × State σ bus) (s : State σ bus) (g : Flag) :
    (modify m f s).2.flag g = (f (memValue m s) (afterMem m s)).2.flag g := rfl

/-- A read after Modify (R118): the byte at EA is the new one, every other cell reads as before. -/
theorem modify_read (m : MemRef) (f : Byte → State → Byte × State) (s : State)
    (hf : ∀ v s, (f v s).2.mem = s.mem) (b : Addr) :
    (modify m f s).2.read b = if cellOf b = cellOf (ea m s) then (modify m f s).1 else s.read b := by
  rw [modify_default, write_read, read_congr _ _ (hf _ s)]

theorem modify_value (m : MemRef) (f : Byte → State → Byte × State) (s : State) :
    (modify m f s).1 = (f (s.read (ea m s)) s).1 := by rw [modify_default]

theorem modify_state_flag (m : MemRef) (f : Byte → State → Byte × State) (s : State) (g : Flag) :
    (modify m f s).2.flag g = (f (s.read (ea m s)) s).2.flag g := by rw [modify_default, write_flag]

/-- An operation that writes P alone beside giving a byte: the shifts and the counts. -/
def WritesStatusOnly (f : Byte → State σ bus → Byte × State σ bus) : Prop :=
  ∀ v s, (f v s).2 = { s with p := (f v s).2.p }

theorem aslF_status : WritesStatusOnly (bus := bus) aslF := fun _ _ => rfl
theorem lsrF_status : WritesStatusOnly (bus := bus) lsrF := fun _ _ => rfl
theorem rolF_status : WritesStatusOnly (bus := bus) rolF := fun _ _ => rfl
theorem rorF_status : WritesStatusOnly (bus := bus) rorF := fun _ _ => rfl
theorem incF_status : WritesStatusOnly (bus := bus) incF := fun _ _ => rfl
theorem decF_status : WritesStatusOnly (bus := bus) decF := fun _ _ => rfl

/-- Modify on such an operation writes P and one byte of the store, and nothing else. -/
theorem modify_state (m : MemRef) (f : Byte → State → Byte × State) (hf : WritesStatusOnly f) (s : State) :
    (modify m f s).2 =
      ({ s with p := (f (s.read (ea m s)) s).2.p } : State).write (ea m s) (f (s.read (ea m s)) s).1 := by
  rw [modify_default, ← hf]

/-- The byte at EA after Modify. -/
theorem modify_read_ea (m : MemRef) (f : Byte → State → Byte × State) (hf : WritesStatusOnly f) (s : State) :
    (modify m f s).2.read (ea m s) = (f (s.read (ea m s)) s).1 := by
  rw [modify_read _ _ _ (fun v s => by rw [hf]), if_pos rfl, modify_value]

/-- Every other byte after Modify. -/
theorem modify_keepsMemoryBut (m : MemRef) (f : Byte → State → Byte × State) (hf : WritesStatusOnly f)
    (s : State) : KeepsMemoryBut [ea m s] s (modify m f s).2 := by
  intro b hb
  rw [modify_read _ _ _ (fun v s => by rw [hf]), if_neg (hb _ (by simp))]

/-- The frame of an instruction that is Modify alone. -/
theorem storingStep_modify (i : Instr) (m : MemRef) (f : Byte → State → Byte × State)
    (hf : WritesStatusOnly f) (c : Bool) (fs : List Flag) (s : State)
    (h : KeepsFlagsBut fs s (f (s.read (ea m s)) s).2) :
    StoringStep i c [] fs [ea m s] s (finish i c (modify m f s).2) := by
  have hm := modify_state m f hf s
  apply storingStep_finish
  · rw [hm]; rfl
  · rw [hm]; rfl
  · intro r _
    rw [hm]
    cases r <;> rfl
  · intro g hg
    rw [modify_state_flag, h g hg]
  · exact modify_keepsMemoryBut m f hf s
  · rw [hm]; exact ⟨rfl, rfl⟩

/-- Everything after Modify on memory, on any bus (R61, R118): P, and the bus after the reads and one write. -/
theorem modify_fields (m : MemRef) (f : Byte → State σ bus → Byte × State σ bus) (hf : WritesStatusOnly f)
    (s : State σ bus) :
    let t := (modify m f s).2
    let r := f (memValue m s) (afterMem m s)
    t.a = s.a ∧ t.x = s.x ∧ t.y = s.y ∧ t.sp = s.sp ∧ t.pc = s.pc ∧ t.cyc = s.cyc ∧
    t.started = s.started ∧ t.cfg = s.cfg ∧ t.p = r.2.p ∧ t.mem = bus.write (afterMem m s).mem (ea m s) r.1 := by
  have h : (modify m f s).2 =
      ({ afterMem m s with p := (f (memValue m s) (afterMem m s)).2.p } : State σ bus).write (ea m s)
        (f (memValue m s) (afterMem m s)).1 :=
    congrArg (fun u : State σ bus => u.write (ea m s) (f (memValue m s) (afterMem m s)).1) (hf _ _)
  simp only [h, write_a, write_x, write_y, write_sp, write_pc, write_cyc, write_started, write_cfg, write_p,
    write_mem, afterMem_a, afterMem_x, afterMem_y, afterMem_sp, afterMem_pc, afterMem_cyc, afterMem_started,
    afterMem_cfg, and_self]

/-- Everything after Modify on the accumulator, on any bus: the bus is not reached. -/
theorem modifyAcc_fields (f : Byte → State σ bus → Byte × State σ bus) (hf : WritesStatusOnly f)
    (s : State σ bus) :
    let t := modifyAcc f s
    t.a = (f s.a s).1 ∧ t.x = s.x ∧ t.y = s.y ∧ t.sp = s.sp ∧ t.pc = s.pc ∧ t.cyc = s.cyc ∧
    t.started = s.started ∧ t.cfg = s.cfg ∧ t.p = (f s.a s).2.p ∧ t.mem = s.mem := by
  have h : modifyAcc f s = { s with a := (f s.a s).1, p := (f s.a s).2.p } :=
    congrArg (fun u : State σ bus => ({ u with a := (f s.a s).1 } : State σ bus)) (hf s.a s)
  rw [h]
  exact ⟨rfl, rfl, rfl, rfl, rfl, rfl, rfl, rfl, rfl, rfl⟩

/-- A branch, taken or not, writes PC and CYC alone (R180), on any bus. -/
theorem branch_fields (i : Instr) (cond : Bool) (off : Byte) (s : State σ bus) :
    let t := branch i cond off s
    t.a = s.a ∧ t.x = s.x ∧ t.y = s.y ∧ t.sp = s.sp ∧ t.p = s.p ∧ t.mem = s.mem ∧
    t.started = s.started ∧ t.cfg = s.cfg ∧
    t.pc = (if cond then branchTarget off s else s.pc + BitVec.ofNat 16 i.length) ∧
    t.cyc = s.cyc + BitVec.ofNat 64 (if cond then branchExtra off s else 0) +
      BitVec.ofNat 64 (cycles i false) := by
  cases cond
  · refine ⟨rfl, rfl, rfl, rfl, rfl, rfl, rfl, rfl, rfl, ?_⟩
    simp [branch]
  · exact ⟨rfl, rfl, rfl, rfl, rfl, rfl, rfl, rfl, rfl, rfl⟩

end Sys2Proof.Machine
end

