-- ==== Sys2Proof/Laws/AnyBus.lean ====
section
/-! SUPPORT. The machine on any bus (20_memory.md R50, R56, R62): the default mapper's step is the general one, every operation reaches the bus through its accesses, and two machines on buses that agree stay together. -/

namespace Sys2Proof.Machine

variable {σ τ : Type} {bus : Bus σ} {bus' : Bus τ}

/-! On the default mapper (R55) the general machine is the one of exec and step. -/

theorem execOver_default (i : Instr) (s : State) : execOver i s = exec i s := by cases i <;> rfl

theorem stepOver_default (s : State) : stepOver s = step s := by
  unfold stepOver step
  rw [execOver_default]

theorem hostStep_default (s : State) : hostStep s =
    match step s with
    | .next t => (t, .ok)
    | .fault f => (s, .fault f)
    | .refused r => (s, .refused r) := by
  unfold hostStep
  rw [stepOver_default]
  cases step s <;> simp

/-! The bus as the accesses leave it (R50, R61). -/

theorem replay_append (l k : List BusAccess) (m : σ) : replay bus (l ++ k) m = replay bus k (replay bus l m) := by
  simp [replay, List.foldl_append]

theorem replay_pointerReads (m : MemRef) (s : State σ bus) :
    replay bus (pointerReads m s) s.mem = (afterPointer m s).mem := by
  cases m <;> rfl

theorem replay_readAccesses (m : MemRef) (s : State σ bus) :
    replay bus (readAccesses m s) s.mem = (afterMem m s).mem := by
  rw [readAccesses, replay_append, replay_pointerReads]
  rfl

theorem replay_operandAccesses (o : Operand) (s : State σ bus) :
    replay bus (operandAccesses o s) s.mem = (afterOperand o s).mem := by
  cases o
  · rfl
  · exact replay_readAccesses _ s

theorem replay_storeAccesses (m : MemRef) (v : Byte) (s : State σ bus) :
    replay bus (storeAccesses m v s) s.mem = (store m v s).mem := by
  rw [storeAccesses, replay_append, replay_pointerReads]
  rfl

theorem replay_modifyAccesses (m : MemRef) (f : Byte → State σ bus → Byte × State σ bus)
    (hf : WritesStatusOnly f) (s : State σ bus) :
    replay bus (modifyAccesses m f s) s.mem = (modify m f s).2.mem := by
  rw [modifyAccesses, replay_append, replay_pointerReads]
  show bus.write (afterMem m s).mem _ _ = bus.write (f (memValue m s) (afterMem m s)).2.mem _ _
  rw [hf (memValue m s) (afterMem m s)]

theorem replay_targetAccesses (t : Target) (f : Byte → State σ bus → Byte × State σ bus)
    (hf : WritesStatusOnly f) (s : State σ bus) :
    replay bus (targetAccesses t f s) s.mem = (modifyTarget t f s).mem := by
  cases t with
  | acc => exact (congrArg State.mem (hf s.a s)).symm
  | mem m => exact replay_modifyAccesses m f hf s

theorem replay_push16Accesses (w : Addr) (s : State σ bus) :
    replay bus (push16Accesses s.cfg.stackWordOrder w s.sp) s.mem = (push16 w s).mem := by
  unfold push16Accesses push16
  cases s.cfg.stackWordOrder <;> rfl

theorem replay_reads (n : Nat) (a : Addr) (s : State σ bus) :
    replay bus ((List.range n).map (fun k => BusAccess.read (a + BitVec.ofNat 16 k))) s.mem =
      (s.afterReads n a).mem := by
  induction n generalizing a s with
  | zero => rfl
  | succ n ih =>
    rw [List.range_succ_eq_map, List.map_cons, List.map_map]
    have e : (fun k => BusAccess.read (a + BitVec.ofNat 16 k)) ∘ Nat.succ =
        fun k => BusAccess.read (a + 1 + BitVec.ofNat 16 k) := by
      funext k
      simp only [Function.comp_apply, Nat.succ_eq_add_one, BitVec.ofNat_add, BitVec.add_assoc,
        BitVec.add_comm (BitVec.ofNat 16 k)]
      rfl
    rw [e]
    simpa [replay, State.afterReads] using ih (a + 1) (s.afterRead a)

theorem replay_fetchAccesses (s : State σ bus) :
    replay bus (fetchAccesses (fetchInstr s) s) s.mem = (afterFetch s).mem := replay_reads _ _ s

/-! Two machines on buses that agree: they stay together through every shared operation, which gives both the
same values. -/

/-- They agree in all but the bus, and the states of their buses are related. -/
def Together (R : σ → τ → Prop) (s : State σ bus) (t : State τ bus') : Prop :=
  SameProcessor s t ∧ R s.mem t.mem

/-- The same machine on another bus. -/
def State.onBus (s : State σ bus) (bus' : Bus τ) (n : τ) : State τ bus' where
  a := s.a
  x := s.x
  y := s.y
  sp := s.sp
  pc := s.pc
  p := s.p
  cyc := s.cyc
  mem := n
  started := s.started
  cfg := s.cfg

theorem onBus_together {R : σ → τ → Prop} (s : State σ bus) {n : τ} (h : R s.mem n) :
    Together R s (s.onBus bus' n) :=
  ⟨⟨rfl, rfl, rfl, rfl, rfl, rfl, rfl, rfl, rfl⟩, h⟩

variable {R : σ → τ → Prop} {s : State σ bus} {t : State τ bus'}

theorem Together.exists (h : Together R s t) : ∃ n, t = s.onBus bus' n ∧ R s.mem n := by
  obtain ⟨⟨ha, hx, hy, hsp, hpc, hp, hcyc, hst, hcfg⟩, hR⟩ := h
  refine ⟨t.mem, ?_, hR⟩
  cases t
  simp only at ha hx hy hsp hpc hp hcyc hst hcfg
  subst ha hx hy hsp hpc hp hcyc hst hcfg
  rfl

section agree
variable (hb : BusesAgree bus bus' R)
include hb

theorem Together.read (h : Together R s t) (a : Addr) : t.read a = s.read a := ((hb _ _ h.2).1 a).1

theorem Together.afterRead (h : Together R s t) (a : Addr) : Together R (s.afterRead a) (t.afterRead a) :=
  ⟨h.1, ((hb _ _ h.2).1 a).2⟩

theorem Together.write (h : Together R s t) (a : Addr) (v : Byte) : Together R (s.write a v) (t.write a v) :=
  ⟨h.1, (hb _ _ h.2).2 a v⟩

theorem Together.afterReads (h : Together R s t) (n : Nat) (a : Addr) :
    Together R (s.afterReads n a) (t.afterReads n a) := by
  induction n generalizing a s t with
  | zero => exact h
  | succ n ih => exact ih (h.afterRead hb a) (a + 1)

theorem Together.read16 (h : Together R s t) (a : Addr) : t.read16 a = s.read16 a := by
  unfold State.read16
  rw [h.read hb, (h.afterRead hb a).read hb]

theorem Together.afterRead16 (h : Together R s t) (a : Addr) : Together R (s.afterRead16 a) (t.afterRead16 a) :=
  (h.afterRead hb a).afterRead hb (a + 1)

theorem Together.zpRead16 (h : Together R s t) (p : Byte) : t.zpRead16 p = s.zpRead16 p := by
  unfold State.zpRead16
  rw [h.read hb, (h.afterRead hb _).read hb]

theorem Together.afterZpRead16 (h : Together R s t) (p : Byte) :
    Together R (s.afterZpRead16 p) (t.afterZpRead16 p) :=
  (h.afterRead hb _).afterRead hb _

theorem Together.baseAddr (h : Together R s t) (m : MemRef) : baseAddr m t = baseAddr m s := by
  have hx := h.1.2.1
  have hy := h.1.2.2.1
  cases m <;> simp only [Machine.baseAddr, hx, hy] <;> exact h.zpRead16 hb _

theorem Together.afterPointer (h : Together R s t) (m : MemRef) :
    Together R (afterPointer m s) (afterPointer m t) := by
  have hx := h.1.2.1
  cases m <;> simp only [Machine.afterPointer, hx] <;> first | exact h | exact h.afterZpRead16 hb _

omit hb in
theorem Together.indexOf (h : Together R s t) (m : MemRef) : indexOf m t = indexOf m s := by
  cases m <;> first | rfl | exact h.1.2.1 | exact h.1.2.2.1

theorem Together.ea (h : Together R s t) (m : MemRef) : ea m t = ea m s := by
  unfold Machine.ea
  rw [h.baseAddr hb, h.indexOf]

theorem Together.crosses (h : Together R s t) (m : MemRef) : crosses m t = crosses m s := by
  unfold Machine.crosses
  rw [h.baseAddr hb, h.indexOf]

theorem Together.memValue (h : Together R s t) (m : MemRef) : memValue m t = memValue m s := by
  unfold Machine.memValue
  rw [(h.afterPointer hb m).read hb, h.ea hb]

theorem Together.afterMem (h : Together R s t) (m : MemRef) : Together R (afterMem m s) (afterMem m t) := by
  unfold Machine.afterMem
  rw [h.ea hb]
  exact (h.afterPointer hb m).afterRead hb _

theorem Together.operandValue (h : Together R s t) (o : Operand) : operandValue o t = operandValue o s := by
  cases o
  · rfl
  · exact h.memValue hb _

theorem Together.afterOperand (h : Together R s t) (o : Operand) :
    Together R (afterOperand o s) (afterOperand o t) := by
  cases o
  · exact h
  · exact h.afterMem hb _

theorem Together.operandCrosses (h : Together R s t) (o : Operand) :
    operandCrosses o t = operandCrosses o s := by
  cases o
  · rfl
  · exact h.crosses hb _

theorem Together.store (h : Together R s t) (m : MemRef) (v : Byte) :
    Together R (store m v s) (store m v t) := by
  unfold Machine.store
  rw [h.ea hb]
  exact (h.afterPointer hb m).write hb _ _

theorem Together.afterDiscardedOperand (h : Together R s t) (m : MemRef) :
    Together R (afterDiscardedOperand m s) (afterDiscardedOperand m t) := by
  unfold Machine.afterDiscardedOperand
  rw [h.1.2.2.2.2.2.2.2.2]
  split
  · exact h.afterMem hb m
  · exact h.afterPointer hb m

theorem Together.push (h : Together R s t) (v : Byte) : Together R (push v s) (push v t) := by
  obtain ⟨n, rfl, hR⟩ := h.exists
  exact ⟨⟨rfl, rfl, rfl, rfl, rfl, rfl, rfl, rfl, rfl⟩, (hb _ _ hR).2 _ _⟩

theorem Together.pull (h : Together R s t) : (pull t).1 = (pull s).1 ∧ Together R (pull s).2 (pull t).2 := by
  obtain ⟨n, rfl, hR⟩ := h.exists
  exact ⟨((hb _ _ hR).1 _).1, ⟨rfl, rfl, rfl, rfl, rfl, rfl, rfl, rfl, rfl⟩, ((hb _ _ hR).1 _).2⟩

theorem Together.push16 (h : Together R s t) (w : Addr) : Together R (push16 w s) (push16 w t) := by
  unfold Machine.push16
  rw [h.1.2.2.2.2.2.2.2.2]
  cases s.cfg.stackWordOrder <;> exact (h.push hb _).push hb _

theorem Together.pull16 (h : Together R s t) :
    (pull16 t).1 = (pull16 s).1 ∧ Together R (pull16 s).2 (pull16 t).2 := by
  have first := h.pull hb
  have second := first.2.pull hb
  refine ⟨?_, second.2⟩
  unfold Machine.pull16
  simp only [first.1, second.1, h.1.2.2.2.2.2.2.2.2]

end agree

/-! Updates of the processor alone. -/

theorem Together.setFlag (h : Together R s t) (f : Flag) (b : Bool) :
    Together R (s.setFlag f b) (t.setFlag f b) := by
  obtain ⟨n, rfl, hR⟩ := h.exists
  exact onBus_together _ hR

theorem Together.setZN (h : Together R s t) (v : Byte) :
    Together R (Machine.setZN v s) (Machine.setZN v t) := by
  obtain ⟨n, rfl, hR⟩ := h.exists
  exact onBus_together _ hR

theorem Together.addWithCarry (h : Together R s t) (v : Byte) :
    Together R (Machine.addWithCarry v s) (Machine.addWithCarry v t) := by
  obtain ⟨n, rfl, hR⟩ := h.exists
  exact onBus_together _ hR

theorem Together.compare (h : Together R s t) (r v : Byte) :
    Together R (Machine.compare r v s) (Machine.compare r v t) := by
  obtain ⟨n, rfl, hR⟩ := h.exists
  exact onBus_together _ hR

theorem Together.bitTest (h : Together R s t) (v : Byte) :
    Together R (Machine.bitTest v s) (Machine.bitTest v t) := by
  obtain ⟨n, rfl, hR⟩ := h.exists
  exact onBus_together _ hR

theorem Together.andA (h : Together R s t) (v : Byte) : Together R (Machine.andA v s) (Machine.andA v t) := by
  obtain ⟨n, rfl, hR⟩ := h.exists
  exact onBus_together _ hR

theorem Together.orA (h : Together R s t) (v : Byte) : Together R (Machine.orA v s) (Machine.orA v t) := by
  obtain ⟨n, rfl, hR⟩ := h.exists
  exact onBus_together _ hR

theorem Together.xorA (h : Together R s t) (v : Byte) : Together R (Machine.xorA v s) (Machine.xorA v t) := by
  obtain ⟨n, rfl, hR⟩ := h.exists
  exact onBus_together _ hR

theorem Together.loadA (h : Together R s t) (v : Byte) :
    Together R (Machine.loadA v s) (Machine.loadA v t) := by
  obtain ⟨n, rfl, hR⟩ := h.exists
  exact onBus_together _ hR

theorem Together.loadX (h : Together R s t) (v : Byte) :
    Together R (Machine.loadX v s) (Machine.loadX v t) := by
  obtain ⟨n, rfl, hR⟩ := h.exists
  exact onBus_together _ hR

theorem Together.loadY (h : Together R s t) (v : Byte) :
    Together R (Machine.loadY v s) (Machine.loadY v t) := by
  obtain ⟨n, rfl, hR⟩ := h.exists
  exact onBus_together _ hR

theorem Together.setPC (h : Together R s t) (a : Addr) :
    Together R ({ s with pc := a } : State σ bus) ({ t with pc := a } : State τ bus') := by
  obtain ⟨n, rfl, hR⟩ := h.exists
  exact onBus_together _ hR

theorem Together.setSP (h : Together R s t) (v : Byte) :
    Together R ({ s with sp := v } : State σ bus) ({ t with sp := v } : State τ bus') := by
  obtain ⟨n, rfl, hR⟩ := h.exists
  exact onBus_together _ hR

theorem Together.addCycles (h : Together R s t) (k : Nat) :
    Together R (Machine.addCycles k s) (Machine.addCycles k t) := by
  obtain ⟨n, rfl, hR⟩ := h.exists
  exact onBus_together _ hR

theorem Together.finish (h : Together R s t) (i : Instr) (c : Bool) :
    Together R (Machine.finish i c s) (Machine.finish i c t) := by
  obtain ⟨n, rfl, hR⟩ := h.exists
  exact onBus_together _ hR

theorem Together.finishAt (h : Together R s t) (i : Instr) :
    Together R (Machine.finishAt i s) (Machine.finishAt i t) := by
  obtain ⟨n, rfl, hR⟩ := h.exists
  exact onBus_together _ hR

theorem Together.branch (h : Together R s t) (i : Instr) (c : Bool) (off : Byte) :
    Together R (Machine.branch i c off s) (Machine.branch i c off t) := by
  obtain ⟨n, rfl, hR⟩ := h.exists
  cases c
  · exact onBus_together _ hR
  · exact onBus_together _ hR

theorem Together.restoreStatus (h : Together R s t) (v : Byte) :
    Together R (restoreStatus v s) (restoreStatus v t) := by
  obtain ⟨n, rfl, hR⟩ := h.exists
  unfold Machine.restoreStatus
  rw [show (s.onBus bus' n).cfg = s.cfg from rfl]
  cases s.cfg.pullBPolicy <;> exact onBus_together _ hR

/-! The functions of the read-modify-write class. -/

/-- The function and its result are the same on both buses. -/
def SameModifier (R : σ → τ → Prop) (f : Byte → State σ bus → Byte × State σ bus)
    (g : Byte → State τ bus' → Byte × State τ bus') : Prop :=
  ∀ v s t, Together R s t → (g v t).1 = (f v s).1 ∧ Together R (f v s).2 (g v t).2

theorem aslF_sameModifier : SameModifier (bus := bus) (bus' := bus') R aslF aslF := by
  intro v s t h
  obtain ⟨n, rfl, hR⟩ := h.exists
  exact ⟨rfl, onBus_together _ hR⟩

theorem lsrF_sameModifier : SameModifier (bus := bus) (bus' := bus') R lsrF lsrF := by
  intro v s t h
  obtain ⟨n, rfl, hR⟩ := h.exists
  exact ⟨rfl, onBus_together _ hR⟩

theorem rolF_sameModifier : SameModifier (bus := bus) (bus' := bus') R rolF rolF := by
  intro v s t h
  obtain ⟨n, rfl, hR⟩ := h.exists
  exact ⟨rfl, onBus_together _ hR⟩

theorem rorF_sameModifier : SameModifier (bus := bus) (bus' := bus') R rorF rorF := by
  intro v s t h
  obtain ⟨n, rfl, hR⟩ := h.exists
  exact ⟨rfl, onBus_together _ hR⟩

theorem incF_sameModifier : SameModifier (bus := bus) (bus' := bus') R incF incF := by
  intro v s t h
  obtain ⟨n, rfl, hR⟩ := h.exists
  exact ⟨rfl, onBus_together _ hR⟩

theorem decF_sameModifier : SameModifier (bus := bus) (bus' := bus') R decF decF := by
  intro v s t h
  obtain ⟨n, rfl, hR⟩ := h.exists
  exact ⟨rfl, onBus_together _ hR⟩

theorem Together.modify {f : Byte → State σ bus → Byte × State σ bus}
    {g : Byte → State τ bus' → Byte × State τ bus'}
    (hb : BusesAgree bus bus' R) (hf : SameModifier R f g) (h : Together R s t) (m : MemRef) :
    (modify m g t).1 = (modify m f s).1 ∧ Together R (modify m f s).2 (modify m g t).2 := by
  have k := hf (Machine.memValue m s) _ _ (h.afterMem hb m)
  unfold Machine.modify
  rw [h.memValue hb, h.ea hb]
  refine ⟨k.1, ?_⟩
  simp only [k.1]
  exact k.2.write hb _ _

theorem Together.modifyTarget {f : Byte → State σ bus → Byte × State σ bus}
    {g : Byte → State τ bus' → Byte × State τ bus'}
    (hb : BusesAgree bus bus' R) (hf : SameModifier R f g) (h : Together R s t) (o : Target) :
    Together R (modifyTarget o f s) (modifyTarget o g t) := by
  cases o with
  | mem m => exact (h.modify hb hf m).2
  | acc =>
    have k := hf s.a s t h
    have ha := h.1.1
    unfold Machine.modifyTarget modifyAcc
    simp only [ha, k.1]
    obtain ⟨n, e, hR⟩ := k.2.exists
    rw [e]
    exact onBus_together _ hR

theorem Together.vectoredEntry (hb : BusesAgree bus bus' R) (h : Together R s t) (ret : Addr) (v : Byte) (b : Bool)
    (a : Addr) : Together R (vectoredEntry ret v b a s) (vectoredEntry ret v b a t) := by
  have k := ((h.push16 hb ret).push hb v).setFlag .i true
  unfold Machine.vectoredEntry
  cases b with
  | false =>
    simp only [k.read16 hb, Bool.false_eq_true, if_false]
    exact (k.afterRead16 hb a).setPC _
  | true =>
    simp only [(k.setFlag .b true).read16 hb, if_true]
    exact ((k.setFlag .b true).afterRead16 hb a).setPC _

theorem Together.vectoredReturn (hb : BusesAgree bus bus' R) (h : Together R s t) :
    Together R (vectoredReturn s) (vectoredReturn t) := by
  have k := h.pull hb
  have r := (k.2.restoreStatus (Machine.pull s).1).pull16 hb
  unfold Machine.vectoredReturn
  simp only [k.1, r.1]
  exact r.2.setPC _

theorem Together.resetMachine (hb : BusesAgree bus bus' R) (h : Together R s t) (override : Option Addr) :
    Together R (resetMachine override s) (resetMachine override t) := by
  have e := h.read16 hb resetVector
  have k : Together R (afterVector override s) (afterVector override t) := by
    cases override
    · exact h.afterRead16 hb _
    · exact h
  unfold Machine.resetMachine
  rw [e]
  exact ⟨⟨rfl, rfl, rfl, rfl, rfl, rfl, rfl, rfl, by simpa using h.1.2.2.2.2.2.2.2.2⟩, k.2⟩

theorem Together.fetchInstr (hb : BusesAgree bus bus' R) (h : Together R s t) : fetchInstr t = fetchInstr s := by
  have k := h.afterRead hb s.pc
  unfold Machine.fetchInstr
  simp only [h.1.2.2.2.2.1, h.1.2.2.2.2.2.2.2.2, h.read hb, k.read hb, (k.afterRead hb _).read hb]

theorem Together.afterFetch (hb : BusesAgree bus bus' R) (h : Together R s t) :
    Together R (afterFetch s) (afterFetch t) := by
  unfold Machine.afterFetch
  rw [h.fetchInstr hb, h.1.2.2.2.2.1]
  exact h.afterReads hb _ _

end Sys2Proof.Machine
end

