-- ==== Sys2Proof/Laws/Decode.lean ====
section
/-! SUPPORT. A statement about every byte from its 16 by 16 cases, the rows and columns of the opcode map. -/

namespace Sys2Proof

/-- Every byte is a high and a low nibble. -/
theorem byte_cases (P : Byte → Prop) (h : ∀ hi lo : BitVec 4, P (hi ++ lo)) (b : Byte) : P b := by
  have e : (b.extractLsb' 4 4 ++ b.setWidth 4 : BitVec 8) = b := by
    apply BitVec.eq_of_toNat_eq
    simp only [BitVec.toNat_append, BitVec.extractLsb'_toNat, BitVec.toNat_setWidth]
    have := b.isLt
    rw [← Nat.shiftLeft_add_eq_or_of_lt (by omega), Nat.shiftLeft_eq, Nat.shiftRight_eq_div_pow]
    omega
  exact e ▸ h (b.extractLsb' 4 4) (b.setWidth 4)

/-- A nibble is one of sixteen. -/
theorem nibble_cases (b : BitVec 4) :
    b = 0 ∨ b = 1 ∨ b = 2 ∨ b = 3 ∨ b = 4 ∨ b = 5 ∨ b = 6 ∨ b = 7 ∨
    b = 8 ∨ b = 9 ∨ b = 10 ∨ b = 11 ∨ b = 12 ∨ b = 13 ∨ b = 14 ∨ b = 15 := by
  revert b
  decide

end Sys2Proof
end

