-- ==== Sys2Proof/Laws/DefaultMapper.lean ====
section
/-! SUPPORT. On the default mapper, where a read changes nothing (20_memory.md R55), the instructions that read memory by their operand: what exec answers, with the reads' states gone. -/

namespace Sys2Proof.Machine

/-- Operand() on the default mapper (R118). -/
theorem operandValue_mem (m : MemRef) (s : State) : operandValue (.mem m) s = s.read (ea m s) :=
  memValue_default m s

theorem operandValue_imm (i : Byte) (s : State) : operandValue (.imm i) s = i := rfl

theorem exec_adc (o : Operand) (s : State) : exec (.adc o) s =
    .next (finish (.adc o) (operandCrosses o s) (addWithCarry (operandValue o s) s)) := by
  show execAdc o s = _
  simp only [execAdc, afterOperand_default]

theorem exec_sbc (o : Operand) (s : State) : exec (.sbc o) s =
    .next (finish (.sbc o) (operandCrosses o s) (addWithCarry (operandValue o s ^^^ 0xFF) s)) := by
  show execSbc o s = _
  simp only [execSbc, afterOperand_default]

theorem exec_cmp (o : Operand) (s : State) : exec (.cmp o) s =
    .next (finish (.cmp o) (operandCrosses o s) (compare s.a (operandValue o s) s)) := by
  show execCmp o s = _
  simp only [execCmp, afterOperand_default]

theorem exec_cpx (o : Operand) (s : State) : exec (.cpx o) s =
    .next (finish (.cpx o) (operandCrosses o s) (compare s.x (operandValue o s) s)) := by
  show execCpx o s = _
  simp only [execCpx, afterOperand_default]

theorem exec_cpy (o : Operand) (s : State) : exec (.cpy o) s =
    .next (finish (.cpy o) (operandCrosses o s) (compare s.y (operandValue o s) s)) := by
  show execCpy o s = _
  simp only [execCpy, afterOperand_default]

theorem exec_and (o : Operand) (s : State) : exec (.and_ o) s =
    .next (finish (.and_ o) (operandCrosses o s) (andA (operandValue o s) s)) := by
  show execAnd o s = _
  simp only [execAnd, afterOperand_default]

theorem exec_ora (o : Operand) (s : State) : exec (.ora o) s =
    .next (finish (.ora o) (operandCrosses o s) (orA (operandValue o s) s)) := by
  show execOra o s = _
  simp only [execOra, afterOperand_default]

theorem exec_eor (o : Operand) (s : State) : exec (.eor o) s =
    .next (finish (.eor o) (operandCrosses o s) (xorA (operandValue o s) s)) := by
  show execEor o s = _
  simp only [execEor, afterOperand_default]

theorem exec_lda (o : Operand) (s : State) : exec (.lda o) s =
    .next (finish (.lda o) (operandCrosses o s) (loadA (operandValue o s) s)) := by
  show execLda o s = _
  simp only [execLda, afterOperand_default]

theorem exec_ldx (o : Operand) (s : State) : exec (.ldx o) s =
    .next (finish (.ldx o) (operandCrosses o s) (loadX (operandValue o s) s)) := by
  show execLdx o s = _
  simp only [execLdx, afterOperand_default]

theorem exec_ldy (o : Operand) (s : State) : exec (.ldy o) s =
    .next (finish (.ldy o) (operandCrosses o s) (loadY (operandValue o s) s)) := by
  show execLdy o s = _
  simp only [execLdy, afterOperand_default]

theorem exec_bit (m : MemRef) (s : State) : exec (.bit m) s =
    .next (finish (.bit m) (crosses m s) (bitTest (s.read (ea m s)) s)) := by
  show execBit m s = _
  simp only [execBit, memValue_default, afterMem_default]

theorem exec_lax (m : MemRef) (s : State) : exec (.lax m) s =
    .next (finish (.lax m) (crosses m s) (setZN (s.read (ea m s)) { s with a := s.read (ea m s), x := s.read (ea m s) })) := by
  show execLax m s = _
  simp only [execLax, memValue_default, afterMem_default]

theorem exec_sta (m : MemRef) (s : State) : exec (.sta m) s =
    .next (finish (.sta m) (crosses m s) (s.write (ea m s) s.a)) := by
  show execSta m s = _
  simp only [execSta, store_default]

theorem exec_stx (m : MemRef) (s : State) : exec (.stx m) s =
    .next (finish (.stx m) (crosses m s) (s.write (ea m s) s.x)) := by
  show execStx m s = _
  simp only [execStx, store_default]

theorem exec_sty (m : MemRef) (s : State) : exec (.sty m) s =
    .next (finish (.sty m) (crosses m s) (s.write (ea m s) s.y)) := by
  show execSty m s = _
  simp only [execSty, store_default]

theorem exec_sax (m : MemRef) (s : State) : exec (.sax m) s =
    .next (finish (.sax m) (crosses m s) (s.write (ea m s) (s.a &&& s.x))) := by
  show execSax m s = _
  simp only [execSax, store_default]

theorem exec_nopMem (op : Byte) (m : MemRef) (s : State) : exec (.nopMem op m) s =
    .next (finish (.nopMem op m) (crosses m s) s) := by
  show execNopMem op m s = _
  simp only [execNopMem, afterDiscardedOperand_default]

end Sys2Proof.Machine
end

