-- ==== Sys2Proof/Laws/Operands.lean ====
section
/-! SUPPORT. The resolver's addresses as numbers (40_fetch_addressing.md R109 to R114). -/

namespace Sys2Proof.Machine

/-- The EA is the base plus the index modulo 65536. -/
theorem ea_toNat (m : MemRef) (s : State) :
    (ea m s).toNat = ((baseAddr m s).toNat + (indexOf m s).toNat) % 65536 := by
  rw [ea, BitVec.toNat_add, zeroPage_toNat]

/-- A byte address is below 256. -/
theorem zeroPage_lt (b : Byte) : (zeroPage b).toNat < 256 := by
  rw [zeroPage_toNat]
  exact b.isLt

/-- The word at a page-zero pointer as a number (R13). -/
theorem zpRead16_toNat (p : Byte) (s : State) :
    (s.zpRead16 p).toNat = (s.read (zeroPage (p + 1))).toNat * 256 + (s.read (zeroPage p)).toNat :=
  w16_toNat _ _

/-- The page test is whether the low byte's sum carries (R117). -/
theorem crosses_eq (m : MemRef) (s : State) :
    crosses m s = decide (255 < (baseAddr m s).toNat % 256 + (indexOf m s).toNat) := by
  rw [crosses, lo8_toNat]

/-- The page test is false in the modes that add no index to a base. -/
theorem crosses_of_no_index (m : MemRef) (s : State) (h : indexOf m s = 0) : crosses m s = false := by
  rw [crosses_eq, h, decide_eq_false_iff_not]
  have : (0 : Byte).toNat = 0 := rfl
  omega

end Sys2Proof.Machine
end

