-- ==== Sys2Proof/Laws/PerInstr.lean ====
section
/-! SUPPORT. Two families of per-instruction lemmas about the encoder: an instruction has an encoding exactly when it is well-formed, and the encoding has the instruction's length (R80, R84, R85). -/

namespace Sys2Proof.Laws

/-- The encoding has as many bytes as the mode says, if its operand bytes do. -/
theorem encode_length (i : Instr) (h : i.operandBytes.length + 1 = i.length) (bytes : List Byte)
    (he : encode i = some bytes) : bytes.length = i.length := by
  obtain ⟨op, -, rfl⟩ := Option.map_eq_some_iff.mp he
  simpa using h

end Sys2Proof.Laws

namespace Sys2Proof.Laws.EncodeDefined

/-- An instruction has an encoding exactly when it is well-formed. -/
def Statement (i : Instr) : Prop := i.wf = (encode i).isSome

theorem adc (o : Operand) : Statement (.adc o) := by
  rcases o with _ | m
  · rfl
  · cases m <;> rfl
theorem sbc (o : Operand) : Statement (.sbc o) := by
  rcases o with _ | m
  · rfl
  · cases m <;> rfl
theorem cmp (o : Operand) : Statement (.cmp o) := by
  rcases o with _ | m
  · rfl
  · cases m <;> rfl
theorem cpx (o : Operand) : Statement (.cpx o) := by
  rcases o with _ | m
  · rfl
  · cases m <;> rfl
theorem cpy (o : Operand) : Statement (.cpy o) := by
  rcases o with _ | m
  · rfl
  · cases m <;> rfl
theorem asl (t : Target) : Statement (.asl t) := by
  rcases t with _ | m
  · rfl
  · cases m <;> rfl
theorem lsr (t : Target) : Statement (.lsr t) := by
  rcases t with _ | m
  · rfl
  · cases m <;> rfl
theorem rol (t : Target) : Statement (.rol t) := by
  rcases t with _ | m
  · rfl
  · cases m <;> rfl
theorem ror (t : Target) : Statement (.ror t) := by
  rcases t with _ | m
  · rfl
  · cases m <;> rfl
theorem and_ (o : Operand) : Statement (.and_ o) := by
  rcases o with _ | m
  · rfl
  · cases m <;> rfl
theorem ora (o : Operand) : Statement (.ora o) := by
  rcases o with _ | m
  · rfl
  · cases m <;> rfl
theorem eor (o : Operand) : Statement (.eor o) := by
  rcases o with _ | m
  · rfl
  · cases m <;> rfl
theorem bit (m : MemRef) : Statement (.bit m) := by cases m <;> rfl
theorem bcc (off : Byte) : Statement (.bcc off) := rfl
theorem bcs (off : Byte) : Statement (.bcs off) := rfl
theorem beq (off : Byte) : Statement (.beq off) := rfl
theorem bne (off : Byte) : Statement (.bne off) := rfl
theorem bmi (off : Byte) : Statement (.bmi off) := rfl
theorem bpl (off : Byte) : Statement (.bpl off) := rfl
theorem bvc (off : Byte) : Statement (.bvc off) := rfl
theorem bvs (off : Byte) : Statement (.bvs off) := rfl
theorem jmp (l h : Byte) : Statement (.jmp l h) := rfl
theorem jmpInd (l h : Byte) : Statement (.jmpInd l h) := rfl
theorem jsr (l h : Byte) : Statement (.jsr l h) := rfl
theorem rts : Statement .rts := rfl
theorem brk : Statement .brk := rfl
theorem rti : Statement .rti := rfl
theorem php : Statement .php := rfl
theorem plp : Statement .plp := rfl
theorem pha : Statement .pha := rfl
theorem pla : Statement .pla := rfl
theorem lda (o : Operand) : Statement (.lda o) := by
  rcases o with _ | m
  · rfl
  · cases m <;> rfl
theorem ldx (o : Operand) : Statement (.ldx o) := by
  rcases o with _ | m
  · rfl
  · cases m <;> rfl
theorem ldy (o : Operand) : Statement (.ldy o) := by
  rcases o with _ | m
  · rfl
  · cases m <;> rfl
theorem sta (m : MemRef) : Statement (.sta m) := by cases m <;> rfl
theorem stx (m : MemRef) : Statement (.stx m) := by cases m <;> rfl
theorem sty (m : MemRef) : Statement (.sty m) := by cases m <;> rfl
theorem tax : Statement .tax := rfl
theorem tay : Statement .tay := rfl
theorem txa : Statement .txa := rfl
theorem tya : Statement .tya := rfl
theorem tsx : Statement .tsx := rfl
theorem txs : Statement .txs := rfl
theorem inc (m : MemRef) : Statement (.inc m) := by cases m <;> rfl
theorem dec (m : MemRef) : Statement (.dec m) := by cases m <;> rfl
theorem inx : Statement .inx := rfl
theorem iny : Statement .iny := rfl
theorem dex : Statement .dex := rfl
theorem dey : Statement .dey := rfl
theorem clc : Statement .clc := rfl
theorem sec : Statement .sec := rfl
theorem cli : Statement .cli := rfl
theorem sei : Statement .sei := rfl
theorem cld : Statement .cld := rfl
theorem sed : Statement .sed := rfl
theorem clv : Statement .clv := rfl
theorem nop : Statement .nop := rfl
theorem lax (m : MemRef) : Statement (.lax m) := by cases m <;> rfl
theorem sax (m : MemRef) : Statement (.sax m) := by cases m <;> rfl
theorem sbcEB (i : Byte) : Statement (.sbcEB i) := rfl
theorem dcp (m : MemRef) : Statement (.dcp m) := by cases m <;> rfl
theorem isb (m : MemRef) : Statement (.isb m) := by cases m <;> rfl
theorem slo (m : MemRef) : Statement (.slo m) := by cases m <;> rfl
theorem rla (m : MemRef) : Statement (.rla m) := by cases m <;> rfl
theorem sre (m : MemRef) : Statement (.sre m) := by cases m <;> rfl
theorem rra (m : MemRef) : Statement (.rra m) := by cases m <;> rfl
theorem nopImp (op : Byte) : Statement (.nopImp op) := by
  simp only [Statement, Instr.wf, encode, opcodeOf]
  split <;> simp_all
theorem nopImm (i : Byte) : Statement (.nopImm i) := rfl
theorem nopMem (op : Byte) (m : MemRef) : Statement (.nopMem op m) := by
  simp only [Statement, Instr.wf, encode, opcodeOf]
  split <;> simp_all
theorem invalid (op : Byte) : Statement (.invalid op) := by
  simp only [Statement, Instr.wf, encode, opcodeOf]
  split <;> simp_all

end Sys2Proof.Laws.EncodeDefined

namespace Sys2Proof.Laws.EncodeLength

/-- The encoding of an instruction has the instruction's length. -/
def Statement (i : Instr) : Prop := ∀ bytes, encode i = some bytes → bytes.length = i.length

theorem adc (o : Operand) : Statement (.adc o) := encode_length _ (by
  rcases o with _ | m
  · rfl
  · cases m <;> rfl)
theorem sbc (o : Operand) : Statement (.sbc o) := encode_length _ (by
  rcases o with _ | m
  · rfl
  · cases m <;> rfl)
theorem cmp (o : Operand) : Statement (.cmp o) := encode_length _ (by
  rcases o with _ | m
  · rfl
  · cases m <;> rfl)
theorem cpx (o : Operand) : Statement (.cpx o) := encode_length _ (by
  rcases o with _ | m
  · rfl
  · cases m <;> rfl)
theorem cpy (o : Operand) : Statement (.cpy o) := encode_length _ (by
  rcases o with _ | m
  · rfl
  · cases m <;> rfl)
theorem asl (t : Target) : Statement (.asl t) := encode_length _ (by
  rcases t with _ | m
  · rfl
  · cases m <;> rfl)
theorem lsr (t : Target) : Statement (.lsr t) := encode_length _ (by
  rcases t with _ | m
  · rfl
  · cases m <;> rfl)
theorem rol (t : Target) : Statement (.rol t) := encode_length _ (by
  rcases t with _ | m
  · rfl
  · cases m <;> rfl)
theorem ror (t : Target) : Statement (.ror t) := encode_length _ (by
  rcases t with _ | m
  · rfl
  · cases m <;> rfl)
theorem and_ (o : Operand) : Statement (.and_ o) := encode_length _ (by
  rcases o with _ | m
  · rfl
  · cases m <;> rfl)
theorem ora (o : Operand) : Statement (.ora o) := encode_length _ (by
  rcases o with _ | m
  · rfl
  · cases m <;> rfl)
theorem eor (o : Operand) : Statement (.eor o) := encode_length _ (by
  rcases o with _ | m
  · rfl
  · cases m <;> rfl)
theorem bit (m : MemRef) : Statement (.bit m) := encode_length _ (by cases m <;> rfl)
theorem bcc (off : Byte) : Statement (.bcc off) := encode_length _ rfl
theorem bcs (off : Byte) : Statement (.bcs off) := encode_length _ rfl
theorem beq (off : Byte) : Statement (.beq off) := encode_length _ rfl
theorem bne (off : Byte) : Statement (.bne off) := encode_length _ rfl
theorem bmi (off : Byte) : Statement (.bmi off) := encode_length _ rfl
theorem bpl (off : Byte) : Statement (.bpl off) := encode_length _ rfl
theorem bvc (off : Byte) : Statement (.bvc off) := encode_length _ rfl
theorem bvs (off : Byte) : Statement (.bvs off) := encode_length _ rfl
theorem jmp (l h : Byte) : Statement (.jmp l h) := encode_length _ rfl
theorem jmpInd (l h : Byte) : Statement (.jmpInd l h) := encode_length _ rfl
theorem jsr (l h : Byte) : Statement (.jsr l h) := encode_length _ rfl
theorem rts : Statement .rts := encode_length _ rfl
theorem brk : Statement .brk := encode_length _ rfl
theorem rti : Statement .rti := encode_length _ rfl
theorem php : Statement .php := encode_length _ rfl
theorem plp : Statement .plp := encode_length _ rfl
theorem pha : Statement .pha := encode_length _ rfl
theorem pla : Statement .pla := encode_length _ rfl
theorem lda (o : Operand) : Statement (.lda o) := encode_length _ (by
  rcases o with _ | m
  · rfl
  · cases m <;> rfl)
theorem ldx (o : Operand) : Statement (.ldx o) := encode_length _ (by
  rcases o with _ | m
  · rfl
  · cases m <;> rfl)
theorem ldy (o : Operand) : Statement (.ldy o) := encode_length _ (by
  rcases o with _ | m
  · rfl
  · cases m <;> rfl)
theorem sta (m : MemRef) : Statement (.sta m) := encode_length _ (by cases m <;> rfl)
theorem stx (m : MemRef) : Statement (.stx m) := encode_length _ (by cases m <;> rfl)
theorem sty (m : MemRef) : Statement (.sty m) := encode_length _ (by cases m <;> rfl)
theorem tax : Statement .tax := encode_length _ rfl
theorem tay : Statement .tay := encode_length _ rfl
theorem txa : Statement .txa := encode_length _ rfl
theorem tya : Statement .tya := encode_length _ rfl
theorem tsx : Statement .tsx := encode_length _ rfl
theorem txs : Statement .txs := encode_length _ rfl
theorem inc (m : MemRef) : Statement (.inc m) := encode_length _ (by cases m <;> rfl)
theorem dec (m : MemRef) : Statement (.dec m) := encode_length _ (by cases m <;> rfl)
theorem inx : Statement .inx := encode_length _ rfl
theorem iny : Statement .iny := encode_length _ rfl
theorem dex : Statement .dex := encode_length _ rfl
theorem dey : Statement .dey := encode_length _ rfl
theorem clc : Statement .clc := encode_length _ rfl
theorem sec : Statement .sec := encode_length _ rfl
theorem cli : Statement .cli := encode_length _ rfl
theorem sei : Statement .sei := encode_length _ rfl
theorem cld : Statement .cld := encode_length _ rfl
theorem sed : Statement .sed := encode_length _ rfl
theorem clv : Statement .clv := encode_length _ rfl
theorem nop : Statement .nop := encode_length _ rfl
theorem lax (m : MemRef) : Statement (.lax m) := encode_length _ (by cases m <;> rfl)
theorem sax (m : MemRef) : Statement (.sax m) := encode_length _ (by cases m <;> rfl)
theorem sbcEB (i : Byte) : Statement (.sbcEB i) := encode_length _ rfl
theorem dcp (m : MemRef) : Statement (.dcp m) := encode_length _ (by cases m <;> rfl)
theorem isb (m : MemRef) : Statement (.isb m) := encode_length _ (by cases m <;> rfl)
theorem slo (m : MemRef) : Statement (.slo m) := encode_length _ (by cases m <;> rfl)
theorem rla (m : MemRef) : Statement (.rla m) := encode_length _ (by cases m <;> rfl)
theorem sre (m : MemRef) : Statement (.sre m) := encode_length _ (by cases m <;> rfl)
theorem rra (m : MemRef) : Statement (.rra m) := encode_length _ (by cases m <;> rfl)
theorem nopImp (op : Byte) : Statement (.nopImp op) := encode_length _ rfl
theorem nopImm (i : Byte) : Statement (.nopImm i) := encode_length _ rfl
theorem nopMem (op : Byte) (m : MemRef) : Statement (.nopMem op m) := encode_length _ (by cases m <;> rfl)
theorem invalid (op : Byte) : Statement (.invalid op) := encode_length _ rfl

end Sys2Proof.Laws.EncodeLength
end

