-- ==== Sys2Proof/Laws/Vectors.lean ====
section
/-! SUPPORT. The three bytes of the vectored entry (R205, R305) and everything its return does (R209). -/

namespace Sys2Proof.Machine

variable {σ : Type} {bus : Bus σ}

theorem vectoredEntry_first (ret : Addr) (status : Byte) (isBrk : Bool) (vector : Addr) (s : State) :
    (vectoredEntry ret status isBrk vector s).read (stackAddr s.sp) = pushedFirst ret s := by
  rw [vectoredEntry_read, if_neg, if_neg, if_pos rfl] <;> rw [cellOf_stackAddr_inj] <;> bv_omega

theorem vectoredEntry_second (ret : Addr) (status : Byte) (isBrk : Bool) (vector : Addr) (s : State) :
    (vectoredEntry ret status isBrk vector s).read (stackAddr (s.sp - 1)) = pushedSecond ret s := by
  rw [vectoredEntry_read, if_neg, if_pos rfl]
  rw [cellOf_stackAddr_inj]
  bv_omega

theorem vectoredEntry_third (ret : Addr) (status : Byte) (isBrk : Bool) (vector : Addr) (s : State) :
    (vectoredEntry ret status isBrk vector s).read (stackAddr (s.sp - 2)) = status := by
  rw [vectoredEntry_read, if_pos rfl]

/-- What the return from an entry does to the registers, on any bus: three pulls, and P by R203. -/
theorem vectoredReturn_registers (s : State σ bus) :
    let t := vectoredReturn s
    t.a = s.a ∧ t.x = s.x ∧ t.y = s.y ∧ t.sp = s.sp + 3 ∧ t.cyc = s.cyc ∧ t.started = s.started ∧
    t.cfg = s.cfg ∧ t.p = (restoreStatus (s.read (stackAddr (s.sp + 1))) s).p := by
  refine ⟨by simp [vectoredReturn], by simp [vectoredReturn], by simp [vectoredReturn], ?_,
    by simp [vectoredReturn], by simp [vectoredReturn], by simp [vectoredReturn], ?_⟩
  · simp only [vectoredReturn, pull16_sp, restoreStatus_sp, pull_sp]
    bv_omega
  · show (restoreStatus (s.read (stackAddr (s.sp + 1))) (pull s).2).p = _
    cases h : s.cfg.pullBPolicy <;> simp [restoreStatus, h]

/-- Everything the return from an entry does on the default mapper. -/
theorem vectoredReturn_fields (s : State) :
    let t := vectoredReturn s
    t.a = s.a ∧ t.x = s.x ∧ t.y = s.y ∧ t.sp = s.sp + 3 ∧ t.cyc = s.cyc ∧ t.mem = s.mem ∧
    t.started = s.started ∧ t.cfg = s.cfg ∧
    t.p = (restoreStatus (s.read (stackAddr (s.sp + 1))) s).p ∧
    t.pc = match s.cfg.stackWordOrder with
      | .highFirst => w16 (s.read (stackAddr (s.sp + 3))) (s.read (stackAddr (s.sp + 2)))
      | .lowFirst => w16 (s.read (stackAddr (s.sp + 2))) (s.read (stackAddr (s.sp + 3))) := by
  have e2 : s.sp + 1#8 + 1#8 = s.sp + 2#8 := by bv_omega
  have e3 : s.sp + 1#8 + 2#8 = s.sp + 3#8 := by bv_omega
  obtain ⟨ha, hx, hy, hsp, hcyc, hs, hc, hp⟩ := vectoredReturn_registers s
  refine ⟨ha, hx, hy, hsp, hcyc, by simp [vectoredReturn], hs, hc, hp, ?_⟩
  · show (pull16 (restoreStatus (pull s).1 (pull s).2)).1 = _
    rw [pull16_value]
    simp only [restoreStatus_cfg, restoreStatus_sp, restoreStatus_read, pull_cfg, pull_sp, pull_read]
    cases s.cfg.stackWordOrder <;> simp [e2, e3]

end Sys2Proof.Machine
end

