-- ==== Sys2Proof/Machine/TraceLine.lean ====
section
/-! DEFINITION. The trace line the host prints before each step (70_reset_and_hazards.md R341, R342, D23): an observation of the state, not a part of it. -/

namespace Sys2Proof.Machine

variable {σ : Type} {bus : Bus σ}

/-- One upper-case hexadecimal digit. -/
def hexDigit (n : Nat) : Char :=
  ['0', '1', '2', '3', '4', '5', '6', '7', '8', '9', 'A', 'B', 'C', 'D', 'E', 'F'].getD n '0'

/-- Two hexadecimal digits. -/
def hex2 (b : Byte) : List Char := [hexDigit (b.toNat / 16), hexDigit (b.toNat % 16)]

/-- Four hexadecimal digits. -/
def hex4 (a : Addr) : List Char := hex2 (hi8 a) ++ hex2 (lo8 a)

/-- The characters of the trace line, PPPP  OO  A:aa X:xx Y:yy P:pp SP:ss CYC:n (R342). DESIGN CHOICE, safe
(log entry 3): before the first reset, where the spec gives the processor no state and no line, there is none. -/
def traceChars (s : State σ bus) : Option (List Char) :=
  if s.started then
    some (hex4 s.pc ++ [' ', ' '] ++ hex2 (s.read s.pc) ++ [' ', ' '] ++
      ['A', ':'] ++ hex2 s.a ++ [' ', 'X', ':'] ++ hex2 s.x ++ [' ', 'Y', ':'] ++ hex2 s.y ++
      [' ', 'P', ':'] ++ hex2 s.p ++ [' ', 'S', 'P', ':'] ++ hex2 s.sp ++
      [' ', 'C', 'Y', 'C', ':'] ++ Nat.toDigits 10 s.cyc.toNat)
  else none

/-- The trace line (R342), where there is one. -/
def traceLine (s : State σ bus) : Option String := (traceChars s).map String.ofList

/-- The machine after the host has read the opcode byte at PC for a trace line (R341): "through the bus", and
under the default mapper without effect. -/
def afterTrace (s : State σ bus) : State σ bus := if s.started then s.afterRead s.pc else s

end Sys2Proof.Machine
end

