-- ==== Sys2Proof/Tests/Slice0.lean ====
section
/-! SUPPORT. The model's own tests: well-formedness, decoding, single steps, and one witness for each statement with hypotheses. Expected values are those of 95_test_vectors.md, or hand calculation from the rule named in the comment. -/

namespace Sys2Proof.Tests

open Sys2Proof.Machine

/-! ## Well-formedness refuses an ill-formed term of each check (30_encoding.md R84 to R86) -/

theorem test_wf_refuses_adc_zpy : Instr.wf (.adc (.mem (.zpy 0x10))) = false := by decide
theorem test_wf_refuses_cpx_absx : Instr.wf (.cpx (.mem (.absx 0x00 0x03))) = false := by decide
theorem test_wf_refuses_ldx_zpx : Instr.wf (.ldx (.mem (.zpx 0x10))) = false := by decide
theorem test_wf_refuses_ldy_zpy : Instr.wf (.ldy (.mem (.zpy 0x10))) = false := by decide
theorem test_wf_refuses_asl_izx : Instr.wf (.asl (.mem (.izx 0x10))) = false := by decide
theorem test_wf_refuses_inc_absy : Instr.wf (.inc (.absy 0x00 0x03)) = false := by decide
theorem test_wf_refuses_bit_zpx : Instr.wf (.bit (.zpx 0x10)) = false := by decide
theorem test_wf_refuses_sta_zpy : Instr.wf (.sta (.zpy 0x10)) = false := by decide
theorem test_wf_refuses_stx_zpx : Instr.wf (.stx (.zpx 0x10)) = false := by decide
theorem test_wf_refuses_sty_zpy : Instr.wf (.sty (.zpy 0x10)) = false := by decide
theorem test_wf_refuses_lax_absx : Instr.wf (.lax (.absx 0x00 0x03)) = false := by decide
theorem test_wf_refuses_sax_izy : Instr.wf (.sax (.izy 0x10)) = false := by decide
theorem test_wf_refuses_nopImp_ea : Instr.wf (.nopImp 0xEA) = false := by decide
theorem test_wf_refuses_nopMem_wrong_opcode : Instr.wf (.nopMem 0x04 (.abs 0x00 0x03)) = false := by decide
theorem test_wf_refuses_invalid_ea : Instr.wf (.invalid 0xEA) = false := by decide
theorem test_no_encoding_of_adc_zpy : encode (.adc (.mem (.zpy 0x10))) = none := by decide

/-! ## Words of the opcode map (30_encoding.md R84), written byte by byte, in both directions -/

/-- The word decodes to the instruction, and the instruction encodes to the word. -/
def Codes (bytes : List Byte) (i : Instr) : Prop := decode bytes = .ok (i, []) ∧ encode i = some bytes

theorem test_codes_adc_imm : Codes [0x69, 0x50] (.adc (.imm 0x50)) := ⟨by rfl, by decide⟩
theorem test_codes_adc_izy : Codes [0x71, 0x40] (.adc (.mem (.izy 0x40))) := ⟨by rfl, by decide⟩
theorem test_codes_sbc_absx : Codes [0xFD, 0x34, 0x12] (.sbc (.mem (.absx 0x34 0x12))) := ⟨by rfl, by decide⟩
theorem test_codes_cmp_izx : Codes [0xC1, 0x20] (.cmp (.mem (.izx 0x20))) := ⟨by rfl, by decide⟩
theorem test_codes_cpx_zp : Codes [0xE4, 0x10] (.cpx (.mem (.zp 0x10))) := ⟨by rfl, by decide⟩
theorem test_codes_cpy_abs : Codes [0xCC, 0x00, 0x03] (.cpy (.mem (.abs 0x00 0x03))) := ⟨by rfl, by decide⟩
theorem test_codes_asl_acc : Codes [0x0A] (.asl .acc) := ⟨by rfl, by decide⟩
theorem test_codes_lsr_absx : Codes [0x5E, 0x00, 0x03] (.lsr (.mem (.absx 0x00 0x03))) := ⟨by rfl, by decide⟩
theorem test_codes_rol_zpx : Codes [0x36, 0x0F] (.rol (.mem (.zpx 0x0F))) := ⟨by rfl, by decide⟩
theorem test_codes_ror_abs : Codes [0x6E, 0x00, 0x03] (.ror (.mem (.abs 0x00 0x03))) := ⟨by rfl, by decide⟩
theorem test_codes_and_absy : Codes [0x39, 0x00, 0x03] (.and_ (.mem (.absy 0x00 0x03))) := ⟨by rfl, by decide⟩
theorem test_codes_ora_zp : Codes [0x05, 0x10] (.ora (.mem (.zp 0x10))) := ⟨by rfl, by decide⟩
theorem test_codes_eor_izy : Codes [0x51, 0x10] (.eor (.mem (.izy 0x10))) := ⟨by rfl, by decide⟩
theorem test_codes_bit_abs : Codes [0x2C, 0x00, 0x03] (.bit (.abs 0x00 0x03)) := ⟨by rfl, by decide⟩
theorem test_codes_bne : Codes [0xD0, 0x10] (.bne 0x10) := ⟨by rfl, by decide⟩
theorem test_codes_bvs : Codes [0x70, 0x05] (.bvs 0x05) := ⟨by rfl, by decide⟩
theorem test_codes_jmp : Codes [0x4C, 0x34, 0x12] (.jmp 0x34 0x12) := ⟨by rfl, by decide⟩
theorem test_codes_jmp_ind : Codes [0x6C, 0xFF, 0x02] (.jmpInd 0xFF 0x02) := ⟨by rfl, by decide⟩
theorem test_codes_jsr : Codes [0x20, 0x00, 0xC1] (.jsr 0x00 0xC1) := ⟨by rfl, by decide⟩
theorem test_codes_rts : Codes [0x60] (.rts) := ⟨by rfl, by decide⟩
theorem test_codes_brk : Codes [0x00] (.brk) := ⟨by rfl, by decide⟩
theorem test_codes_rti : Codes [0x40] (.rti) := ⟨by rfl, by decide⟩
theorem test_codes_php : Codes [0x08] (.php) := ⟨by rfl, by decide⟩
theorem test_codes_ldx_zpy : Codes [0xB6, 0x80] (.ldx (.mem (.zpy 0x80))) := ⟨by rfl, by decide⟩
theorem test_codes_ldy_absx : Codes [0xBC, 0x00, 0x03] (.ldy (.mem (.absx 0x00 0x03))) := ⟨by rfl, by decide⟩
theorem test_codes_sta_izx : Codes [0x81, 0xFE] (.sta (.izx 0xFE)) := ⟨by rfl, by decide⟩
theorem test_codes_stx_zpy : Codes [0x96, 0x10] (.stx (.zpy 0x10)) := ⟨by rfl, by decide⟩
theorem test_codes_sty_zpx : Codes [0x94, 0xFF] (.sty (.zpx 0xFF)) := ⟨by rfl, by decide⟩
theorem test_codes_tsx : Codes [0xBA] (.tsx) := ⟨by rfl, by decide⟩
theorem test_codes_dec_absx : Codes [0xDE, 0x00, 0x03] (.dec (.absx 0x00 0x03)) := ⟨by rfl, by decide⟩
theorem test_codes_dey : Codes [0x88] (.dey) := ⟨by rfl, by decide⟩
theorem test_codes_clv : Codes [0xB8] (.clv) := ⟨by rfl, by decide⟩
theorem test_codes_nop : Codes [0xEA] (.nop) := ⟨by rfl, by decide⟩
theorem test_codes_lax_absy : Codes [0xBF, 0x00, 0x03] (.lax (.absy 0x00 0x03)) := ⟨by rfl, by decide⟩
theorem test_codes_sax_izx : Codes [0x83, 0x10] (.sax (.izx 0x10)) := ⟨by rfl, by decide⟩
theorem test_codes_sbc_eb : Codes [0xEB, 0x01] (.sbcEB 0x01) := ⟨by rfl, by decide⟩
theorem test_codes_dcp_absy : Codes [0xDB, 0x00, 0x03] (.dcp (.absy 0x00 0x03)) := ⟨by rfl, by decide⟩
theorem test_codes_isb_izy : Codes [0xF3, 0x10] (.isb (.izy 0x10)) := ⟨by rfl, by decide⟩
theorem test_codes_slo_zp : Codes [0x07, 0x10] (.slo (.zp 0x10)) := ⟨by rfl, by decide⟩
theorem test_codes_rla_absx : Codes [0x3F, 0x00, 0x03] (.rla (.absx 0x00 0x03)) := ⟨by rfl, by decide⟩
theorem test_codes_sre_zpx : Codes [0x57, 0x10] (.sre (.zpx 0x10)) := ⟨by rfl, by decide⟩
theorem test_codes_rra_izx : Codes [0x63, 0x10] (.rra (.izx 0x10)) := ⟨by rfl, by decide⟩
theorem test_codes_nop_1a : Codes [0x1A] (.nopImp 0x1A) := ⟨by rfl, by decide⟩
theorem test_codes_nop_80 : Codes [0x80, 0x01] (.nopImm 0x01) := ⟨by rfl, by decide⟩
theorem test_codes_nop_fc : Codes [0xFC, 0x00, 0x03] (.nopMem 0xFC (.absx 0x00 0x03)) := ⟨by rfl, by decide⟩
theorem test_codes_kil : Codes [0x02] (.invalid 0x02) := ⟨by rfl, by decide⟩

/-- A second and a third byte missing, and no byte at all (R82). -/
theorem test_decode_truncated :
    decode [0xAD, 0x00] = .error (.truncated 0xAD) ∧ decode [] = .error .empty := ⟨by rfl, by rfl⟩

/-- The table's numbering: the first byte is the least significant (opcode_table.json). -/
theorem test_table_word :
    decodeTableWord 24 0x02FF6C = some (.jmpInd 0xFF 0x02) ∧ decodeTableWord 8 0x69 = some (.adc (.imm 0x00)) := by
  decide

/-! ## Single steps. Registers not named are those of the vectors: A = X = Y = 0, SP = FD, CYC = 0 -/

/-- A started machine at an address, with the bytes of an instruction there and a few cells of memory. -/
def start (pc : Addr) (code : List Byte) (cells : List (Addr × Byte)) : State :=
  loadBytes pc code (cells.foldl (fun s e => s.write e.1 e.2) { State.reset with pc := pc, cyc := 0 })

/-- What one step leaves, seen through a few fields; none where it stops. -/
def after (view : State → α) (s : State) : Option α :=
  match step s with
  | .next t => some (view t)
  | .fault _ | .refused _ => none

theorem test_adc_positive_overflow :
    after (fun t => (t.a, t.p))
      { start 0x0200 [0x69, 0x50] [] with a := 0x50 } = some (0xA0, 0xE4) := by decide
theorem test_adc_ignores_decimal :
    after (fun t => (t.a, t.p))
      { start 0x0200 [0x69, 0x01] [] with a := 0x09, p := 0x2C } = some (0x0A, 0x2C) := by decide
theorem test_sbc_borrow :
    after (fun t => (t.a, t.p))
      { start 0x0200 [0xE9, 0x01] [] with a := 0x05 } = some (0x03, 0x25) := by decide
theorem test_sbc_signed_overflow :
    after (fun t => (t.a, t.p))
      { start 0x0200 [0xE9, 0x01] [] with a := 0x80, p := 0x25 } = some (0x7F, 0x65) := by decide
theorem test_cmp_unsigned :
    after (fun t => (t.a, t.p))
      { start 0x0200 [0xC9, 0x01] [] with a := 0x80 } = some (0x80, 0x25) := by decide
theorem test_cpx_below :
    after (fun t => (t.p, t.cyc))
      (start 0x0200 [0xE4, 0x10] [(0x0010, 0x80)]) = some (0xA4, 3) := by decide
theorem test_cpy_equal :
    after (fun t => (t.p, t.pc))
      { start 0x0200 [0xC0, 0xFF] [] with y := 0xFF } = some (0x27, 0x0202) := by decide
theorem test_asl_memory :
    after (fun t => (t.read 0x0010, t.p))
      (start 0x0200 [0x06, 0x10] [(0x0010, 0xC0)]) = some (0x80, 0xA5) := by decide
theorem test_lsr_acc :
    after (fun t => (t.a, t.p))
      { start 0x0200 [0x4A] [] with a := 0x81 } = some (0x40, 0x25) := by decide
theorem test_rol_carry_in :
    after (fun t => (t.read 0x0010, t.p))
      { start 0x0200 [0x36, 0x0F] [(0x0010, 0x7F)] with x := 0x01, p := 0x25 } = some (0xFF, 0xA4) := by decide
theorem test_ror_carry_in :
    after (fun t => (t.read 0x0300, t.p))
      { start 0x0200 [0x6E, 0x00, 0x03] [] with p := 0x25 } = some (0x80, 0xA4) := by decide
theorem test_ror_acc_carry_out :
    after (fun t => (t.a, t.p))
      { start 0x0200 [0x6A] [] with a := 0x01 } = some (0x00, 0x27) := by decide
theorem test_and_clears :
    after (fun t => (t.a, t.p))
      { start 0x0200 [0x29, 0x00] [] with a := 0xFF } = some (0x00, 0x26) := by decide
theorem test_ora_negative :
    after (fun t => (t.a, t.p))
      { start 0x0200 [0x09, 0x00] [] with a := 0x80 } = some (0x80, 0xA4) := by decide
theorem test_eor_toggle :
    after (fun t => (t.a, t.p))
      { start 0x0200 [0x49, 0x80] [] with a := 0x80 } = some (0x00, 0x26) := by decide
theorem test_bit_flags :
    after (fun t => (t.a, t.p))
      { start 0x0200 [0x2C, 0x00, 0x03] [(0x0300, 0xF0)] with a := 0x0F } = some (0x0F, 0xE6) := by decide
/-- By hand from R181. -/
theorem test_bcc_taken : after (fun t => (t.pc, t.cyc)) (start 0xC000 [0x90, 0x10] []) = some (0xC012, 3) := by decide
theorem test_bcs_offset_zero :
    after (fun t => (t.pc, t.cyc))
      { start 0xC000 [0xB0, 0x00] [] with p := 0x25 } = some (0xC002, 3) := by decide
theorem test_beq_backward :
    after (fun t => (t.pc, t.cyc))
      { start 0xC010 [0xF0, 0xFE] [] with p := 0x26 } = some (0xC010, 3) := by decide
theorem test_bne_page_cross :
    after (fun t => (t.pc, t.cyc))
      (start 0xC0F0 [0xD0, 0x10] []) = some (0xC102, 4) := by decide
theorem test_bne_not_taken :
    after (fun t => (t.pc, t.cyc))
      { start 0xC000 [0xD0, 0x10] [] with p := 0x26 } = some (0xC002, 2) := by decide
theorem test_bmi_forward :
    after (fun t => (t.pc, t.cyc))
      { start 0xC080 [0x30, 0x7F] [] with p := 0xA4 } = some (0xC101, 4) := by decide
theorem test_bpl_backward :
    after (fun t => (t.pc, t.cyc))
      (start 0xC080 [0x10, 0x80] []) = some (0xC002, 3) := by decide
theorem test_bvc_wraps : after (fun t => (t.pc, t.cyc)) (start 0x0000 [0x50, 0xF0] []) = some (0xFFF2, 4) := by decide
theorem test_bvs_not_taken :
    after (fun t => (t.pc, t.cyc))
      (start 0xC000 [0x70, 0x05] []) = some (0xC002, 2) := by decide
/-- By hand from R189. -/
theorem test_jmp_absolute :
    after (fun t => (t.pc, t.cyc))
      (start 0x0400 [0x4C, 0x34, 0x12] []) = some (0x1234, 3) := by decide
theorem test_jmp_indirect_same_page :
    after (fun t => (t.pc, t.cyc))
      (start 0x0400 [0x6C, 0xFF, 0x02] [(0x0200, 0x12), (0x02FF, 0x34), (0x0300, 0x56)]) = some (0x1234, 5) := by decide
theorem test_jsr_wraps :
    after (fun t => (t.pc, t.sp, t.read 0x0100, t.read 0x01FF))
      { start 0xC000 [0x20, 0x34, 0x12] [] with sp := 0x00 } = some (0x1234, 0xFE, 0xC0, 0x02) := by decide
theorem test_rts :
    after (fun t => (t.pc, t.sp, t.cyc))
      { start 0xC100 [0x60] [(0x01FC, 0x02), (0x01FD, 0xC0)] with sp := 0xFB } = some (0xC003, 0xFD, 6) := by decide
theorem test_brk :
    after (fun t => (t.pc, t.p, t.read 0x01FD, t.read 0x01FC, t.read 0x01FB))
      (start 0x8000 [0x00] [(0xFFFE, 0x00), (0xFFFF, 0x90)]) = some (0x9000, 0x34, 0x80, 0x02, 0x34) := by decide
theorem test_rti :
    after (fun t => (t.pc, t.p, t.sp))
      { start 0x9000 [0x40] [(0x01FB, 0x34), (0x01FC, 0x02), (0x01FD, 0x80)] with sp := 0xFA, p := 0x34 } = some (0x8002, 0x24, 0xFD) := by decide
theorem test_php :
    after (fun t => (t.read 0x01FD, t.p, t.sp))
      { start 0x0200 [0x08] [] with p := 0xE7 } = some (0xF7, 0xE7, 0xFC) := by decide
theorem test_plp :
    after (fun t => (t.p, t.sp))
      { start 0x0200 [0x28] [(0x01FD, 0x10)] with sp := 0xFC } = some (0x20, 0xFD) := by decide
theorem test_pha_wraps :
    after (fun t => (t.read 0x0100, t.sp))
      { start 0x0200 [0x48] [] with a := 0x5A, sp := 0x00 } = some (0x5A, 0xFF) := by decide
theorem test_pla_wraps :
    after (fun t => (t.a, t.sp, t.p))
      { start 0x0200 [0x68] [(0x0100, 0x80)] with sp := 0xFF } = some (0x80, 0x00, 0xA4) := by decide
theorem test_lda_zpx_wraps :
    after (fun t => (t.a, t.cyc))
      { start 0x0200 [0xB5, 0xFF] [(0x0001, 0x66)] with x := 0x02 } = some (0x66, 4) := by decide
theorem test_lda_izy_pointer_wraps :
    after (fun t => (t.a, t.cyc))
      { start 0x0200 [0xB1, 0xFF] [(0x0000, 0x02), (0x00FF, 0xFF), (0x0300, 0x9A)] with y := 0x01 } = some (0x9A, 6) := by decide
theorem test_ldx_zpy_wraps :
    after (fun t => (t.x, t.p))
      { start 0x0200 [0xB6, 0x80] [(0x0010, 0x01)] with y := 0x90 } = some (0x01, 0x24) := by decide
theorem test_ldx_no_cross :
    after (fun t => (t.x, t.p, t.cyc))
      { start 0x0200 [0xBE, 0x00, 0x03] [(0x0305, 0xC8)] with y := 0x05 } = some (0xC8, 0xA4, 4) := by decide
theorem test_ldy_zpx :
    after (fun t => (t.y, t.p))
      { start 0x0200 [0xB4, 0x10] [] with x := 0x05, y := 0x01 } = some (0x00, 0x26) := by decide
theorem test_sta_no_penalty :
    after (fun t => (t.read 0x0310, t.cyc))
      { start 0x0200 [0x9D, 0xF0, 0x02] [] with a := 0x3C, x := 0x20 } = some (0x3C, 5) := by decide
theorem test_sta_register_mirror :
    after (fun t => (t.read 0x2007, t.read 0x3FFF))
      { start 0x0200 [0x8D, 0xFF, 0x3F] [] with a := 0x99 } = some (0x99, 0x99) := by decide
/-- By hand from R224. -/
theorem test_stx_zpy :
    after (fun t => (t.read 0x0001, t.cyc))
      { start 0x0200 [0x96, 0x10] [] with x := 0x7E, y := 0xF1 } = some (0x7E, 4) := by decide
theorem test_sty_zpx_wraps :
    after (fun t => (t.read 0x0004, t.cyc))
      { start 0x0200 [0x94, 0xFF] [] with x := 0x05, y := 0x3E } = some (0x3E, 4) := by decide
/-- By hand from R226. -/
theorem test_tax :
    after (fun t => (t.x, t.p))
      { start 0x0200 [0xAA] [] with a := 0x80 } = some (0x80, 0xA4) := by decide
/-- By hand from R227. -/
theorem test_tay :
    after (fun t => (t.y, t.p))
      { start 0x0200 [0xA8] [] with a := 0x80 } = some (0x80, 0xA4) := by decide
/-- By hand from R228. -/
theorem test_txa :
    after (fun t => (t.a, t.p))
      { start 0x0200 [0x8A] [] with a := 0x01, x := 0x00 } = some (0x00, 0x26) := by decide
/-- By hand from R229. -/
theorem test_tya :
    after (fun t => (t.a, t.p))
      { start 0x0200 [0x98] [] with a := 0x01, y := 0x7F } = some (0x7F, 0x24) := by decide
/-- By hand from R230. -/
theorem test_tsx : after (fun t => (t.x, t.p)) (start 0x0200 [0xBA] []) = some (0xFD, 0xA4) := by decide
theorem test_txs_no_flags :
    after (fun t => (t.sp, t.p))
      { start 0x0200 [0x9A] [] with x := 0x80, p := 0x26 } = some (0x80, 0x26) := by decide
theorem test_inc_always_seven :
    after (fun t => (t.read 0x0310, t.cyc))
      { start 0x0200 [0xFE, 0xF0, 0x02] [(0x0310, 0x41)] with x := 0x20 } = some (0x42, 7) := by decide
theorem test_dec :
    after (fun t => (t.read 0x0300, t.p))
      (start 0x0200 [0xCE, 0x00, 0x03] [(0x0300, 0x80)]) = some (0x7F, 0x24) := by decide
/-- By hand from R234. -/
theorem test_inx_wraps :
    after (fun t => (t.x, t.p))
      { start 0x0200 [0xE8] [] with x := 0xFF } = some (0x00, 0x26) := by decide
/-- By hand from R235. -/
theorem test_iny_negative :
    after (fun t => (t.y, t.p))
      { start 0x0200 [0xC8] [] with y := 0x7F } = some (0x80, 0xA4) := by decide
/-- By hand from R236. -/
theorem test_dex_wraps : after (fun t => (t.x, t.p)) (start 0x0200 [0xCA] []) = some (0xFF, 0xA4) := by decide
/-- By hand from R237. -/
theorem test_dey_zero :
    after (fun t => (t.y, t.p))
      { start 0x0200 [0x88] [] with y := 0x01 } = some (0x00, 0x26) := by decide
/-- By hand from R238. -/
theorem test_clc :
    after (fun t => (t.p, t.pc))
      { start 0x0200 [0x18] [] with p := 0xEF } = some (0xEE, 0x0201) := by decide
/-- By hand from R239. -/
theorem test_sec : after (fun t => (t.p, t.cyc)) (start 0x0200 [0x38] []) = some (0x25, 2) := by decide
/-- By hand from R240. -/
theorem test_cli : after (fun t => (t.p, t.cyc)) (start 0x0200 [0x58] []) = some (0x20, 2) := by decide
theorem test_sei :
    after (fun t => (t.p, t.pc))
      { start 0x0200 [0x78] [] with p := 0x20 } = some (0x24, 0x0201) := by decide
theorem test_cld :
    after (fun t => (t.p, t.pc))
      { start 0x0200 [0xD8] [] with p := 0x2C } = some (0x24, 0x0201) := by decide
/-- By hand from R243. -/
theorem test_sed : after (fun t => (t.p, t.cyc)) (start 0x0200 [0xF8] []) = some (0x2C, 2) := by decide
theorem test_clv :
    after (fun t => (t.p, t.pc))
      { start 0x0200 [0xB8] [] with p := 0x64 } = some (0x24, 0x0201) := by decide
/-- By hand from R245. -/
theorem test_nop :
    after (fun t => (t.p, t.pc, t.cyc))
      { start 0x0200 [0xEA] [] with p := 0xE7 } = some (0xE7, 0x0201, 2) := by decide
theorem test_lax_page_cross :
    after (fun t => (t.a, t.x, t.p, t.cyc))
      { start 0x0200 [0xB3, 0x10] [(0x0010, 0x01), (0x0011, 0x03)] with a := 0x01, y := 0xFF } = some (0x00, 0x00, 0x26, 6) := by decide
theorem test_sax :
    after (fun t => (t.read 0x0011, t.p))
      { start 0x0200 [0x97, 0x10] [] with a := 0xFF, x := 0x0F, y := 0x01 } = some (0x0F, 0x24) := by decide
/-- By hand from R263, from the SBC #$01 vector. -/
theorem test_sbc_eb :
    after (fun t => (t.a, t.p))
      { start 0x0200 [0xEB, 0x01] [] with a := 0x05, p := 0x25 } = some (0x04, 0x25) := by decide
theorem test_dcp_source_example :
    after (fun t => (t.read 0x0010, t.p, t.cyc))
      (start 0x0200 [0xC7, 0x10] [(0x0010, 0x01)]) = some (0x00, 0x27, 5) := by decide
theorem test_dcp_below :
    after (fun t => (t.read 0x0300, t.p, t.cyc))
      { start 0x0200 [0xDB, 0x00, 0x03] [(0x0300, 0x20)] with a := 0x10 } = some (0x1F, 0xA4, 7) := by decide
theorem test_isb :
    after (fun t => (t.read 0x0010, t.a, t.p))
      { start 0x0200 [0xE7, 0x10] [(0x0010, 0x0F)] with a := 0x20, p := 0x25 } = some (0x10, 0x10, 0x25) := by decide
theorem test_slo :
    after (fun t => (t.read 0x0010, t.a, t.p))
      { start 0x0200 [0x07, 0x10] [(0x0010, 0x81)] with a := 0x01 } = some (0x02, 0x03, 0x25) := by decide
theorem test_rla :
    after (fun t => (t.read 0x0010, t.a, t.p))
      { start 0x0200 [0x27, 0x10] [(0x0010, 0x80)] with a := 0xFF, p := 0x25 } = some (0x01, 0x01, 0x25) := by decide
theorem test_sre :
    after (fun t => (t.read 0x0010, t.a, t.p))
      { start 0x0200 [0x47, 0x10] [(0x0010, 0x03)] with a := 0x01 } = some (0x01, 0x00, 0x27) := by decide
theorem test_rra_uses_rotated_carry :
    after (fun t => (t.read 0x0010, t.a, t.p))
      { start 0x0200 [0x67, 0x10] [] with a := 0x7F, p := 0x25 } = some (0x80, 0xFF, 0xA4) := by decide
theorem test_nop_1a :
    after (fun t => (t.p, t.pc, t.cyc))
      (start 0x0200 [0x1A] []) = some (0x24, 0x0201, 2) := by decide
/-- By hand from R270. -/
theorem test_nop_80 :
    after (fun t => (t.p, t.pc, t.cyc))
      (start 0x0200 [0x80, 0xFF] []) = some (0x24, 0x0202, 2) := by decide
theorem test_nop_absx_no_cross :
    after (fun t => (t.p, t.pc, t.cyc))
      { start 0x0200 [0x1C, 0x00, 0x03] [] with x := 0x01 } = some (0x24, 0x0203, 4) := by decide
/-- By hand from R271. -/
theorem test_nop_absx_cross :
    after (fun t => (t.p, t.pc, t.cyc))
      { start 0x0200 [0xFC, 0xFF, 0x03] [] with x := 0x01 } = some (0x24, 0x0203, 5) := by decide

/-- KIL (02): the fault with its byte and PC (R300). -/
theorem test_kil_faults : step (start 0x0200 [0x02] []) = .fault (.invalidOpcode 0x02 0x0200) := by rfl

/-- An undocumented opcode outside UNOFFICIAL_SET is absent (R3). -/
theorem test_unofficial_set_removes_lax :
    step { start 0x0200 [0xA7, 0x10] [] with cfg := { Config.default with unofficialSet := [] } } =
      .fault (.invalidOpcode 0xA7 0x0200) := by rfl

/-- The order of a read-modify-write's accesses (R61, R118): fetches, one read, one write. -/
theorem test_accesses_of_inc : stepAccesses (start 0x0200 [0xE6, 0x10] [(0x0010, 0x41)]) =
    [.read 0x0200, .read 0x0201, .read 0x0010, .write 0x0010 0x42] := by decide

/-- P1's first trace line (R342). -/
theorem test_trace_line : traceChars (resetMachine (some 0xC000) (loadBytes 0xC000 [0xA2] State.reset)) =
    some "C000  A2  A:00 X:00 Y:00 P:24 SP:FD CYC:7".toList := by decide

/-- reset() reads the vector at 0xFFFC (R330). -/
theorem test_reset_vector :
    (resetMachine none (State.beforeReset Config.default [(0xFFFC, 0x34), (0xFFFD, 0x12)] : State)).pc = 0x1234 := by decide

/-- The fetch word stands where the next step reads it. -/
theorem test_with_fetch_word :
    fetchInstr (State.reset.withFetchWord 24 0x02FF6C) = .jmpInd 0xFF 0x02 := by decide

/-- An NMI entry (R305): PC without an offset, bit 4 of the pushed status 0, the NMI vector. -/
theorem test_nmi_entry :
    let s : State := { start 0x8000 [] [(0xFFFA, 0x00), (0xFFFB, 0x90)] with cfg := { Config.default with interruptInjection := true } }
    (injectInterrupt true false s).map (fun t => (t.pc, t.read 0x01FC, t.read 0x01FB, t.sp, t.cyc)) =
      some (0x9000, 0x00, 0x24, 0xFA, 7) := by decide

/-! ## Another bus (R9, R50) -/

/-- A bus whose reads have an effect (D18): it counts them, and otherwise is the default mapper. -/
def countingBus : Bus (Nat × Memory) where
  read m a := ((defaultMapper.read m.2 a).1, (m.1 + 1, m.2))
  write m a v := (m.1, defaultMapper.write m.2 a v)
  videoRead m _ := (0xFF, m)
  videoWrite m _ _ := m

/-- The same machine on the counting bus. -/
def onCountingBus (s : State) : State (Nat × Memory) countingBus :=
  ⟨s.a, s.x, s.y, s.sp, s.pc, s.p, s.cyc, (0, s.mem), s.started, s.cfg⟩

/-- How many reads a step makes of the counting bus. -/
def readsOfStep (s : State) : Nat := (hostStep (onCountingBus s)).1.mem.1

/-- Two fetches, two pointer bytes and the operand of LDA (zp),Y; one opcode read of KIL (R61, R300). -/
theorem test_reads_on_another_bus : readsOfStep (start 0x0200 [0xB1, 0x10] []) = 5 ∧
    readsOfStep (start 0x0200 [0x02] []) = 1 := by decide

/-- NOP_OPERAND_READ (R271, D15): a read of EA more. -/
theorem test_nop_operand_read : readsOfStep (start 0x0200 [0x04, 0x10] []) = 2 ∧
    readsOfStep { start 0x0200 [0x04, 0x10] [] with cfg := { Config.default with nopOperandRead := true } } = 3 := by decide

/-- reset() reads the vector alone, and not with an override (R330). -/
theorem test_reads_of_reset : (resetMachine none (onCountingBus State.reset)).mem.1 = 2 ∧
    (resetMachine (some 0xC000) (onCountingBus State.reset)).mem.1 = 0 := by decide

/-- No trace line before the first reset (log entry 3). -/
theorem test_no_trace_line_before_reset : traceLine (State.beforeReset Config.default [] : State) = none := by decide

/-! ## Witnesses: each statement's hypotheses are met together, for each clause at a boundary value -/

/-- A machine with other parameters. -/
def withOrder (o : StackWordOrder) (p : PullBPolicy) (b : BrkReturnOffset) : State :=
  { State.reset with cfg := { Config.default with stackWordOrder := o, pullBPolicy := p, brkReturnOffset := b } }

theorem witness_DecodeOfEncodeIsTheInstruction :
    Instr.wf (.adc (.mem (.absx 0xFF 0xFF))) = true ∧ Instr.wf (.nopMem 0xFC (.absx 0x00 0x00)) = true ∧
    Instr.wf (.invalid 0xE2) = true := by decide

theorem witness_DispatchTableHas227EntriesAnd29Absent :
    dispatchTable 0x02 = none ∧ admitted Config.default.unofficialSet 0xFF = true ∧
    admitted [] 0xFF = false ∧ admitted [] 0xFE = true := by decide

theorem witness_CyclesOfEveryForm :
    Instr.wf (.lda (.mem (.absx 0xFF 0x02))) = true ∧ Instr.wf (.lda (.mem (.izy 0x00))) = true := by decide

/-- Both clauses at the end of page zero: the pointer at FF has its second byte at 00. -/
theorem witness_IndirectModesReadAPageZeroPointer :
    (0x00FF : Addr).toNat = (0xFF : Byte).toNat ∧ (0x0000 : Addr).toNat = ((0xFF : Byte).toNat + 1) % 256 ∧
    (0xFF : Byte).toNat = ((0xFE : Byte).toNat + ({ State.reset with x := 0x01 } : State).x.toNat) % 256 := by decide

theorem witness_NopsOnlyAdvance :
    Instr.wf (.nopMem 0x04 (.zp 0xFF)) = true ∧ Instr.wf (.nopMem 0xFC (.absx 0xFF 0xFF)) = true := by decide

/-- A branch of the list taken, and one not taken; each condition is met and failed. -/
theorem witness_BranchesTakenAndNotTaken :
    let clear : State := { State.reset with p := 0x20 }
    let set : State := { State.reset with p := 0xE3 }
    let off : Byte := 0x80
    (∀ s ∈ [clear, set], (Instr.bne off, (0xD0 : Byte), !s.flag .z) ∈
      [(Instr.bcc off, (0x90 : Byte), !s.flag .c), (.bcs off, 0xB0, s.flag .c), (.beq off, 0xF0, s.flag .z),
       (.bne off, 0xD0, !s.flag .z), (.bmi off, 0x30, s.flag .n), (.bpl off, 0x10, !s.flag .n),
       (.bvc off, 0x50, !s.flag .v), (.bvs off, 0x70, s.flag .v)]) ∧
    (!clear.flag .c) = true ∧ (!clear.flag .z) = true ∧ (!clear.flag .n) = true ∧ (!clear.flag .v) = true ∧
    (!set.flag .c) = false ∧ (!set.flag .z) = false ∧ (!set.flag .n) = false ∧ (!set.flag .v) = false := by decide

/-- The pointer in the last byte of a page. -/
theorem witness_JumpsSetPC :
    (0x02FF : Addr).toNat = (0x02 : Byte).toNat * 256 + (0xFF : Byte).toNat ∧
    (0x0200 : Addr).toNat = (0x02 : Byte).toNat * 256 + ((0xFF : Byte).toNat + 1) % 256 := by decide

/-- Either word order: JsrPushesItsLastAddress, RtsReturnsAfterThePulledWord, PullWordUndoesPushWord,
BrkEntersThroughTheVector, RtiRestoresStatusAndPC, InterruptInjectionFollowsItsContract. -/
theorem witness_StackWordOrder :
    (withOrder .highFirst .clear .two).cfg.stackWordOrder = .highFirst ∧
    (withOrder .lowFirst .clear .two).cfg.stackWordOrder = .lowFirst := by decide

/-- Either pull policy: PlpRestoresStatus, RtiRestoresStatusAndPC, RtiUndoesBrk. -/
theorem witness_PullBPolicy :
    (withOrder .highFirst .clear .two).cfg.pullBPolicy = .clear ∧
    (withOrder .highFirst .keep .two).cfg.pullBPolicy = .keep := by decide

/-- Either return offset, at the top of memory. -/
theorem witness_BrkEntersThroughTheVector :
    (0x0000 : Addr) = ({ withOrder .highFirst .clear .one with pc := 0xFFFF } : State).pc +
      (match (withOrder .highFirst .clear .one).cfg.brkReturnOffset with | .one => 1 | .two => 2) ∧
    (0x0001 : Addr) = ({ withOrder .highFirst .clear .two with pc := 0xFFFF } : State).pc +
      (match (withOrder .highFirst .clear .two).cfg.brkReturnOffset with | .one => 1 | .two => 2) := by decide

theorem witness_FlagInstructionsWriteOneFlag :
    (Instr.clc, (0x18 : Byte), Flag.c, false) ∈
      [(Instr.clc, (0x18 : Byte), Flag.c, false), (.sec, 0x38, .c, true), (.cli, 0x58, .i, false),
       (.sei, 0x78, .i, true), (.cld, 0xD8, .d, false), (.sed, 0xF8, .d, true), (.clv, 0xB8, .v, false)] := by decide

theorem witness_UndocumentedOpcodesAreCompositions :
    let m := MemRef.zp 0x10
    let s := State.reset
    (Instr.ror (.mem m), Instr.adc (.imm (rorF (s.read (ea m s)) s).1), Instr.rra m) ∈
      [(Instr.lda (.mem m), Instr.tax, Instr.lax m), (.dec m, .cmp (.imm (s.read (ea m s) - 1)), .dcp m),
       (.inc m, .sbc (.imm (s.read (ea m s) + 1)), .isb m),
       (.asl (.mem m), .ora (.imm (aslF (s.read (ea m s)) s).1), .slo m),
       (.rol (.mem m), .and_ (.imm (rolF (s.read (ea m s)) s).1), .rla m),
       (.lsr (.mem m), .eor (.imm (lsrF (s.read (ea m s)) s).1), .sre m),
       (.ror (.mem m), .adc (.imm (rorF (s.read (ea m s)) s).1), .rra m)] := by simp

theorem witness_StepRunsTheDecodedInstruction :
    let s := start 0xFFFE [0xAD, 0x01, 0x08] []
    s.started = true ∧ admitted s.cfg.unofficialSet (s.read s.pc) = true ∧
    decode [s.read s.pc, s.read (s.pc + 1), s.read (s.pc + 2)] = .ok (.lda (.mem (.abs 0x01 0x08)), []) :=
  ⟨by decide, by decide, by rfl⟩

/-- The clause over any bus, for each length. -/
theorem witness_StepRunsTheDecodedInstruction_onAnotherBus :
    let go := fun (code : List Byte) => onCountingBus (start 0xFFFE code [])
    let bytes := fun (s : State (Nat × Memory) countingBus) => [s.read s.pc,
      (s.afterRead s.pc).read (s.pc + 1), ((s.afterRead s.pc).afterRead (s.pc + 1)).read (s.pc + 2)]
    (∀ code ∈ [[0xEA], [0xA9, 0x01], [0xAD, 0x01, 0x08]], (go code).started = true ∧
      admitted (go code).cfg.unofficialSet ((go code).read (go code).pc) = true) ∧
    (∃ rest, decode (bytes (go [0xEA])) = .ok (.nop, rest)) ∧ Instr.nop.length = 1 ∧
    (∃ rest, decode (bytes (go [0xA9, 0x01])) = .ok (.lda (.imm 0x01), rest)) ∧ (Instr.lda (.imm 0x01)).length = 2 ∧
    (∃ rest, decode (bytes (go [0xAD, 0x01, 0x08])) = .ok (.lda (.mem (.abs 0x01 0x08)), rest)) ∧
    (Instr.lda (.mem (.abs 0x01 0x08))).length = 3 :=
  ⟨by decide, ⟨_, rfl⟩, rfl, ⟨_, rfl⟩, rfl, ⟨_, rfl⟩, rfl⟩

theorem witness_AbsentOpcodeFaults :
    let s := start 0xFFFF [0x02] []
    s.started = true ∧ s.read s.pc ∈ absentOpcodes ∧
    (onCountingBus s).started = true ∧ (onCountingBus s).read s.pc ∈ absentOpcodes := by decide

/-- Both clauses: an admitted opcode, and one that is not. -/
theorem witness_StepSucceedsExactlyOnAdmittedOpcodes :
    let s := start 0x0200 [0xFF] []
    let t := start 0x0200 [0xE2] []
    s.started = true ∧ admitted s.cfg.unofficialSet (s.read s.pc) = true ∧
    t.started = true ∧ admitted t.cfg.unofficialSet (t.read t.pc) = false ∧
    admitted s.cfg.unofficialSet ((onCountingBus s).read s.pc) = true ∧
    admitted t.cfg.unofficialSet ((onCountingBus t).read t.pc) = false := by decide

theorem witness_StepBeforeResetIsRefused : (State.beforeReset Config.default [] : State).started = false ∧
    (State.beforeReset Config.default (0, []) : State (Nat × Memory) countingBus).started = false := by decide

/-- With and without an override. -/
theorem witness_ResetSetsEveryRegister :
    (∃ s t : State, resetMachine (some 0xC000) s = t) ∧ (∃ s t : State, resetMachine none s = t) :=
  ⟨⟨State.reset, _, rfl⟩, ⟨State.reset, _, rfl⟩⟩

/-- A state with the invariant and a step from it. -/
theorem witness_EveryStepKeepsInvariant :
    let s := start 0x0200 [0xE6, 0x10] [(0x0010, 0xFF)]
    (s.mem.wf = true ∧ s.flag .u = true) ∧ ∃ t, step s = .next t := ⟨by decide, _, rfl⟩

theorem witness_NoStepChangesTheParameters :
    (∃ t, step (start 0x0200 [0xEA] []) = .next t) ∧
    (∃ t, stepOver (onCountingBus (start 0x0200 [0xEA] [])) = .next t) := ⟨⟨_, rfl⟩, ⟨_, rfl⟩⟩

/-- Steps of two and of eight cycles; and a step on another bus. -/
theorem witness_EveryStepCostsTwoToEightCycles :
    after (fun t => t.cyc) (start 0x0200 [0xEA] []) = some 2 ∧
    after (fun t => t.cyc) (start 0x0200 [0xF3, 0x10] []) = some 8 ∧
    ∃ t, stepOver (onCountingBus (start 0x0200 [0xF3, 0x10] [])) = .next t := ⟨by decide, by decide, _, rfl⟩

/-- A run of one step that stops, by a fault and by the refusal. -/
theorem witness_AStoppedRunStaysStopped :
    (let s := start 0x0200 [0x02] []
     runSteps 1 s = (s, .fault (.invalidOpcode 0x02 0x0200))) ∧
    (let s : State := State.beforeReset Config.default []
     runSteps 1 s = (s, .refused .notReset)) := ⟨by rfl, by rfl⟩

theorem witness_StoredWordRunsNext : admitted State.reset.cfg.unofficialSet 0x6C = true := by decide

theorem witness_OnlyTheListedInstructionsWriteEachComponent :
    (∃ t, exec (.adc (.imm 0x01)) State.reset = .next t) ∧ assignsPC (.adc (.imm 0x01)) = false ∧
    writesMemory (.adc (.imm 0x01)) = false ∧
    (∃ t, execOver (.adc (.imm 0x01)) (onCountingBus State.reset) = .next t) := ⟨⟨_, rfl⟩, rfl, rfl, ⟨_, rfl⟩⟩

/-- With either flag. -/
theorem witness_NoInstructionButPhpAndBrkReadsDecimalOrInterrupt :
    Flag.d ∈ [Flag.d, Flag.i] ∧ Flag.i ∈ [Flag.d, Flag.i] ∧ Instr.plp ≠ .php ∧ Instr.plp ≠ .brk ∧
    ∃ t, exec .plp State.reset = .next t := ⟨by decide, by decide, by decide, by decide, _, rfl⟩

/-- A step of the second clause; and of the third, two buses of different states that agree, with two machines
on them. -/
theorem witness_StepAndResetSeeTheBusOnlyThroughTheirAccesses :
    (∃ t, step (start 0x0200 [0x20, 0x34, 0x12] []) = .next t) ∧
    (BusesAgree defaultMapper countingBus (fun m n => n.2 = m) ∧
      SameProcessor (start 0x0200 [0x20, 0x34, 0x12] []) (onCountingBus (start 0x0200 [0x20, 0x34, 0x12] []))) := by
  refine ⟨⟨_, rfl⟩, ?_, ⟨rfl, rfl, rfl, rfl, rfl, rfl, rfl, rfl, rfl⟩⟩
  rintro m n rfl
  exact ⟨fun _ => ⟨rfl, rfl⟩, fun _ _ => rfl⟩

/-- The clauses at the ends of their ranges. -/
theorem witness_DefaultMapperMirrorsAndStores :
    (0x1FFF : Addr).toNat < 0x2000 ∧ 0x2000 ≤ (0x2000 : Addr).toNat ∧ (0x3FFF : Addr).toNat < 0x4000 ∧
    0x4000 ≤ (0x4000 : Addr).toNat ∧ cellOf 0x1FFF = 0x07FF ∧ cellOf 0x2000 = 0x2000 ∧ cellOf 0x3FFF = 0x2007 ∧
    cellOf 0x4000 = 0x4000 := by decide

theorem witness_CanonicalStoresAreDeterminedByReads :
    Memory.wf [(0x0000, 0x01), (0x2007, 0x02), (0xFFFF, 0x03)] = true := by decide

/-- Absent, and set with each of NMI and IRQ. -/
theorem witness_InterruptInjectionFollowsItsContract :
    let on : State := { start 0x0200 [] [] with p := 0x20, cfg := { Config.default with interruptInjection := true } }
    State.reset.cfg.interruptInjection = false ∧ on.cfg.interruptInjection = true ∧ on.started = true ∧
    (injectInterrupt true true on).isSome = true ∧ (injectInterrupt false true on).isSome = true ∧
    (injectInterrupt false true (on.setFlag .i true)).isSome = false := by decide

end Sys2Proof.Tests
end

namespace Sys2Proof.Machine

/-! Two machines that differ in one flag (R4, R29): they stay so through every shared operation that reads neither D
nor I, which gives both the same values. -/

open Host (Outcome)

/-- The two machines agree in everything but one flag of P. -/
def DifferOnlyIn (f : Flag) (s t : State) : Prop :=
  ∃ q, t = { s with p := q } ∧ ∀ g, g ≠ f → getFlag g q = s.flag g

theorem differOnlyIn_setFlag (s : State) (f : Flag) (v : Bool) : DifferOnlyIn f s (s.setFlag f v) := by
  refine ⟨putFlag f v s.p, rfl, fun g hg => ?_⟩
  rw [getFlag_putFlag, if_neg hg]
  rfl

section differ

variable {f : Flag} {s t : State}

/-! What both machines show. -/

theorem DifferOnlyIn.flag (h : DifferOnlyIn f s t) {g : Flag} (hg : g ≠ f) : t.flag g = s.flag g := by
  obtain ⟨q, rfl, hq⟩ := h
  exact hq g hg

theorem DifferOnlyIn.a (h : DifferOnlyIn f s t) : t.a = s.a := by
  obtain ⟨q, rfl, -⟩ := h
  rfl

theorem DifferOnlyIn.read (h : DifferOnlyIn f s t) (a : Addr) : t.read a = s.read a := by
  obtain ⟨q, rfl, -⟩ := h
  rfl

theorem DifferOnlyIn.ea (h : DifferOnlyIn f s t) (m : MemRef) : ea m t = ea m s := by
  obtain ⟨q, rfl, -⟩ := h
  cases m <;> rfl

theorem DifferOnlyIn.crosses (h : DifferOnlyIn f s t) (m : MemRef) : crosses m t = crosses m s := by
  obtain ⟨q, rfl, -⟩ := h
  cases m <;> rfl

theorem DifferOnlyIn.operandValue (h : DifferOnlyIn f s t) (o : Operand) :
    operandValue o t = operandValue o s := by
  cases o with
  | imm i => rfl
  | mem m => rw [operandValue_mem, operandValue_mem, h.ea, h.read]

theorem DifferOnlyIn.operandCrosses (h : DifferOnlyIn f s t) (o : Operand) :
    operandCrosses o t = operandCrosses o s := by
  cases o with
  | imm i => rfl
  | mem m => exact h.crosses m

/-! Updates of everything but P. -/

theorem DifferOnlyIn.setA (h : DifferOnlyIn f s t) (v : Byte) :
    DifferOnlyIn f { s with a := v } { t with a := v } := by
  obtain ⟨q, rfl, hq⟩ := h
  exact ⟨q, rfl, hq⟩

theorem DifferOnlyIn.setX (h : DifferOnlyIn f s t) (v : Byte) :
    DifferOnlyIn f { s with x := v } { t with x := v } := by
  obtain ⟨q, rfl, hq⟩ := h
  exact ⟨q, rfl, hq⟩

theorem DifferOnlyIn.setY (h : DifferOnlyIn f s t) (v : Byte) :
    DifferOnlyIn f { s with y := v } { t with y := v } := by
  obtain ⟨q, rfl, hq⟩ := h
  exact ⟨q, rfl, hq⟩

theorem DifferOnlyIn.setSP (h : DifferOnlyIn f s t) (v : Byte) :
    DifferOnlyIn f { s with sp := v } { t with sp := v } := by
  obtain ⟨q, rfl, hq⟩ := h
  exact ⟨q, rfl, hq⟩

theorem DifferOnlyIn.setPC (h : DifferOnlyIn f s t) (a : Addr) :
    DifferOnlyIn f { s with pc := a } { t with pc := a } := by
  obtain ⟨q, rfl, hq⟩ := h
  exact ⟨q, rfl, hq⟩

theorem DifferOnlyIn.write (h : DifferOnlyIn f s t) (a : Addr) (v : Byte) :
    DifferOnlyIn f (s.write a v) (t.write a v) := by
  obtain ⟨q, rfl, hq⟩ := h
  exact ⟨q, rfl, hq⟩

theorem DifferOnlyIn.finish (h : DifferOnlyIn f s t) (i : Instr) (c : Bool) :
    DifferOnlyIn f (finish i c s) (finish i c t) := by
  obtain ⟨q, rfl, hq⟩ := h
  exact ⟨q, rfl, hq⟩

theorem DifferOnlyIn.finishAt (h : DifferOnlyIn f s t) (i : Instr) :
    DifferOnlyIn f (finishAt i s) (finishAt i t) := by
  obtain ⟨q, rfl, hq⟩ := h
  exact ⟨q, rfl, hq⟩

theorem DifferOnlyIn.branch {c c' : Bool} (h : DifferOnlyIn f s t) (i : Instr) (hc : c' = c) (off : Byte) :
    DifferOnlyIn f (branch i c off s) (branch i c' off t) := by
  obtain ⟨q, rfl, hq⟩ := h
  subst hc
  cases c'
  · exact ⟨q, rfl, hq⟩
  · exact ⟨q, rfl, hq⟩

theorem DifferOnlyIn.push (h : DifferOnlyIn f s t) (v : Byte) : DifferOnlyIn f (push v s) (push v t) := by
  obtain ⟨q, rfl, hq⟩ := h
  exact ⟨q, rfl, hq⟩

theorem DifferOnlyIn.push16 (h : DifferOnlyIn f s t) (w : Addr) : DifferOnlyIn f (push16 w s) (push16 w t) := by
  have first : pushedFirst w t = pushedFirst w s := by obtain ⟨q, rfl, -⟩ := h; rfl
  have second : pushedSecond w t = pushedSecond w s := by obtain ⟨q, rfl, -⟩ := h; rfl
  rw [push16_eq, push16_eq, first, second]
  exact (h.push _).push _

theorem DifferOnlyIn.pull (h : DifferOnlyIn f s t) :
    (pull t).1 = (pull s).1 ∧ DifferOnlyIn f (pull s).2 (pull t).2 := by
  obtain ⟨q, rfl, hq⟩ := h
  exact ⟨rfl, q, rfl, hq⟩

theorem DifferOnlyIn.pull16 (h : DifferOnlyIn f s t) :
    (pull16 t).1 = (pull16 s).1 ∧ DifferOnlyIn f (pull16 s).2 (pull16 t).2 := by
  obtain ⟨q, rfl, hq⟩ := h
  exact ⟨rfl, q, rfl, hq⟩

/-! Updates of P: the flags written get the same values, and of the flags read none is D or I. -/

theorem DifferOnlyIn.setFlag (h : DifferOnlyIn f s t) (g : Flag) (b : Bool) :
    DifferOnlyIn f (s.setFlag g b) (t.setFlag g b) := by
  obtain ⟨q, rfl, hq⟩ := h
  refine ⟨putFlag g b q, rfl, fun k hk => ?_⟩
  rw [getFlag_putFlag, setFlag_flag, hq k hk]

theorem DifferOnlyIn.setZN (h : DifferOnlyIn f s t) (v : Byte) : DifferOnlyIn f (setZN v s) (setZN v t) :=
  (h.setFlag .z _).setFlag .n _

theorem DifferOnlyIn.compare (h : DifferOnlyIn f s t) (r v : Byte) :
    DifferOnlyIn f (compare r v s) (compare r v t) :=
  (h.setFlag .c _).setZN _

theorem DifferOnlyIn.bitTest (h : DifferOnlyIn f s t) (v : Byte) :
    DifferOnlyIn f (bitTest v s) (bitTest v t) := by
  unfold Machine.bitTest
  rw [h.a]
  exact ((h.setFlag .v _).setFlag .n _).setFlag .z _

theorem DifferOnlyIn.loadA (h : DifferOnlyIn f s t) (v : Byte) : DifferOnlyIn f (loadA v s) (loadA v t) :=
  (h.setA v).setZN v

theorem DifferOnlyIn.loadX (h : DifferOnlyIn f s t) (v : Byte) : DifferOnlyIn f (loadX v s) (loadX v t) :=
  (h.setX v).setZN v

theorem DifferOnlyIn.loadY (h : DifferOnlyIn f s t) (v : Byte) : DifferOnlyIn f (loadY v s) (loadY v t) :=
  (h.setY v).setZN v

theorem DifferOnlyIn.andA (h : DifferOnlyIn f s t) (v : Byte) : DifferOnlyIn f (andA v s) (andA v t) := by
  unfold Machine.andA
  rw [h.a]
  exact h.loadA _

theorem DifferOnlyIn.orA (h : DifferOnlyIn f s t) (v : Byte) : DifferOnlyIn f (orA v s) (orA v t) := by
  unfold Machine.orA
  rw [h.a]
  exact h.loadA _

theorem DifferOnlyIn.xorA (h : DifferOnlyIn f s t) (v : Byte) : DifferOnlyIn f (xorA v s) (xorA v t) := by
  unfold Machine.xorA
  rw [h.a]
  exact h.loadA _

section decimalOrInterrupt
variable (hf : f ∈ [Flag.d, Flag.i])
include hf

/-- A flag that is neither D nor I is the same on both. -/
theorem DifferOnlyIn.otherFlag (h : DifferOnlyIn f s t) {g : Flag} (hg : g ∉ [Flag.d, Flag.i]) :
    t.flag g = s.flag g := h.flag fun e => hg (e ▸ hf)

theorem DifferOnlyIn.carry (h : DifferOnlyIn f s t) : t.carry = s.carry := by
  rw [State.carry, State.carry, h.otherFlag hf (by decide)]

/-- The one adder reads C and not D (R4, R147). -/
theorem DifferOnlyIn.addWithCarry (h : DifferOnlyIn f s t) (v : Byte) :
    DifferOnlyIn f (addWithCarry v s) (addWithCarry v t) := by
  unfold Machine.addWithCarry
  rw [h.a, h.carry hf]
  exact ((h.setFlag .c _).setFlag .v _).loadA _

/-- Of the P before it, RestoreStatus reads at most B (R203). -/
theorem DifferOnlyIn.restoreStatus (h : DifferOnlyIn f s t) (v : Byte) :
    DifferOnlyIn f (restoreStatus v s) (restoreStatus v t) := by
  have hb : t.flag .b = s.flag .b := h.otherFlag hf (by decide)
  have hflag : ∀ g, (Machine.restoreStatus v t).flag g = (Machine.restoreStatus v s).flag g := by
    obtain ⟨q, rfl, -⟩ := h
    intro g
    simp only [restoreStatus_flag, hb]
  obtain ⟨q, rfl, -⟩ := h
  refine ⟨_, ?_, fun g _ => hflag g⟩
  unfold Machine.restoreStatus
  cases s.cfg.pullBPolicy <;> rfl

theorem DifferOnlyIn.vectoredReturn (h : DifferOnlyIn f s t) :
    DifferOnlyIn f (vectoredReturn s) (vectoredReturn t) := by
  obtain ⟨hstatus, hpulled⟩ := h.pull
  obtain ⟨hword, hreturned⟩ := (hpulled.restoreStatus hf (Machine.pull s).1).pull16
  unfold Machine.vectoredReturn
  simp only [hstatus, hword]
  exact hreturned.setPC _

end decimalOrInterrupt

/-! The functions of the read-modify-write class. -/

/-- The byte a function of Modify gives is the same on both machines, and they differ in the flag alone after it. -/
def KeepsDifference (f : Flag) (F : Byte → State → Byte × State) : Prop :=
  ∀ v s t, DifferOnlyIn f s t → (F v t).1 = (F v s).1 ∧ DifferOnlyIn f (F v s).2 (F v t).2

theorem DifferOnlyIn.shifted (h : DifferOnlyIn f s t) (r : Byte) (out : Bool) :
    DifferOnlyIn f (shifted r out s).2 (shifted r out t).2 :=
  (h.setFlag .c out).setZN r

theorem aslF_keepsDifference : KeepsDifference f aslF := fun _ _ _ h => ⟨rfl, h.shifted _ _⟩
theorem lsrF_keepsDifference : KeepsDifference f lsrF := fun _ _ _ h => ⟨rfl, h.shifted _ _⟩
theorem incF_keepsDifference : KeepsDifference f incF := fun _ _ _ h => ⟨rfl, h.setZN _⟩
theorem decF_keepsDifference : KeepsDifference f decF := fun _ _ _ h => ⟨rfl, h.setZN _⟩

theorem rolF_keepsDifference (hf : f ∈ [Flag.d, Flag.i]) : KeepsDifference f rolF := by
  intro v s t h
  unfold rolF
  rw [h.carry hf]
  exact ⟨rfl, h.shifted _ _⟩

theorem rorF_keepsDifference (hf : f ∈ [Flag.d, Flag.i]) : KeepsDifference f rorF := by
  intro v s t h
  unfold rorF
  rw [h.carry hf]
  exact ⟨rfl, h.shifted _ _⟩

theorem DifferOnlyIn.modify {F : Byte → State → Byte × State} (h : DifferOnlyIn f s t)
    (hF : KeepsDifference f F) (m : MemRef) :
    (modify m F t).1 = (modify m F s).1 ∧ DifferOnlyIn f (modify m F s).2 (modify m F t).2 := by
  obtain ⟨hvalue, hstate⟩ := hF (s.read (Machine.ea m s)) s t h
  rw [modify_default, modify_default, h.ea, h.read, hvalue]
  exact ⟨rfl, hstate.write _ _⟩

theorem DifferOnlyIn.modifyTarget {F : Byte → State → Byte × State} (h : DifferOnlyIn f s t)
    (hF : KeepsDifference f F) (o : Target) : DifferOnlyIn f (modifyTarget o F s) (modifyTarget o F t) := by
  cases o with
  | mem m => exact (h.modify hF m).2
  | acc =>
    obtain ⟨hvalue, hstate⟩ := hF s.a s t h
    unfold Machine.modifyTarget modifyAcc
    rw [h.a, hvalue]
    exact hstate.setA _

/-! One instruction. -/

/-- Where the first outcome is a next state, so is the second, and the two differ in the flag alone. -/
def NextDiffersOnlyIn (f : Flag) (o o' : Outcome State Fault Refusal) : Prop :=
  ∀ u, o = .next u → ∃ w, o' = .next w ∧ DifferOnlyIn f u w

theorem DifferOnlyIn.next (h : DifferOnlyIn f s t) : NextDiffersOnlyIn f (.next s) (.next t) := by
  rintro _ ⟨⟩
  exact ⟨t, rfl, h⟩

/-- Modify and then an operation on its byte: the read-modify-write instructions on memory. -/
theorem DifferOnlyIn.modifyThen {F : Byte → State → Byte × State} {G : Byte → State → State}
    (h : DifferOnlyIn f s t) (hF : KeepsDifference f F)
    (hG : ∀ v {s t}, DifferOnlyIn f s t → DifferOnlyIn f (G v s) (G v t)) (i : Instr) (m : MemRef) :
    NextDiffersOnlyIn f
      (.next (Machine.finish i (Machine.crosses m s) (G (Machine.modify m F s).1 (Machine.modify m F s).2)))
      (.next (Machine.finish i (Machine.crosses m t) (G (Machine.modify m F t).1 (Machine.modify m F t).2))) := by
  obtain ⟨hvalue, hstate⟩ := h.modify hF m
  rw [hvalue, h.crosses]
  exact ((hG _ hstate).finish i _).next

/-- Every instruction but PHP and BRK keeps two machines together that differ in D alone or in I alone. The second
machine is the first with another P, so that its registers, PC and parameters are the first's by definition. -/
theorem DifferOnlyIn.exec (h : DifferOnlyIn f s t) (hf : f ∈ [Flag.d, Flag.i]) (i : Instr) (hphp : i ≠ .php)
    (hbrk : i ≠ .brk) : NextDiffersOnlyIn f (exec i s) (exec i t) := by
  have hc : t.flag .c = s.flag .c := h.otherFlag hf (by decide)
  have hz : t.flag .z = s.flag .z := h.otherFlag hf (by decide)
  have hn : t.flag .n = s.flag .n := h.otherFlag hf (by decide)
  have hv : t.flag .v = s.flag .v := h.otherFlag hf (by decide)
  obtain ⟨q, rfl, -⟩ := id h
  cases i with
  | adc o =>
    rw [exec_adc, exec_adc, h.operandValue, h.operandCrosses]
    exact ((h.addWithCarry hf _).finish _ _).next
  | sbc o =>
    rw [exec_sbc, exec_sbc, h.operandValue, h.operandCrosses]
    exact ((h.addWithCarry hf _).finish _ _).next
  | cmp o =>
    rw [exec_cmp, exec_cmp, h.operandValue, h.operandCrosses]
    exact ((h.compare _ _).finish _ _).next
  | cpx o =>
    rw [exec_cpx, exec_cpx, h.operandValue, h.operandCrosses]
    exact ((h.compare _ _).finish _ _).next
  | cpy o =>
    rw [exec_cpy, exec_cpy, h.operandValue, h.operandCrosses]
    exact ((h.compare _ _).finish _ _).next
  | and_ o =>
    rw [exec_and, exec_and, h.operandValue, h.operandCrosses]
    exact ((h.andA _).finish _ _).next
  | ora o =>
    rw [exec_ora, exec_ora, h.operandValue, h.operandCrosses]
    exact ((h.orA _).finish _ _).next
  | eor o =>
    rw [exec_eor, exec_eor, h.operandValue, h.operandCrosses]
    exact ((h.xorA _).finish _ _).next
  | lda o =>
    rw [exec_lda, exec_lda, h.operandValue, h.operandCrosses]
    exact ((h.loadA _).finish _ _).next
  | ldx o =>
    rw [exec_ldx, exec_ldx, h.operandValue, h.operandCrosses]
    exact ((h.loadX _).finish _ _).next
  | ldy o =>
    rw [exec_ldy, exec_ldy, h.operandValue, h.operandCrosses]
    exact ((h.loadY _).finish _ _).next
  | bit m =>
    rw [exec_bit, exec_bit, h.ea, h.read, h.crosses]
    exact ((h.bitTest _).finish _ _).next
  | lax m =>
    rw [exec_lax, exec_lax, h.ea, h.read, h.crosses]
    exact ((((h.setA _).setX _).setZN _).finish _ _).next
  | sta m =>
    rw [exec_sta, exec_sta, h.ea, h.crosses]
    exact ((h.write _ _).finish _ _).next
  | stx m =>
    rw [exec_stx, exec_stx, h.ea, h.crosses]
    exact ((h.write _ _).finish _ _).next
  | sty m =>
    rw [exec_sty, exec_sty, h.ea, h.crosses]
    exact ((h.write _ _).finish _ _).next
  | sax m =>
    rw [exec_sax, exec_sax, h.ea, h.crosses]
    exact ((h.write _ _).finish _ _).next
  | nopMem op m =>
    rw [exec_nopMem, exec_nopMem, h.crosses]
    exact (h.finish _ _).next
  | asl o => exact ((h.modifyTarget aslF_keepsDifference o).finish _ _).next
  | lsr o => exact ((h.modifyTarget lsrF_keepsDifference o).finish _ _).next
  | rol o => exact ((h.modifyTarget (rolF_keepsDifference hf) o).finish _ _).next
  | ror o => exact ((h.modifyTarget (rorF_keepsDifference hf) o).finish _ _).next
  | inc m => exact h.modifyThen incF_keepsDifference (G := fun _ u => u) (fun _ _ _ k => k) _ m
  | dec m => exact h.modifyThen decF_keepsDifference (G := fun _ u => u) (fun _ _ _ k => k) _ m
  | dcp m =>
    refine h.modifyThen decF_keepsDifference (G := fun v u => Machine.compare u.a v u) (fun v _ _ k => ?_) _ m
    rw [k.a]
    exact k.compare _ v
  | isb m =>
    exact h.modifyThen incF_keepsDifference (G := fun v => Machine.addWithCarry (v ^^^ 0xFF))
      (fun _ _ _ k => k.addWithCarry hf _) _ m
  | slo m => exact h.modifyThen aslF_keepsDifference (G := Machine.orA) (fun v _ _ k => k.orA v) _ m
  | rla m => exact h.modifyThen (rolF_keepsDifference hf) (G := Machine.andA) (fun v _ _ k => k.andA v) _ m
  | sre m => exact h.modifyThen lsrF_keepsDifference (G := Machine.xorA) (fun v _ _ k => k.xorA v) _ m
  | rra m =>
    exact h.modifyThen (rorF_keepsDifference hf) (G := Machine.addWithCarry) (fun v _ _ k => k.addWithCarry hf v) _ m
  | bcc off => exact (h.branch _ (congrArg not hc) off).next
  | bcs off => exact (h.branch _ hc off).next
  | beq off => exact (h.branch _ hz off).next
  | bne off => exact (h.branch _ (congrArg not hz) off).next
  | bmi off => exact (h.branch _ hn off).next
  | bpl off => exact (h.branch _ (congrArg not hn) off).next
  | bvc off => exact (h.branch _ (congrArg not hv) off).next
  | bvs off => exact (h.branch _ hv off).next
  | jmp l k => exact ((h.setPC _).finishAt _).next
  | jmpInd l k => exact ((h.setPC _).finishAt _).next
  | jsr l k => exact (((h.push16 _).setPC _).finishAt _).next
  | rts => exact ((h.pull16.2.setPC _).finishAt _).next
  | rti => exact ((h.vectoredReturn hf).finishAt _).next
  | plp => exact ((h.pull.2.restoreStatus hf _).finish _ _).next
  | pha => exact ((h.push _).finish _ _).next
  | pla => exact ((h.pull.2.loadA _).finish _ _).next
  | tax | tsx | inx | dex => exact ((h.loadX _).finish _ _).next
  | tay | iny | dey => exact ((h.loadY _).finish _ _).next
  | txa | tya => exact ((h.loadA _).finish _ _).next
  | txs => exact ((h.setSP _).finish _ _).next
  | clc | sec | cli | sei | cld | sed | clv => exact ((h.setFlag _ _).finish _ _).next
  | sbcEB j => exact ((h.addWithCarry hf _).finish _ _).next
  | nop | nopImp op | nopImm j => exact (h.finish _ _).next
  | php => exact absurd rfl hphp
  | brk => exact absurd rfl hbrk
  | invalid op => nofun

end differ

/-- Settles O55: a step lemma for each instruction about two machines that differ in D alone or in I alone. -/
theorem noInstructionButPhpAndBrkReadsDecimalOrInterrupt :
    Obligations.NoInstructionButPhpAndBrkReadsDecimalOrInterrupt := by
  unfold Obligations.NoInstructionButPhpAndBrkReadsDecimalOrInterrupt
  intro i s t f v hf hphp hbrk hnext
  obtain ⟨u, hu, q, rfl, hq⟩ := (differOnlyIn_setFlag s f v).exec hf i hphp hbrk t hnext
  exact ⟨_, hu, fun r _ => by cases r <;> rfl, fun g hg => hq g (by simpa using hg), rfl, rfl, rfl, rfl, rfl⟩

end Sys2Proof.Machine

namespace Sys2Proof.Machine

/-! The optional interrupt injection (R304 to R306): the vectored entry without BRK's B and offset, in 7 cycles. -/

/-- An entry stores three bytes of the stack page and nothing else. -/
theorem vectoredEntry_keepsMemoryBut (ret : Addr) (status : Byte) (isBrk : Bool) (vector : Addr) (s : State) :
    KeepsMemoryBut [stackAddr s.sp, stackAddr (s.sp - 1), stackAddr (s.sp - 2)] s
      (vectoredEntry ret status isBrk vector s) := by
  intro a ha
  rw [vectoredEntry_read, if_neg (ha _ (by simp)), if_neg (ha _ (by simp)), if_neg (ha _ (by simp))]

/-- The registers, CYC and the rest of the machine after an interrupt's entry (R305). -/
theorem interruptEntry_fields (k : Interrupt) (s : State) :
    let t := interruptEntry k s
    t.a = s.a ∧ t.x = s.x ∧ t.y = s.y ∧ t.sp = s.sp - 3 ∧ t.cyc = s.cyc + 7 ∧ KeepsMachine s t := by
  obtain ⟨ha, hx, hy, hsp, hcyc, hstarted, hcfg, -, -⟩ :=
    vectoredEntry_fields s.pc ((s.p &&& 0xEF) ||| 0x20) false k.vector s
  exact ⟨ha, hx, hy, hsp, congrArg (· + 7) hcyc, hcfg, hstarted⟩

/-- The PC of an interrupt's entry is the word at its vector (R305). -/
theorem interruptEntry_pc (k : Interrupt) (s : State) : (interruptEntry k s).pc = s.read16 k.vector := by
  cases k
  · exact vectoredEntry_pc _ _ _ nmiVector s (by decide) (by decide)
  · exact vectoredEntry_pc _ _ _ brkVector s (by decide) (by decide)

/-- The flags after an interrupt's entry: I alone is written (R305). -/
theorem interruptEntry_flag (k : Interrupt) (s : State) (g : Flag) :
    (interruptEntry k s).flag g = if g = .i then true else s.flag g := by
  obtain ⟨-, -, -, -, -, -, -, -, hflag⟩ := vectoredEntry_fields s.pc ((s.p &&& 0xEF) ||| 0x20) false k.vector s
  rw [interruptEntry, addCycles_flag, hflag, if_neg (by simp)]

/-- The three bytes an interrupt's entry pushes, PC in either order of the parameter (R201, R305). -/
theorem interruptEntry_pushed (k : Interrupt) (s : State) :
    (interruptEntry k s).read (stackAddr s.sp) = pushedFirst s.pc s ∧
    (interruptEntry k s).read (stackAddr (s.sp - 1)) = pushedSecond s.pc s ∧
    (interruptEntry k s).read (stackAddr (s.sp - 2)) = (s.p &&& 0xEF) ||| 0x20 := by
  simp only [interruptEntry, addCycles_read]
  exact ⟨vectoredEntry_first _ _ _ _ s, vectoredEntry_second _ _ _ _ s, vectoredEntry_third _ _ _ _ s⟩

/-- An interrupt's entry stores its three bytes and nothing else (R305). -/
theorem interruptEntry_keepsMemoryBut (k : Interrupt) (s : State) :
    KeepsMemoryBut [stackAddr s.sp, stackAddr (s.sp - 1), stackAddr (s.sp - 2)] s (interruptEntry k s) := by
  intro b hb
  rw [interruptEntry, addCycles_read]
  exact vectoredEntry_keepsMemoryBut _ _ _ _ s b hb

/-- The choice of an injection that is present, for a machine that has run its first reset (R305, R306). -/
theorem injectInterrupt_present (nmi irq : Bool) (s : State) (hi : s.cfg.interruptInjection = true)
    (hs : s.started = true) : injectInterrupt nmi irq s =
      if nmi = true then some (interruptEntry .nmi s)
      else if irq = true ∧ s.flag .i = false then some (interruptEntry .irq s) else none := by
  simp only [injectInterrupt, hi, hs, Bool.and_self, if_true, Bool.and_eq_true, Bool.not_eq_true']

/-- Settles O60: the choice by the parameter and the priority, the entry by the laws of the vectored entry. -/
theorem interruptInjectionFollowsItsContract : Obligations.InterruptInjectionFollowsItsContract := by
  unfold Obligations.InterruptInjectionFollowsItsContract
  refine ⟨rfl, fun nmi irq s hi => by simp [injectInterrupt, hi], injectInterrupt_present, ?_⟩
  rintro k s _ rfl
  obtain ⟨ha, hx, hy, hsp, hcyc, hmachine⟩ := interruptEntry_fields k s
  obtain ⟨hfirst, hsecond, hstatus⟩ := interruptEntry_pushed k s
  obtain ⟨hhigh, hlow⟩ := pushed_orders s.pc s
  refine ⟨hstatus, ?_, ?_, interruptEntry_flag k s .i, ?_, hsp, ?_, ?_, hcyc, hmachine,
    interruptEntry_keepsMemoryBut k s⟩
  · rw [hfirst, hsecond]
    exact hhigh
  · rw [hfirst, hsecond]
    exact hlow
  · intro g hg
    rw [interruptEntry_flag, if_neg (by simpa using hg)]
  · intro r hr
    cases r with
    | a => exact ha
    | x => exact hx
    | y => exact hy
    | sp => simp at hr
  · rw [interruptEntry_pc]
    cases k <;> rfl

end Sys2Proof.Machine

namespace Sys2Proof.Machine

/-! What one instruction can do, on any bus: the frame of its body, then of the whole instruction (R22 to R25, R29,
R104, R105), and the bus it leaves (R61). Every statement about steps below is read off these. -/

open Host (Outcome)

variable {σ : Type} {bus : Bus σ}

/-- The body of an instruction, before its end advances PC and CYC: of the processor, it writes at most the listed
registers and flags. -/
structure KeepsBut (rs : List Reg) (fs : List Flag) (s u : State σ bus) : Prop where
  regs : KeepsRegsBut rs s u
  flags : KeepsFlagsBut fs s u
  machine : KeepsMachine s u
  pc : u.pc = s.pc
  cyc : u.cyc = s.cyc

section body

variable {rs : List Reg} {fs : List Flag} {s u v : State σ bus}

theorem KeepsBut.refl (s : State σ bus) : KeepsBut rs fs s s :=
  ⟨fun _ _ => rfl, fun _ _ => rfl, ⟨rfl, rfl⟩, rfl, rfl⟩

theorem KeepsBut.trans (h : KeepsBut rs fs s u) (k : KeepsBut rs fs u v) : KeepsBut rs fs s v where
  regs r hr := (k.regs r hr).trans (h.regs r hr)
  flags f hf := (k.flags f hf).trans (h.flags f hf)
  machine := ⟨k.machine.1.trans h.machine.1, k.machine.2.trans h.machine.2⟩
  pc := k.pc.trans h.pc
  cyc := k.cyc.trans h.cyc

/-- Reads move the bus alone (R62). -/
theorem OnlyBusMoves.keepsBut (h : OnlyBusMoves s u) : KeepsBut rs fs s u where
  regs r _ := by
    cases r with
    | a => exact h.a
    | x => exact h.x
    | y => exact h.y
    | sp => exact h.sp
  flags f _ := flag_congr _ _ h.p f
  machine := ⟨h.cfg, h.started⟩
  pc := h.pc
  cyc := h.cyc

/-! The primitive updates. -/

theorem keepsBut_write (s : State σ bus) (a : Addr) (b : Byte) : KeepsBut rs fs s (s.write a b) :=
  OnlyBusMoves.keepsBut rfl

theorem keepsBut_setFlag {f : Flag} (hf : f ∈ fs) (b : Bool) (s : State σ bus) :
    KeepsBut rs fs s (s.setFlag f b) where
  regs r _ := by cases r <;> rfl
  flags g hg := by rw [setFlag_flag, if_neg (ne_of_mem_of_not_mem hf hg).symm]
  machine := ⟨rfl, rfl⟩
  pc := rfl
  cyc := rfl

/-- New values of registers that are all listed. -/
theorem keepsBut_setRegs {s : State σ bus} {a x y sp : Byte}
    (h : KeepsRegsBut rs s { s with a := a, x := x, y := y, sp := sp }) :
    KeepsBut rs fs s { s with a := a, x := x, y := y, sp := sp } :=
  ⟨h, fun _ _ => rfl, ⟨rfl, rfl⟩, rfl, rfl⟩

theorem keepsBut_setA (h : .a ∈ rs) (b : Byte) (s : State σ bus) : KeepsBut rs fs s { s with a := b } :=
  keepsBut_setRegs fun r hr => by
    cases r with
    | a => exact absurd h hr
    | x | y | sp => rfl

theorem keepsBut_setX (h : .x ∈ rs) (b : Byte) (s : State σ bus) : KeepsBut rs fs s { s with x := b } :=
  keepsBut_setRegs fun r hr => by
    cases r with
    | x => exact absurd h hr
    | a | y | sp => rfl

theorem keepsBut_setY (h : .y ∈ rs) (b : Byte) (s : State σ bus) : KeepsBut rs fs s { s with y := b } :=
  keepsBut_setRegs fun r hr => by
    cases r with
    | y => exact absurd h hr
    | a | x | sp => rfl

theorem keepsBut_setSP (h : .sp ∈ rs) (b : Byte) (s : State σ bus) : KeepsBut rs fs s { s with sp := b } :=
  keepsBut_setRegs fun r hr => by
    cases r with
    | sp => exact absurd h hr
    | a | x | y => rfl

/-! The shared operations, each with the registers and flags it writes. -/

theorem keepsBut_setZN (h : [.z, .n] ⊆ fs) (b : Byte) (s : State σ bus) : KeepsBut rs fs s (setZN b s) :=
  (keepsBut_setFlag (h (by decide)) _ _).trans (keepsBut_setFlag (h (by decide)) _ _)

theorem keepsBut_loadA (ha : .a ∈ rs) (h : [.z, .n] ⊆ fs) (b : Byte) (s : State σ bus) :
    KeepsBut rs fs s (loadA b s) := (keepsBut_setA ha _ _).trans (keepsBut_setZN h _ _)

theorem keepsBut_loadX (hx : .x ∈ rs) (h : [.z, .n] ⊆ fs) (b : Byte) (s : State σ bus) :
    KeepsBut rs fs s (loadX b s) := (keepsBut_setX hx _ _).trans (keepsBut_setZN h _ _)

theorem keepsBut_loadY (hy : .y ∈ rs) (h : [.z, .n] ⊆ fs) (b : Byte) (s : State σ bus) :
    KeepsBut rs fs s (loadY b s) := (keepsBut_setY hy _ _).trans (keepsBut_setZN h _ _)

theorem keepsBut_shifted (h : [.c, .z, .n] ⊆ fs) (r : Byte) (out : Bool) (s : State σ bus) :
    KeepsBut rs fs s (shifted r out s).2 :=
  (keepsBut_setFlag (h (by decide)) _ _).trans (keepsBut_setZN (List.Subset.trans (by decide) h) _ _)

/-- Of the one adder (R140), the compares (R143) and BIT (R168). -/
theorem keepsBut_addWithCarry (ha : .a ∈ rs) (h : [.c, .z, .v, .n] ⊆ fs) (b : Byte) (s : State σ bus) :
    KeepsBut rs fs s (addWithCarry b s) :=
  ((keepsBut_setFlag (h (by decide)) _ s).trans (keepsBut_setFlag (h (by decide)) _ _)).trans
    (keepsBut_loadA ha (List.Subset.trans (by decide) h) _ _)

theorem keepsBut_compare (h : [.c, .z, .n] ⊆ fs) (r b : Byte) (s : State σ bus) :
    KeepsBut rs fs s (compare r b s) :=
  (keepsBut_setFlag (h (by decide)) _ s).trans (keepsBut_setZN (List.Subset.trans (by decide) h) _ _)

theorem keepsBut_bitTest (h : [.z, .v, .n] ⊆ fs) (b : Byte) (s : State σ bus) : KeepsBut rs fs s (bitTest b s) :=
  ((keepsBut_setFlag (h (by decide)) _ s).trans (keepsBut_setFlag (h (by decide)) _ _)).trans
    (keepsBut_setFlag (h (by decide)) _ _)

theorem keepsBut_store (m : MemRef) (b : Byte) (s : State σ bus) : KeepsBut rs fs s (store m b s) :=
  (onlyBusMoves_afterPointer m s).keepsBut.trans (keepsBut_write _ _ _)

theorem keepsBut_modify {F : Byte → State σ bus → Byte × State σ bus}
    (hF : ∀ b u, KeepsBut rs fs u (F b u).2) (m : MemRef) (s : State σ bus) :
    KeepsBut rs fs s (modify m F s).2 :=
  ((onlyBusMoves_afterMem m s).keepsBut.trans (hF _ _)).trans (keepsBut_write _ _ _)

/-- Modify on a shift's target writes A where the target is the accumulator (R118). -/
theorem keepsBut_modifyTarget {F : Byte → State σ bus → Byte × State σ bus}
    (hF : ∀ b u, KeepsBut rs fs u (F b u).2) (o : Target) (ha : o = .acc → .a ∈ rs) (s : State σ bus) :
    KeepsBut rs fs s (modifyTarget o F s) := by
  cases o with
  | acc => exact (hF _ _).trans (keepsBut_setA (ha rfl) _ _)
  | mem m => exact keepsBut_modify hF m s

theorem keepsBut_push (h : .sp ∈ rs) (b : Byte) (s : State σ bus) : KeepsBut rs fs s (push b s) :=
  (keepsBut_write s _ _).trans (keepsBut_setSP h _ _)

theorem keepsBut_push16 (h : .sp ∈ rs) (w : Addr) (s : State σ bus) : KeepsBut rs fs s (push16 w s) := by
  rw [push16_eq]
  exact (keepsBut_push h _ _).trans (keepsBut_push h _ _)

theorem keepsBut_pull (h : .sp ∈ rs) (s : State σ bus) : KeepsBut rs fs s (pull s).2 :=
  (onlyBusMoves_afterRead s _).keepsBut.trans (keepsBut_setSP h _ _)

theorem keepsBut_pull16 (h : .sp ∈ rs) (s : State σ bus) : KeepsBut rs fs s (pull16 s).2 :=
  (keepsBut_pull h s).trans (keepsBut_pull h _)

/-- RestoreStatus may write every flag (R203). -/
theorem keepsBut_restoreStatus (h : ∀ f, f ∈ fs) (b : Byte) (s : State σ bus) :
    KeepsBut rs fs s (restoreStatus b s) where
  regs r _ := by cases r <;> simp
  flags f hf := absurd (h f) hf
  machine := ⟨restoreStatus_cfg b s, restoreStatus_started b s⟩
  pc := restoreStatus_pc b s
  cyc := restoreStatus_cyc b s

end body

/-! The whole instruction. -/

/-- What one instruction does on any bus: of the processor, it writes the registers and flags listed for it, PC by
its length unless it is listed as assigning PC, and CYC by its cycles and what a taken branch adds (R104, R105, R180). -/
structure InstrFrame (i : Instr) (s t : State σ bus) : Prop where
  regs : KeepsRegsBut (writtenRegs i) s t
  flags : KeepsFlagsBut (writtenFlags i) s t
  machine : KeepsMachine s t
  pc : assignsPC i = false → t.pc = s.pc + BitVec.ofNat 16 i.length
  cyc : ∃ cross extra, t.cyc = s.cyc + BitVec.ofNat 64 (extra + cycles i cross) ∧
    (extra = 0 ∨ extra ≤ 2 ∧ cycles i cross = 2)

section instruction

variable {i : Instr} {s u : State σ bus}

/-- The end of an instruction that does not assign PC. -/
theorem KeepsBut.finish (h : KeepsBut (writtenRegs i) (writtenFlags i) s u) (c : Bool) :
    InstrFrame i s (finish i c u) where
  regs r hr := by rw [← h.regs r hr]; cases r <;> rfl
  flags f hf := by rw [finish_flag, h.flags f hf]
  machine := h.machine
  pc _ := by rw [finish_pc, h.pc]
  cyc := ⟨c, 0, by rw [finish_cyc, h.cyc, Nat.zero_add], .inl rfl⟩

/-- The end of an instruction that has assigned PC. -/
theorem KeepsBut.finishAt (h : KeepsBut (writtenRegs i) (writtenFlags i) s u) (hi : assignsPC i = true) (w : Addr) :
    InstrFrame i s (finishAt i { u with pc := w }) where
  regs r hr := by rw [← h.regs r hr]; cases r <;> rfl
  flags f hf := h.flags f hf
  machine := h.machine
  pc hn := by simp [hi] at hn
  cyc := ⟨false, 0, by rw [finishAt_cyc, h.cyc, Nat.zero_add], .inl rfl⟩

/-- A branch, taken or not (R180). -/
theorem instrFrame_branch (hi : assignsPC i = true) (hc : cycles i false = 2) (cond : Bool) (off : Byte)
    (s : State σ bus) : InstrFrame i s (branch i cond off s) := by
  cases cond with
  | false => exact (KeepsBut.refl s).finish false
  | true =>
    have frame := (KeepsBut.refl (rs := writtenRegs i) (fs := writtenFlags i) s).finishAt hi (branchTarget off s)
    refine ⟨fun r hr => ?_, frame.flags, frame.machine, frame.pc, false, branchExtra off s, ?_, .inr ⟨?_, hc⟩⟩
    · rw [← frame.regs r hr]
      cases r <;> rfl
    · rw [BitVec.ofNat_add, ← BitVec.add_assoc]
      rfl
    · have := Bool.toNat_le (hi8 (branchTarget off s) != hi8 (branchNext s))
      unfold branchExtra
      omega

/-- The one answer of an arm that completes. -/
theorem InstrFrame.next (h : InstrFrame i s u) (t : State σ bus) :
    (Outcome.next u : Outcome (State σ bus) Fault Refusal) = .next t → InstrFrame i s t := by
  rintro ⟨⟩
  exact h

end instruction

/-- The vectored entry of BRK (R205). -/
theorem instrFrame_brk (s : State σ bus) (ret : Addr) (status : Byte) :
    InstrFrame .brk s (finishAt .brk (vectoredEntry ret status true brkVector s)) :=
  (((((keepsBut_push16 (by decide) ret s).trans (keepsBut_push (by decide) status _)).trans
    (keepsBut_setFlag (by decide) true _)).trans (keepsBut_setFlag (f := .b) (by decide) true _)).trans
    (onlyBusMoves_afterRead16 _ brkVector).keepsBut).finishAt rfl _

/-- The return from a vectored entry (R209). -/
theorem instrFrame_rti (s : State σ bus) : InstrFrame .rti s (finishAt .rti (vectoredReturn s)) :=
  (((keepsBut_pull (by decide) s).trans (keepsBut_restoreStatus (by rintro ⟨⟩ <;> decide) _ _)).trans
    (keepsBut_pull16 (by decide) _)).finishAt rfl _

/-- Every instruction that completes keeps to its frame, on any bus. -/
theorem execOver_instrFrame (i : Instr) (s t : State σ bus) : execOver i s = .next t → InstrFrame i s t := by
  cases i with
  | adc o | sbc o =>
    exact (((onlyBusMoves_afterOperand o s).keepsBut.trans
      (keepsBut_addWithCarry (by simp [writtenRegs]) (by simp [writtenFlags]) _ _)).finish _).next t
  | cmp o | cpx o | cpy o =>
    exact (((onlyBusMoves_afterOperand o s).keepsBut.trans
      (keepsBut_compare (by simp [writtenFlags]) _ _ _)).finish _).next t
  | and_ o | ora o | eor o | lda o =>
    exact (((onlyBusMoves_afterOperand o s).keepsBut.trans
      (keepsBut_loadA (by simp [writtenRegs]) (by simp [writtenFlags]) _ _)).finish _).next t
  | ldx o =>
    exact (((onlyBusMoves_afterOperand o s).keepsBut.trans
      (keepsBut_loadX (by simp [writtenRegs]) (by simp [writtenFlags]) _ _)).finish _).next t
  | ldy o =>
    exact (((onlyBusMoves_afterOperand o s).keepsBut.trans
      (keepsBut_loadY (by simp [writtenRegs]) (by simp [writtenFlags]) _ _)).finish _).next t
  | bit m =>
    exact (((onlyBusMoves_afterMem m s).keepsBut.trans
      (keepsBut_bitTest (by simp [writtenFlags]) _ _)).finish _).next t
  | lax m =>
    exact (((((onlyBusMoves_afterMem m s).keepsBut.trans (keepsBut_setA (by simp [writtenRegs]) _ _)).trans
      (keepsBut_setX (by simp [writtenRegs]) _ _)).trans (keepsBut_setZN (by simp [writtenFlags]) _ _)).finish _).next t
  | sta m | stx m | sty m | sax m => exact ((keepsBut_store m _ s).finish _).next t
  | asl o | lsr o | rol o | ror o =>
    exact ((keepsBut_modifyTarget (fun _ _ => keepsBut_shifted (by simp [writtenFlags]) _ _ _) o
      (by rintro rfl; decide) s).finish _).next t
  | inc m | dec m =>
    exact ((keepsBut_modify (fun _ _ => keepsBut_setZN (by simp [writtenFlags]) _ _) m s).finish _).next t
  | dcp m =>
    exact (((keepsBut_modify (fun _ _ => keepsBut_setZN (by simp [writtenFlags]) _ _) m s).trans
      (keepsBut_compare (by simp [writtenFlags]) _ _ _)).finish _).next t
  | isb m =>
    exact (((keepsBut_modify (fun _ _ => keepsBut_setZN (by simp [writtenFlags]) _ _) m s).trans
      (keepsBut_addWithCarry (by simp [writtenRegs]) (by simp [writtenFlags]) _ _)).finish _).next t
  | slo m | rla m | sre m =>
    exact (((keepsBut_modify (fun _ _ => keepsBut_shifted (by simp [writtenFlags]) _ _ _) m s).trans
      (keepsBut_loadA (by simp [writtenRegs]) (by simp [writtenFlags]) _ _)).finish _).next t
  | rra m =>
    exact (((keepsBut_modify (fun _ _ => keepsBut_shifted (by simp [writtenFlags]) _ _ _) m s).trans
      (keepsBut_addWithCarry (by simp [writtenRegs]) (by simp [writtenFlags]) _ _)).finish _).next t
  | sbcEB j =>
    exact ((keepsBut_addWithCarry (by simp [writtenRegs]) (by simp [writtenFlags]) _ s).finish _).next t
  | bcc off | bcs off | beq off | bne off | bmi off | bpl off | bvc off | bvs off =>
    exact (instrFrame_branch rfl rfl _ off s).next t
  | jmp l h => exact ((KeepsBut.refl s).finishAt rfl _).next t
  | jmpInd l h => exact ((onlyBusMoves_afterIndirect l h s).keepsBut.finishAt rfl _).next t
  | jsr l h => exact ((keepsBut_push16 (by simp [writtenRegs]) _ s).finishAt rfl _).next t
  | rts => exact ((keepsBut_pull16 (by decide) s).finishAt rfl _).next t
  | brk => exact (instrFrame_brk s _ _).next t
  | rti => exact (instrFrame_rti s).next t
  | php | pha => exact ((keepsBut_push (by decide) _ s).finish _).next t
  | plp =>
    exact (((keepsBut_pull (by decide) s).trans
      (keepsBut_restoreStatus (by rintro ⟨⟩ <;> decide) _ _)).finish _).next t
  | pla =>
    exact (((keepsBut_pull (by decide) s).trans (keepsBut_loadA (by decide) (by decide) _ _)).finish _).next t
  | txa | tya => exact ((keepsBut_loadA (by decide) (by decide) _ s).finish _).next t
  | tax | tsx | inx | dex => exact ((keepsBut_loadX (by decide) (by decide) _ s).finish _).next t
  | tay | iny | dey => exact ((keepsBut_loadY (by decide) (by decide) _ s).finish _).next t
  | txs => exact ((keepsBut_setSP (by decide) _ s).finish _).next t
  | clc | sec | cli | sei | cld | sed | clv => exact ((keepsBut_setFlag (by decide) _ s).finish _).next t
  | nop | nopImp _ | nopImm _ => exact ((KeepsBut.refl s).finish _).next t
  | nopMem op m => exact ((onlyBusMoves_afterDiscardedOperand m s).keepsBut.finish _).next t
  | invalid op => nofun

/-! The bus after one instruction: the accesses of its body, in their order (R61). -/

section accesses

variable {i : Instr} {s u : State σ bus}

/-- The bus of a completing arm is that of its body, which its end leaves alone. -/
theorem mem_of_next {m : σ} {t : State σ bus} (h : u.mem = m) :
    (Outcome.next u : Outcome (State σ bus) Fault Refusal) = .next t → t.mem = m := by
  rintro ⟨⟩
  exact h

theorem branch_mem (cond : Bool) (off : Byte) (s : State σ bus) : (branch i cond off s).mem = s.mem := by
  obtain ⟨-, -, -, -, -, hmem, -⟩ := branch_fields i cond off s
  exact hmem

/-- The two pulls of RTS (R192). -/
theorem replay_pull16 (s : State σ bus) :
    replay bus [.read (stackAddr (s.sp + 1)), .read (stackAddr (s.sp + 2))] s.mem = (pull16 s).2.mem := by
  rw [show s.sp + 2 = s.sp + 1 + 1 from (sp_add_two s.sp).symm]
  rfl

/-- The three pushes and two vector reads of BRK (R205). -/
theorem replay_vectoredEntry (ret : Addr) (status : Byte) (isBrk : Bool) (vector : Addr) (s : State σ bus) :
    replay bus (push16Accesses s.cfg.stackWordOrder ret s.sp ++ [.write (stackAddr (s.sp - 2)) status] ++
      word16Accesses vector) s.mem = (vectoredEntry ret status isBrk vector s).mem := by
  obtain ⟨-, -, -, -, -, -, -, hmem, -⟩ := vectoredEntry_fields ret status isBrk vector s
  obtain ⟨-, -, -, hsp, -⟩ := push16_fields ret s
  rw [hmem, replay_append, replay_append, replay_push16Accesses, ← hsp]
  rfl

/-- The three pulls of RTI (R209). -/
theorem replay_vectoredReturn (s : State σ bus) :
    replay bus [.read (stackAddr (s.sp + 1)), .read (stackAddr (s.sp + 2)), .read (stackAddr (s.sp + 3))] s.mem =
      (vectoredReturn s).mem := by
  have h2 : s.sp + 2 = s.sp + 1 + 1 := (sp_add_two s.sp).symm
  have h3 : s.sp + 3 = s.sp + 1 + 1 + 1 := by bv_omega
  rw [h2, h3]
  show _ = (pull16 (restoreStatus (pull s).1 (pull s).2)).2.mem
  rw [pull16_state]
  show _ = (bus.read (bus.read (restoreStatus (pull s).1 (pull s).2).mem _).2 _).2
  simp only [restoreStatus_mem, restoreStatus_sp, pull_sp]
  rfl

/-- The pointer reads of a NOP, and the read of its operand where the parameter says so (R271). -/
theorem replay_discardedOperand (m : MemRef) (s : State σ bus) :
    replay bus (if s.cfg.nopOperandRead then readAccesses m s else pointerReads m s) s.mem =
      (afterDiscardedOperand m s).mem := by
  unfold afterDiscardedOperand
  cases s.cfg.nopOperandRead with
  | true => exact replay_readAccesses m s
  | false => exact replay_pointerReads m s

/-- The bus after an instruction is its accesses made in order, on any bus (R61). -/
theorem execOver_mem (i : Instr) (s t : State σ bus) :
    execOver i s = .next t → t.mem = replay bus (bodyAccesses i s) s.mem := by
  cases i with
  | adc o | sbc o | cmp o | cpx o | cpy o | and_ o | ora o | eor o | lda o | ldx o | ldy o =>
    exact mem_of_next (replay_operandAccesses o s).symm
  | bit m | lax m => exact mem_of_next (replay_readAccesses m s).symm
  | sta m | stx m | sty m | sax m => exact mem_of_next (replay_storeAccesses m _ s).symm
  | asl o => exact mem_of_next (replay_targetAccesses o aslF aslF_status s).symm
  | lsr o => exact mem_of_next (replay_targetAccesses o lsrF lsrF_status s).symm
  | rol o => exact mem_of_next (replay_targetAccesses o rolF rolF_status s).symm
  | ror o => exact mem_of_next (replay_targetAccesses o rorF rorF_status s).symm
  | inc m | isb m => exact mem_of_next (replay_modifyAccesses m incF incF_status s).symm
  | dec m | dcp m => exact mem_of_next (replay_modifyAccesses m decF decF_status s).symm
  | slo m => exact mem_of_next (replay_modifyAccesses m aslF aslF_status s).symm
  | rla m => exact mem_of_next (replay_modifyAccesses m rolF rolF_status s).symm
  | sre m => exact mem_of_next (replay_modifyAccesses m lsrF lsrF_status s).symm
  | rra m => exact mem_of_next (replay_modifyAccesses m rorF rorF_status s).symm
  | nopMem op m => exact mem_of_next (replay_discardedOperand m s).symm
  | bcc off | bcs off | beq off | bne off | bmi off | bpl off | bvc off | bvs off =>
    exact mem_of_next (branch_mem _ off s)
  | jmpInd l h => exact mem_of_next rfl
  | jsr l h => exact mem_of_next (replay_push16Accesses _ s).symm
  | rts => exact mem_of_next (replay_pull16 s).symm
  | brk => exact mem_of_next (replay_vectoredEntry (s.pc + brkOffset s.cfg) (pushedStatus s.p) true brkVector s).symm
  | rti => exact mem_of_next (replay_vectoredReturn s).symm
  | plp => exact mem_of_next (restoreStatus_mem (pull s).1 (pull s).2)
  | php | pha | pla => exact mem_of_next rfl
  | tax | tay | txa | tya | tsx | txs | inx | iny | dex | dey => exact mem_of_next rfl
  | clc | sec | cli | sei | cld | sed | clv => exact mem_of_next rfl
  | jmp _ _ | nop | sbcEB _ | nopImp _ | nopImm _ => exact mem_of_next rfl
  | invalid op => nofun

end accesses

/-! The default mapper: what a list of accesses can do to its store (R55, R63). -/

/-- Every access keeps the store canonical (R55). -/
theorem replay_wf (l : List BusAccess) (m : Memory) (h : m.wf = true) : (replay defaultMapper l m).wf = true := by
  induction l generalizing m with
  | nil => exact h
  | cons x l ih =>
    cases x with
    | read a => exact ih _ h
    | write a v => exact ih _ (wf_writeCell m (cellOf a) v (isCell_cellOf a) h)

/-- Whether an access is a read. -/
def BusAccess.isRead : BusAccess → Bool
  | .read _ => true
  | .write _ _ => false

/-- Reads alone change nothing (R55). -/
theorem replay_of_reads (l : List BusAccess) (m : Memory) (h : l.all BusAccess.isRead = true) :
    replay defaultMapper l m = m := by
  induction l with
  | nil => rfl
  | cons x l ih =>
    obtain ⟨hx, hl⟩ := Bool.and_eq_true_iff.mp (List.all_cons ▸ h)
    cases x with
    | read a => exact ih hl
    | write a v => nomatch hx

theorem pointerReads_isRead (m : MemRef) (s : State σ bus) : (pointerReads m s).all BusAccess.isRead = true := by
  cases m <;> rfl

theorem readAccesses_isRead (m : MemRef) (s : State σ bus) : (readAccesses m s).all BusAccess.isRead = true := by
  rw [readAccesses, List.all_append, pointerReads_isRead]
  rfl

theorem operandAccesses_isRead (o : Operand) (s : State σ bus) :
    (operandAccesses o s).all BusAccess.isRead = true := by
  cases o with
  | imm j => rfl
  | mem m => exact readAccesses_isRead m s

/-- The instructions not listed as writing memory make reads alone (R118, R200). -/
theorem bodyAccesses_isRead (i : Instr) (s : State σ bus) :
    writesMemory i = false → (bodyAccesses i s).all BusAccess.isRead = true := by
  cases i with
  | adc o | sbc o | cmp o | cpx o | cpy o | and_ o | ora o | eor o | lda o | ldx o | ldy o =>
    exact fun _ => operandAccesses_isRead o s
  | bit m | lax m => exact fun _ => readAccesses_isRead m s
  | nopMem op m =>
    intro _
    show (if s.cfg.nopOperandRead then readAccesses m s else pointerReads m s).all BusAccess.isRead = true
    split
    · exact readAccesses_isRead m s
    · exact pointerReads_isRead m s
  | asl o | lsr o | rol o | ror o =>
    cases o with
    | acc => exact fun _ => rfl
    | mem m => cases m <;> nofun
  | sta _ | stx _ | sty _ | sax _ | inc _ | dec _ | dcp _ | isb _ | slo _ | rla _ | sre _ | rra _ => nofun
  | pha | php | jsr _ _ | brk => nofun
  | bcc _ | bcs _ | beq _ | bne _ | bmi _ | bpl _ | bvc _ | bvs _ | jmp _ _ => exact fun _ => rfl
  | jmpInd _ _ | rts | rti | plp | pla | sbcEB _ | nop | nopImp _ | nopImm _ | invalid _ => exact fun _ => rfl
  | tax | tay | txa | tya | tsx | txs | inx | iny | dex | dey => exact fun _ => rfl
  | clc | sec | cli | sei | cld | sed | clv => exact fun _ => rfl

/-- Settles O54: the frame of every instruction on any bus, and the accesses of those that only read. -/
theorem onlyTheListedInstructionsWriteEachComponent :
    Obligations.OnlyTheListedInstructionsWriteEachComponent := by
  unfold Obligations.OnlyTheListedInstructionsWriteEachComponent
  constructor
  · intro i s t h
    rw [← execOver_default] at h
    obtain ⟨hregs, hflags, hmachine, hpc, -⟩ := execOver_instrFrame i s t h
    refine ⟨hregs, hflags, hmachine, hpc, fun hreads => ?_⟩
    rw [execOver_mem i s t h, replay_of_reads _ _ (bodyAccesses_isRead i s hreads)]
  · intro σ bus i s t h
    obtain ⟨hregs, hflags, hmachine, hpc, -⟩ := execOver_instrFrame i s t h
    exact ⟨hregs, hflags, hmachine, hpc⟩

/-! One step. -/

/-- A step that answers a next state runs the fetched instruction after its fetch (R100). -/
theorem stepOver_next {s t : State σ bus} (h : stepOver s = .next t) :
    execOver (fetchInstr s) (afterFetch s) = .next t := by
  unfold stepOver at h
  split at h
  · exact h
  · nomatch h

/-- The fetch moves the bus alone, and every instruction keeps the parameters and the reset mark (R37, R333). -/
theorem stepOver_keepsMachine {s t : State σ bus} (h : stepOver s = .next t) : KeepsMachine s t := by
  obtain ⟨hcfg, hstarted⟩ := (execOver_instrFrame _ _ t (stepOver_next h)).machine
  exact ⟨hcfg.trans (afterFetch_cfg s), hstarted.trans (afterFetch_started s)⟩

/-- Settles O50: the default mapper's step is the general one. -/
theorem noStepChangesTheParameters : Obligations.NoStepChangesTheParameters := by
  unfold Obligations.NoStepChangesTheParameters
  exact ⟨fun s t h => stepOver_keepsMachine (stepOver_default s ▸ h), fun σ bus s t h => stepOver_keepsMachine h⟩

/-! The invariant (R27, R55). -/

/-- PLP and RTI alone write P.U (R29). -/
theorem u_mem_writtenFlags {i : Instr} : .u ∈ writtenFlags i → i = .plp ∨ i = .rti := by
  cases i <;> simp [writtenFlags]

/-- RestoreStatus sets P.U (R203), so PLP and RTI leave it at 1. -/
theorem flag_u_of_writes {i : Instr} {s t : State} (hu : .u ∈ writtenFlags i) (h : execOver i s = .next t) :
    t.flag .u = true := by
  obtain rfl | rfl := u_mem_writtenFlags hu
  · obtain rfl := Outcome.next.inj h
    exact restoreStatus_flag _ _ .u
  · obtain rfl := Outcome.next.inj h
    obtain ⟨-, -, -, -, -, -, -, hp⟩ := vectoredReturn_registers s
    rw [finishAt_flag, flag_congr _ _ hp]
    exact restoreStatus_flag _ _ .u

/-- Every instruction keeps the invariant. -/
theorem execOver_inv {i : Instr} {s t : State} (hs : s.Inv) (h : execOver i s = .next t) : t.Inv := by
  obtain ⟨hwf, hu⟩ := hs
  refine ⟨?_, ?_⟩
  · rw [execOver_mem i s t h]
    exact replay_wf _ _ hwf
  · by_cases hw : .u ∈ writtenFlags i
    · exact flag_u_of_writes hw h
    · rw [(execOver_instrFrame i s t h).flags .u hw, hu]

/-- Settles O49: a step runs one instruction, after a fetch that changes nothing on the default mapper. -/
theorem everyStepKeepsInvariant : Obligations.EveryStepKeepsInvariant := by
  unfold Obligations.EveryStepKeepsInvariant
  intro s t hs h
  have hexec := stepOver_next (stepOver_default s ▸ h)
  rw [afterFetch_default] at hexec
  exact execOver_inv hs hexec

/-- Settles O48: the empty store and the status byte 0x24. -/
theorem resetStateMeetsInvariant : Obligations.ResetStateMeetsInvariant := by
  unfold Obligations.ResetStateMeetsInvariant
  exact ⟨rfl, rfl⟩

/-- Settles O47: field by field, the vector's two unlisted bytes being zero. -/
theorem resetStateIsResetOfAnEmptyStore : Obligations.ResetStateIsResetOfAnEmptyStore := by
  unfold Obligations.ResetStateIsResetOfAnEmptyStore
  rfl

/-- Settles O10: set_ZN is two writes of flags. -/
theorem setZNWritesZAndNOnly : Obligations.SetZNWritesZAndNOnly := by
  unfold Obligations.SetZNWritesZAndNOnly
  intro v s
  obtain ⟨hregs, hflags, hmachine, hpc, hcyc⟩ :=
    keepsBut_setZN (rs := []) (List.Subset.refl [Flag.z, Flag.n]) v s
  exact ⟨setZN_showsZN v s, hflags, hregs, hpc, hcyc, rfl, hmachine⟩

/-! The cycles of a step (R84, R105). -/

/-- A decoded instruction runs under the entry its opcode byte was looked up by (R83, R85): each cell of the map. -/
theorem entryOf_decodeBytes (op l h : Byte) : entryOf (decodeBytes op l h) = dispatchTable op := by
  refine byte_cases (fun op => entryOf (decodeBytes op l h) = dispatchTable op) (fun hi lo => ?_) op
  rcases nibble_cases hi with
    rfl | rfl | rfl | rfl | rfl | rfl | rfl | rfl | rfl | rfl | rfl | rfl | rfl | rfl | rfl | rfl <;>
  rcases nibble_cases lo with
    rfl | rfl | rfl | rfl | rfl | rfl | rfl | rfl | rfl | rfl | rfl | rfl | rfl | rfl | rfl | rfl <;>
  exact rfl

/-- Whether an entry costs 2 to 8 cycles, its page-cross penalty included. -/
def costsTwoToEight (e : Entry) : Bool := decide (2 ≤ e.base ∧ e.base + e.penalty.toNat ≤ 8)

/-- Every cell of the opcode map costs 2 to 8 cycles (R84), row by row. -/
theorem opcodeMap_costs : opcodeMap.all (fun cell => cell.all costsTwoToEight) = true := by
  simp only [opcodeMap, List.all_append]
  rfl

theorem dispatchTable_costs {op : Byte} {e : Entry} (h : dispatchTable op = some e) :
    2 ≤ e.base ∧ e.base + e.penalty.toNat ≤ 8 := by
  have hcell : some e ∈ opcodeMap := by
    rw [dispatchTable, List.getD_eq_getElem?_getD, Option.getD_eq_iff] at h
    exact List.mem_of_getElem? (h.resolve_right (by simp))
  simpa [costsTwoToEight] using List.all_eq_true.mp opcodeMap_costs _ hcell

/-- The cycles of the instruction that a table entry stands for (R105). -/
theorem cycles_decodeBytes {op : Byte} {e : Entry} (he : dispatchTable op = some e) (l h : Byte) (cross : Bool) :
    2 ≤ cycles (decodeBytes op l h) cross ∧ cycles (decodeBytes op l h) cross ≤ 8 := by
  obtain ⟨hlow, hhigh⟩ := dispatchTable_costs he
  have hcycles : cycles (decodeBytes op l h) cross = e.base + (e.penalty && cross).toNat := by
    rw [cycles, entryOf_decodeBytes, he]
  have hpenalty : (e.penalty && cross).toNat ≤ e.penalty.toNat := by cases e.penalty <;> cases cross <;> decide
  omega

/-- What is fetched stands for a table entry, or is INVALID (R86, R100). -/
theorem fetchInstr_cases (s : State σ bus) :
    (∃ e l h, dispatchTable (s.read s.pc) = some e ∧ fetchInstr s = decodeBytes (s.read s.pc) l h) ∨
      fetchInstr s = .invalid (s.read s.pc) := by
  by_cases hadmitted : admitted s.cfg.unofficialSet (s.read s.pc) = true
  · cases he : dispatchTable (s.read s.pc) with
    | none => simp [admitted, he] at hadmitted
    | some e => exact .inl ⟨e, _, _, rfl, if_pos hadmitted⟩
  · exact .inr (if_neg hadmitted)

/-- On any bus a step that succeeds adds 2 to 8 cycles: the entry's, or a branch's two and what it adds (R180). -/
theorem stepOver_cyc {s t : State σ bus} (h : stepOver s = .next t) :
    ∃ n, 2 ≤ n ∧ n ≤ 8 ∧ t.cyc = s.cyc + BitVec.ofNat 64 n := by
  have hexec := stepOver_next h
  obtain ⟨e, l, k, he, hfetch⟩ | hinvalid := fetchInstr_cases s
  · obtain ⟨cross, extra, hcyc, hextra⟩ := (execOver_instrFrame _ _ t hexec).cyc
    have hbounds := cycles_decodeBytes he l k cross
    rw [← hfetch] at hbounds
    rw [afterFetch_cyc] at hcyc
    exact ⟨_, by omega, by omega, hcyc⟩
  · rw [hinvalid] at hexec
    nomatch hexec

/-- Settles O51: the default mapper's step is the general one. -/
theorem everyStepCostsTwoToEightCycles : Obligations.EveryStepCostsTwoToEightCycles := by
  unfold Obligations.EveryStepCostsTwoToEightCycles
  exact ⟨fun s t h => stepOver_cyc (stepOver_default s ▸ h), fun σ bus s t h => stepOver_cyc h⟩

/-! CYC is only ever added to (R31): a machine with another count does the same, and its count stays ahead. -/

/-- The same machine with another count of cycles. -/
def State.later (c : Cycles) (s : State σ bus) : State σ bus := { s with cyc := s.cyc + c }

/-- The same outcome, with another count where it is a next state. -/
def laterOutcome (c : Cycles) : Outcome (State σ bus) Fault Refusal → Outcome (State σ bus) Fault Refusal
  | .next t => .next (t.later c)
  | .fault f => .fault f
  | .refused r => .refused r

section later

variable (c : Cycles)

/-! What the addressing modes give, and the machine after their reads. -/

theorem baseAddr_later (m : MemRef) (s : State σ bus) : baseAddr m (s.later c) = baseAddr m s := by cases m <;> rfl

theorem indexOf_later (m : MemRef) (s : State σ bus) : indexOf m (s.later c) = indexOf m s := by cases m <;> rfl

theorem afterPointer_later (m : MemRef) (s : State σ bus) :
    afterPointer m (s.later c) = (afterPointer m s).later c := by cases m <;> rfl

theorem ea_later (m : MemRef) (s : State σ bus) : ea m (s.later c) = ea m s := by
  rw [ea, ea, baseAddr_later, indexOf_later]

theorem crosses_later (m : MemRef) (s : State σ bus) : crosses m (s.later c) = crosses m s := by
  rw [crosses, crosses, baseAddr_later, indexOf_later]

theorem memValue_later (m : MemRef) (s : State σ bus) : memValue m (s.later c) = memValue m s := by
  rw [memValue, memValue, ea_later, afterPointer_later]
  rfl

theorem afterMem_later (m : MemRef) (s : State σ bus) : afterMem m (s.later c) = (afterMem m s).later c := by
  rw [afterMem, afterMem, ea_later, afterPointer_later]
  rfl

theorem store_later (m : MemRef) (v : Byte) (s : State σ bus) : store m v (s.later c) = (store m v s).later c := by
  rw [store, store, ea_later, afterPointer_later]
  rfl

theorem operandValue_later (o : Operand) (s : State σ bus) : operandValue o (s.later c) = operandValue o s := by
  cases o with
  | imm j => rfl
  | mem m => exact memValue_later c m s

theorem operandCrosses_later (o : Operand) (s : State σ bus) :
    operandCrosses o (s.later c) = operandCrosses o s := by
  cases o with
  | imm j => rfl
  | mem m => exact crosses_later c m s

theorem afterOperand_later (o : Operand) (s : State σ bus) :
    afterOperand o (s.later c) = (afterOperand o s).later c := by
  cases o with
  | imm j => rfl
  | mem m => exact afterMem_later c m s

theorem afterDiscardedOperand_later (m : MemRef) (s : State σ bus) :
    afterDiscardedOperand m (s.later c) = (afterDiscardedOperand m s).later c := by
  rw [afterDiscardedOperand, afterDiscardedOperand, afterMem_later, afterPointer_later, apply_ite (State.later c)]
  rfl

theorem afterReads_later (n : Nat) (a : Addr) (s : State σ bus) :
    (s.later c).afterReads n a = (s.afterReads n a).later c := by
  induction n generalizing a s with
  | zero => rfl
  | succ n ih => exact ih (a + 1) (s.afterRead a)

theorem afterFetch_later (s : State σ bus) : afterFetch (s.later c) = (afterFetch s).later c :=
  afterReads_later c _ _ s

/-! The shared operations: none reads CYC. -/

theorem setPC_later (w : Addr) {s u : State σ bus} (h : u = s.later c) :
    ({ u with pc := w } : State σ bus) = State.later c { s with pc := w } := by
  rw [h]
  rfl

theorem setZN_later (v : Byte) (s : State σ bus) : setZN v (s.later c) = (setZN v s).later c := rfl

theorem addWithCarry_later (v : Byte) (s : State σ bus) :
    addWithCarry v (s.later c) = (addWithCarry v s).later c := rfl

theorem compare_later (r v : Byte) (s : State σ bus) : compare r v (s.later c) = (compare r v s).later c := rfl

theorem bitTest_later (v : Byte) (s : State σ bus) : bitTest v (s.later c) = (bitTest v s).later c := rfl

theorem loadA_later (v : Byte) (s : State σ bus) : loadA v (s.later c) = (loadA v s).later c := rfl

theorem loadX_later (v : Byte) (s : State σ bus) : loadX v (s.later c) = (loadX v s).later c := rfl

theorem loadY_later (v : Byte) (s : State σ bus) : loadY v (s.later c) = (loadY v s).later c := rfl

theorem andA_later (v : Byte) (s : State σ bus) : andA v (s.later c) = (andA v s).later c :=
  loadA_later c (s.a &&& v) s

theorem orA_later (v : Byte) (s : State σ bus) : orA v (s.later c) = (orA v s).later c :=
  loadA_later c (s.a ||| v) s

theorem xorA_later (v : Byte) (s : State σ bus) : xorA v (s.later c) = (xorA v s).later c :=
  loadA_later c (s.a ^^^ v) s

theorem push16_later (w : Addr) (s : State σ bus) : push16 w (s.later c) = (push16 w s).later c := by
  rw [push16_eq, push16_eq]
  rfl

theorem restoreStatus_later (v : Byte) (s : State σ bus) :
    restoreStatus v (s.later c) = (restoreStatus v s).later c := by
  cases h : s.cfg.pullBPolicy <;> simp [restoreStatus, State.later, h]

theorem vectoredEntry_later (ret : Addr) (status : Byte) (isBrk : Bool) (vector : Addr) (s : State σ bus) :
    vectoredEntry ret status isBrk vector (s.later c) = (vectoredEntry ret status isBrk vector s).later c := by
  unfold vectoredEntry
  rw [push16_later]
  cases isBrk <;> rfl

theorem vectoredReturn_later (s : State σ bus) : vectoredReturn (s.later c) = (vectoredReturn s).later c := by
  unfold vectoredReturn
  rw [show pull (s.later c) = ((pull s).1, (pull s).2.later c) from rfl]
  simp only [restoreStatus_later]
  rfl

/-! The end of an instruction, and the instructions by the class of their operand. -/

theorem addCycles_later (n : Nat) (s : State σ bus) : addCycles n (s.later c) = (addCycles n s).later c := by
  simp only [addCycles, State.later]
  rw [add_right_comm]

theorem finish_later (i : Instr) (cross : Bool) (s : State σ bus) :
    finish i cross (s.later c) = (finish i cross s).later c :=
  addCycles_later c _ ({ s with pc := s.pc + BitVec.ofNat 16 i.length })

theorem finishAt_later (i : Instr) (s : State σ bus) : finishAt i (s.later c) = (finishAt i s).later c :=
  addCycles_later c _ s

theorem branch_later (i : Instr) (cond : Bool) (off : Byte) (s : State σ bus) :
    branch i cond off (s.later c) = (branch i cond off s).later c := by
  cases cond with
  | false => exact finish_later c i false s
  | true =>
    have h := addCycles_later (bus := bus) c (branchExtra off s) { s with pc := branchTarget off s }
    exact (congrArg (finishAt i) h).trans (finishAt_later c i _)

/-- An instruction that does not assign PC, whose page test is the same and whose body keeps the other count. -/
theorem advance_later {i : Instr} {x x' : Bool} {s u : State σ bus} (hx : x' = x) (hs : u = s.later c) :
    .next (finish i x' u) = laterOutcome c (.next (finish i x s)) := by
  rw [hx, hs, finish_later]
  rfl

/-- An instruction that has assigned PC, and whose body keeps the other count. -/
theorem jump_later {i : Instr} {s u : State σ bus} (hs : u = s.later c) :
    .next (finishAt i u) = laterOutcome c (.next (finishAt i s)) := by
  rw [hs, finishAt_later]
  rfl

/-- The read class (R118), by what it does with its operand. -/
theorem operand_later {G : Byte → State σ bus → State σ bus} (hG : ∀ v u, G v (u.later c) = (G v u).later c)
    (i : Instr) (o : Operand) (s : State σ bus) :
    .next (finish i (operandCrosses o (s.later c)) (G (operandValue o (s.later c)) (afterOperand o (s.later c)))) =
      laterOutcome c (.next (finish i (operandCrosses o s) (G (operandValue o s) (afterOperand o s)))) := by
  rw [operandValue_later, afterOperand_later]
  exact advance_later c (operandCrosses_later c o s) (hG _ _)

/-- A function of the read-modify-write class that neither reads CYC nor sets it. -/
def KeepsLater (c : Cycles) (F : Byte → State σ bus → Byte × State σ bus) : Prop :=
  ∀ v u, F v (u.later c) = ((F v u).1, (F v u).2.later c)

theorem shifted_keepsLater (r : Byte) (out : Bool) (s : State σ bus) :
    shifted r out (s.later c) = ((shifted r out s).1, (shifted r out s).2.later c) := rfl

theorem aslF_keepsLater : KeepsLater (bus := bus) c aslF := fun _ u => shifted_keepsLater c _ _ u
theorem lsrF_keepsLater : KeepsLater (bus := bus) c lsrF := fun _ u => shifted_keepsLater c _ _ u
theorem rolF_keepsLater : KeepsLater (bus := bus) c rolF := fun _ u => shifted_keepsLater c _ _ u
theorem rorF_keepsLater : KeepsLater (bus := bus) c rorF := fun _ u => shifted_keepsLater c _ _ u
theorem incF_keepsLater : KeepsLater (bus := bus) c incF :=
  fun v u => congrArg (Prod.mk (v + 1)) (setZN_later c (v + 1) u)
theorem decF_keepsLater : KeepsLater (bus := bus) c decF :=
  fun v u => congrArg (Prod.mk (v - 1)) (setZN_later c (v - 1) u)

theorem modify_later {F : Byte → State σ bus → Byte × State σ bus} (hF : KeepsLater c F) (m : MemRef)
    (s : State σ bus) : modify m F (s.later c) = ((modify m F s).1, (modify m F s).2.later c) := by
  unfold modify
  rw [memValue_later, afterMem_later, ea_later, hF]
  rfl

theorem modifyTarget_later {F : Byte → State σ bus → Byte × State σ bus} (hF : KeepsLater c F) (o : Target)
    (s : State σ bus) : modifyTarget o F (s.later c) = (modifyTarget o F s).later c := by
  cases o with
  | acc => exact congrArg (fun r : Byte × State σ bus => { r.2 with a := r.1 }) (hF s.a s)
  | mem m => exact congrArg Prod.snd (modify_later c hF m s)

/-- The read-modify-write class on memory (R118), by what it does after it. -/
theorem modifyThen_later {F : Byte → State σ bus → Byte × State σ bus} {G : Byte → State σ bus → State σ bus}
    (hF : KeepsLater c F) (hG : ∀ v u, G v (u.later c) = (G v u).later c) (i : Instr) (m : MemRef)
    (s : State σ bus) :
    .next (finish i (crosses m (s.later c)) (G (modify m F (s.later c)).1 (modify m F (s.later c)).2)) =
      laterOutcome c (.next (finish i (crosses m s) (G (modify m F s).1 (modify m F s).2))) := by
  rw [modify_later c hF]
  exact advance_later c (crosses_later c m s) (hG _ _)

/-- Every instruction answers the same outcome with another count, on any bus. -/
theorem execOver_later (i : Instr) (s : State σ bus) :
    execOver i (s.later c) = laterOutcome c (execOver i s) := by
  cases i with
  | adc o => exact operand_later c (addWithCarry_later c) (.adc o) o s
  | sbc o =>
    exact operand_later c (G := fun v => addWithCarry (v ^^^ 0xFF)) (fun v => addWithCarry_later c (v ^^^ 0xFF))
      (.sbc o) o s
  | cmp o => exact operand_later c (compare_later c s.a) (.cmp o) o s
  | cpx o => exact operand_later c (compare_later c s.x) (.cpx o) o s
  | cpy o => exact operand_later c (compare_later c s.y) (.cpy o) o s
  | and_ o => exact operand_later c (andA_later c) (.and_ o) o s
  | ora o => exact operand_later c (orA_later c) (.ora o) o s
  | eor o => exact operand_later c (xorA_later c) (.eor o) o s
  | lda o => exact operand_later c (loadA_later c) (.lda o) o s
  | ldx o => exact operand_later c (loadX_later c) (.ldx o) o s
  | ldy o => exact operand_later c (loadY_later c) (.ldy o) o s
  | bit m => exact operand_later c (bitTest_later c) (.bit m) (.mem m) s
  | lax m =>
    exact operand_later c (G := fun v u => setZN v { u with a := v, x := v })
      (fun v u => setZN_later c v { u with a := v, x := v }) (.lax m) (.mem m) s
  | sta m | stx m | sty m | sax m => exact advance_later c (crosses_later c m s) (store_later c m _ s)
  | asl o => exact advance_later c rfl (modifyTarget_later c (aslF_keepsLater c) o s)
  | lsr o => exact advance_later c rfl (modifyTarget_later c (lsrF_keepsLater c) o s)
  | rol o => exact advance_later c rfl (modifyTarget_later c (rolF_keepsLater c) o s)
  | ror o => exact advance_later c rfl (modifyTarget_later c (rorF_keepsLater c) o s)
  | inc m => exact modifyThen_later c (incF_keepsLater c) (G := fun _ u => u) (fun _ _ => rfl) (.inc m) m s
  | dec m => exact modifyThen_later c (decF_keepsLater c) (G := fun _ u => u) (fun _ _ => rfl) (.dec m) m s
  | dcp m =>
    exact modifyThen_later c (decF_keepsLater c) (G := fun v u => compare u.a v u)
      (fun v u => compare_later c u.a v u) (.dcp m) m s
  | isb m =>
    exact modifyThen_later c (incF_keepsLater c) (G := fun v => addWithCarry (v ^^^ 0xFF))
      (fun v => addWithCarry_later c (v ^^^ 0xFF)) (.isb m) m s
  | slo m => exact modifyThen_later c (aslF_keepsLater c) (orA_later c) (.slo m) m s
  | rla m => exact modifyThen_later c (rolF_keepsLater c) (andA_later c) (.rla m) m s
  | sre m => exact modifyThen_later c (lsrF_keepsLater c) (xorA_later c) (.sre m) m s
  | rra m => exact modifyThen_later c (rorF_keepsLater c) (addWithCarry_later c) (.rra m) m s
  | sbcEB j => exact advance_later c rfl (addWithCarry_later c (j ^^^ 0xFF) s)
  | nopMem op m => exact advance_later c (crosses_later c m s) (afterDiscardedOperand_later c m s)
  | bcc off | bcs off | beq off | bne off | bmi off | bpl off | bvc off | bvs off =>
    exact congrArg Outcome.next (branch_later c _ _ off s)
  | jmp l h | jmpInd l h => exact jump_later c rfl
  | jsr l h => exact jump_later c (setPC_later c (w16 h l) (push16_later c (s.pc + 2) s))
  | rts => exact jump_later c rfl
  | brk =>
    exact jump_later c (vectoredEntry_later c (s.pc + brkOffset s.cfg) (pushedStatus s.p) true brkVector s)
  | rti => exact jump_later c (vectoredReturn_later c s)
  | plp => exact advance_later c rfl (restoreStatus_later c (pull s).1 (pull s).2)
  | php | pha => exact advance_later c rfl rfl
  | pla => exact advance_later c rfl (loadA_later c (pull s).1 (pull s).2)
  | tax | tsx | inx | dex => exact advance_later c rfl (loadX_later c _ s)
  | tay | iny | dey => exact advance_later c rfl (loadY_later c _ s)
  | txa | tya => exact advance_later c rfl (loadA_later c _ s)
  | txs | clc | sec | cli | sei | cld | sed | clv => exact advance_later c rfl rfl
  | nop | nopImp _ | nopImm _ => exact advance_later c rfl rfl
  | invalid op => rfl

/-- Every step answers the same outcome with another count, on any bus. -/
theorem stepOver_later (s : State σ bus) : stepOver (s.later c) = laterOutcome c (stepOver s) := by
  have hexec : execOver (fetchInstr (s.later c)) (afterFetch (s.later c)) =
      laterOutcome c (execOver (fetchInstr s) (afterFetch s)) := by
    rw [afterFetch_later]
    exact execOver_later c _ _
  unfold stepOver
  rw [hexec, apply_ite (laterOutcome c)]
  rfl

end later

/-- Settles O56: the default mapper's step is the general one. -/
theorem noResultDependsOnTheCycleCounter : Obligations.NoResultDependsOnTheCycleCounter := by
  unfold Obligations.NoResultDependsOnTheCycleCounter
  intro s c
  have h : step (s.later c) = laterOutcome c (step s) := by
    rw [← stepOver_default, ← stepOver_default, stepOver_later]
  show step (s.later c) = _
  rw [h]
  cases step s <;> rfl

end Sys2Proof.Machine

namespace Sys2Proof.Machine

/-! The machine and its bus (R50, R56, R61, R62): a call of step(), whatever its outcome, leaves the bus as its access
list does, and two machines on buses that agree report the same and stay together. -/

open Host (Outcome)

section busOfACall

variable {σ : Type} {bus : Bus σ}

/-- Only INVALID does not complete (R300). -/
theorem execOver_completes_or_invalid (i : Instr) (s : State σ bus) :
    (∃ t, execOver i s = .next t) ∨ ∃ op, i = .invalid op := by
  cases i with
  | invalid op => exact .inr ⟨op, rfl⟩
  | _ => exact .inl ⟨_, rfl⟩

/-- A call of step() before the first reset makes no access (R332), a fault follows the fetch alone (R300), and an
instruction that completes adds the accesses of its body (R61). -/
theorem hostStep_mem (s : State σ bus) : (hostStep s).1.mem = replay bus (stepAccesses s) s.mem := by
  unfold hostStep stepOver stepAccesses
  cases s.started with
  | false => rfl
  | true =>
    simp only [if_true]
    rw [replay_append, replay_fetchAccesses]
    obtain ⟨t, hnext⟩ | ⟨op, hinvalid⟩ := execOver_completes_or_invalid (fetchInstr s) (afterFetch s)
    · rw [hnext]
      exact execOver_mem _ _ t hnext
    · rw [hinvalid]
      rfl

theorem resetMachine_mem (override : Option Addr) (s : State σ bus) :
    (resetMachine override s).mem = replay bus (resetAccesses override) s.mem := by
  cases override <;> rfl

end busOfACall

/-- On the default mapper the store after a step is that after the host's call, whose state it is. -/
theorem step_mem {s t : State} (h : step s = .next t) :
    t.mem = replay defaultMapper (stepAccesses s) s.mem := by
  rw [← hostStep_mem, hostStep_default, h]

section agree

variable {σ τ : Type} {bus : Bus σ} {bus' : Bus τ} {R : σ → τ → Prop} {s : State σ bus} {t : State τ bus'}

/-! The accesses of one instruction are the same on both buses. -/

theorem Together.pointerReads (h : Together R s t) (m : MemRef) : pointerReads m t = pointerReads m s := by
  obtain ⟨n, rfl, -⟩ := h.exists
  cases m <;> rfl

section
variable (hb : BusesAgree bus bus' R)
include hb

theorem Together.readAccesses (h : Together R s t) (m : MemRef) : readAccesses m t = readAccesses m s := by
  unfold Machine.readAccesses
  rw [h.pointerReads, h.ea hb]

theorem Together.operandAccesses (h : Together R s t) (o : Operand) :
    operandAccesses o t = operandAccesses o s := by
  cases o with
  | imm j => rfl
  | mem m => exact h.readAccesses hb m

theorem Together.storeAccesses (h : Together R s t) (m : MemRef) (v : Byte) :
    storeAccesses m v t = storeAccesses m v s := by
  unfold Machine.storeAccesses
  rw [h.pointerReads, h.ea hb]

theorem Together.modifyAccesses {f : Byte → State σ bus → Byte × State σ bus}
    {g : Byte → State τ bus' → Byte × State τ bus'} (hf : SameModifier R f g) (h : Together R s t) (m : MemRef) :
    modifyAccesses m g t = modifyAccesses m f s := by
  unfold Machine.modifyAccesses
  rw [h.pointerReads, h.ea hb, h.memValue hb, (hf _ _ _ (h.afterMem hb m)).1]

theorem Together.targetAccesses {f : Byte → State σ bus → Byte × State σ bus}
    {g : Byte → State τ bus' → Byte × State τ bus'} (hf : SameModifier R f g) (h : Together R s t) (o : Target) :
    targetAccesses o g t = targetAccesses o f s := by
  cases o with
  | acc => rfl
  | mem m => exact h.modifyAccesses hb hf m

theorem Together.bodyAccesses (h : Together R s t) (i : Instr) : bodyAccesses i t = bodyAccesses i s := by
  obtain ⟨n, rfl, hR⟩ := h.exists
  cases i with
  | adc o | sbc o | cmp o | cpx o | cpy o | and_ o | ora o | eor o | lda o | ldx o | ldy o =>
    exact h.operandAccesses hb o
  | bit m | lax m => exact h.readAccesses hb m
  | sta m | stx m | sty m | sax m => exact h.storeAccesses hb m _
  | asl o => exact h.targetAccesses hb aslF_sameModifier o
  | lsr o => exact h.targetAccesses hb lsrF_sameModifier o
  | rol o => exact h.targetAccesses hb rolF_sameModifier o
  | ror o => exact h.targetAccesses hb rorF_sameModifier o
  | inc m | isb m => exact h.modifyAccesses hb incF_sameModifier m
  | dec m | dcp m => exact h.modifyAccesses hb decF_sameModifier m
  | slo m => exact h.modifyAccesses hb aslF_sameModifier m
  | rla m => exact h.modifyAccesses hb rolF_sameModifier m
  | sre m => exact h.modifyAccesses hb lsrF_sameModifier m
  | rra m => exact h.modifyAccesses hb rorF_sameModifier m
  | nopMem op m =>
    show (if s.cfg.nopOperandRead then _ else _) = if s.cfg.nopOperandRead then _ else _
    rw [h.readAccesses hb, h.pointerReads]
  | jmpInd _ _ | jsr _ _ | rts | brk | rti | php | pha | plp | pla => rfl
  | bcc _ | bcs _ | beq _ | bne _ | bmi _ | bpl _ | bvc _ | bvs _ | jmp _ _ => rfl
  | tax | tay | txa | tya | tsx | txs | inx | iny | dex | dey => rfl
  | clc | sec | cli | sei | cld | sed | clv => rfl
  | nop | sbcEB _ | nopImp _ | nopImm _ | invalid _ => rfl

theorem Together.stepAccesses (h : Together R s t) : stepAccesses t = stepAccesses s := by
  have hbody := (h.afterFetch hb).bodyAccesses hb (Machine.fetchInstr s)
  unfold Machine.stepAccesses
  rw [h.fetchInstr hb, hbody]
  obtain ⟨n, rfl, -⟩ := h.exists
  rfl

end

/-! The outcomes of one instruction, by the class of its operand. -/

/-- The same outcome on both buses: next states that are together, the same fault, or the same refusal. -/
inductive SameOutcome (R : σ → τ → Prop) :
    Outcome (State σ bus) Fault Refusal → Outcome (State τ bus') Fault Refusal → Prop
  | next {s : State σ bus} {t : State τ bus'} (h : Together R s t) : SameOutcome R (.next s) (.next t)
  | fault (f : Fault) : SameOutcome R (.fault f) (.fault f)
  | refused (r : Refusal) : SameOutcome R (.refused r) (.refused r)

/-- An update by a byte that keeps the two machines together. -/
def SameUpdate (R : σ → τ → Prop) (f : Byte → State σ bus → State σ bus)
    (g : Byte → State τ bus' → State τ bus') : Prop :=
  ∀ v s t, Together R s t → Together R (f v s) (g v t)

/-- What LAX does with its byte (R261). -/
theorem Together.loadAX (h : Together R s t) (v : Byte) :
    Together R (Machine.setZN v ({ s with a := v, x := v } : State σ bus))
      (Machine.setZN v ({ t with a := v, x := v } : State τ bus')) := by
  obtain ⟨n, rfl, hR⟩ := h.exists
  exact onBus_together _ hR

/-- What DCP does with its byte (R264). -/
theorem Together.compareA (h : Together R s t) (v : Byte) :
    Together R (Machine.compare s.a v s) (Machine.compare t.a v t) := by
  rw [h.1.1]
  exact h.compare s.a v

/-- The end of an instruction that does not assign PC, whose page test is the same on both buses. -/
theorem Together.advance (h : Together R s t) (i : Instr) {x x' : Bool} (hx : x' = x) :
    SameOutcome R (.next (Machine.finish i x s)) (.next (Machine.finish i x' t)) := by
  rw [hx]
  exact .next (h.finish i x)

/-- The end of an instruction that assigns PC the same word on both buses. -/
theorem Together.jump (h : Together R s t) (i : Instr) {w w' : Addr} (hw : w' = w) :
    SameOutcome R (.next (Machine.finishAt i ({ s with pc := w } : State σ bus)))
      (.next (Machine.finishAt i ({ t with pc := w' } : State τ bus'))) := by
  rw [hw]
  exact .next ((h.setPC w).finishAt i)

section
variable (hb : BusesAgree bus bus' R)
include hb

/-- The read class (R118), by what it does with its operand. -/
theorem Together.operandThen {f : Byte → State σ bus → State σ bus} {g : Byte → State τ bus' → State τ bus'}
    (hf : SameUpdate R f g) (h : Together R s t) (i : Instr) (o : Operand) :
    SameOutcome R
      (.next (Machine.finish i (Machine.operandCrosses o s) (f (Machine.operandValue o s) (Machine.afterOperand o s))))
      (.next (Machine.finish i (Machine.operandCrosses o t)
        (g (Machine.operandValue o t) (Machine.afterOperand o t)))) := by
  rw [h.operandValue hb]
  exact (hf _ _ _ (h.afterOperand hb o)).advance i (h.operandCrosses hb o)

/-- The read-modify-write class on memory (R118), by what it does after it. -/
theorem Together.modifyThen {f : Byte → State σ bus → Byte × State σ bus}
    {f' : Byte → State τ bus' → Byte × State τ bus'} {g : Byte → State σ bus → State σ bus}
    {g' : Byte → State τ bus' → State τ bus'} (hf : SameModifier R f f') (hg : SameUpdate R g g')
    (h : Together R s t) (i : Instr) (m : MemRef) :
    SameOutcome R
      (.next (Machine.finish i (Machine.crosses m s) (g (Machine.modify m f s).1 (Machine.modify m f s).2)))
      (.next (Machine.finish i (Machine.crosses m t) (g' (Machine.modify m f' t).1 (Machine.modify m f' t).2))) := by
  obtain ⟨hvalue, hstate⟩ := h.modify hb hf m
  rw [hvalue]
  exact (hg _ _ _ hstate).advance i (h.crosses hb m)

/-- A pull (R200), by what is done with its byte. -/
theorem Together.pullThen {f : Byte → State σ bus → State σ bus} {g : Byte → State τ bus' → State τ bus'}
    (h : Together R s t) (hf : SameUpdate R f g) :
    Together R (f (Machine.pull s).1 (Machine.pull s).2) (g (Machine.pull t).1 (Machine.pull t).2) := by
  obtain ⟨hvalue, hstate⟩ := h.pull hb
  rw [hvalue]
  exact hf _ _ _ hstate

theorem Together.indirectTarget (h : Together R s t) (l k : Byte) : indirectTarget l k t = indirectTarget l k s := by
  unfold Machine.indirectTarget
  rw [h.read hb, (h.afterRead hb _).read hb]

/-- Every instruction answers the same outcome on both buses. -/
theorem Together.execOver (h : Together R s t) (i : Instr) : SameOutcome R (execOver i s) (execOver i t) := by
  obtain ⟨n, rfl, hR⟩ := h.exists
  cases i with
  | adc o => exact h.operandThen hb (fun v _ _ k => k.addWithCarry v) (.adc o) o
  | sbc o => exact h.operandThen hb (fun v _ _ k => k.addWithCarry (v ^^^ 0xFF)) (.sbc o) o
  | cmp o => exact h.operandThen hb (fun v _ _ k => k.compare s.a v) (.cmp o) o
  | cpx o => exact h.operandThen hb (fun v _ _ k => k.compare s.x v) (.cpx o) o
  | cpy o => exact h.operandThen hb (fun v _ _ k => k.compare s.y v) (.cpy o) o
  | and_ o => exact h.operandThen hb (fun v _ _ k => k.andA v) (.and_ o) o
  | ora o => exact h.operandThen hb (fun v _ _ k => k.orA v) (.ora o) o
  | eor o => exact h.operandThen hb (fun v _ _ k => k.xorA v) (.eor o) o
  | lda o => exact h.operandThen hb (fun v _ _ k => k.loadA v) (.lda o) o
  | ldx o => exact h.operandThen hb (fun v _ _ k => k.loadX v) (.ldx o) o
  | ldy o => exact h.operandThen hb (fun v _ _ k => k.loadY v) (.ldy o) o
  | bit m => exact h.operandThen hb (fun v _ _ k => k.bitTest v) (.bit m) (.mem m)
  | lax m => exact h.operandThen hb (fun v _ _ k => k.loadAX v) (.lax m) (.mem m)
  | sta m | stx m | sty m | sax m => exact (h.store hb m _).advance _ (h.crosses hb m)
  | asl o => exact (h.modifyTarget hb aslF_sameModifier o).advance _ rfl
  | lsr o => exact (h.modifyTarget hb lsrF_sameModifier o).advance _ rfl
  | rol o => exact (h.modifyTarget hb rolF_sameModifier o).advance _ rfl
  | ror o => exact (h.modifyTarget hb rorF_sameModifier o).advance _ rfl
  | inc m => exact h.modifyThen hb incF_sameModifier (fun _ _ _ k => k) (.inc m) m
  | dec m => exact h.modifyThen hb decF_sameModifier (fun _ _ _ k => k) (.dec m) m
  | dcp m =>
    exact h.modifyThen hb decF_sameModifier (fun v _ _ k => k.compareA v) (.dcp m) m
  | isb m => exact h.modifyThen hb incF_sameModifier (fun v _ _ k => k.addWithCarry (v ^^^ 0xFF)) (.isb m) m
  | slo m => exact h.modifyThen hb aslF_sameModifier (fun v _ _ k => k.orA v) (.slo m) m
  | rla m => exact h.modifyThen hb rolF_sameModifier (fun v _ _ k => k.andA v) (.rla m) m
  | sre m => exact h.modifyThen hb lsrF_sameModifier (fun v _ _ k => k.xorA v) (.sre m) m
  | rra m => exact h.modifyThen hb rorF_sameModifier (fun v _ _ k => k.addWithCarry v) (.rra m) m
  | sbcEB j => exact (h.addWithCarry (j ^^^ 0xFF)).advance _ rfl
  | nopMem op m => exact (h.afterDiscardedOperand hb m).advance _ (h.crosses hb m)
  | bcc off | bcs off | beq off | bne off | bmi off | bpl off | bvc off | bvs off =>
    exact .next (h.branch _ _ off)
  | jmp l k => exact h.jump (.jmp l k) rfl
  | jmpInd l k => exact ((h.afterRead hb _).afterRead hb _).jump (.jmpInd l k) (h.indirectTarget hb l k)
  | jsr l k => exact (h.push16 hb (s.pc + 2)).jump (.jsr l k) rfl
  | rts =>
    obtain ⟨hword, hstate⟩ := h.pull16 hb
    exact hstate.jump .rts (congrArg (· + 1) hword)
  | brk =>
    exact .next ((h.vectoredEntry hb (s.pc + brkOffset s.cfg) (pushedStatus s.p) true brkVector).finishAt .brk)
  | rti => exact .next ((h.vectoredReturn hb).finishAt .rti)
  | php | pha => exact (h.push hb _).advance _ rfl
  | plp => exact (h.pullThen hb fun v _ _ k => k.restoreStatus v).advance .plp rfl
  | pla => exact (h.pullThen hb fun v _ _ k => k.loadA v).advance .pla rfl
  | tax | tsx | inx | dex => exact (h.loadX _).advance _ rfl
  | tay | iny | dey => exact (h.loadY _).advance _ rfl
  | txa | tya => exact (h.loadA _).advance _ rfl
  | txs => exact (h.setSP s.x).advance .txs rfl
  | clc | sec | cli | sei | cld | sed | clv => exact (h.setFlag _ _).advance _ rfl
  | nop | nopImp _ | nopImm _ => exact h.advance _ rfl
  | invalid op => exact .fault _

theorem Together.stepOver (h : Together R s t) : SameOutcome R (stepOver s) (stepOver t) := by
  have hexec := (h.afterFetch hb).execOver hb (Machine.fetchInstr s)
  unfold Machine.stepOver
  rw [h.fetchInstr hb]
  obtain ⟨n, rfl, -⟩ := h.exists
  show SameOutcome R _ (if s.started then _ else _)
  split
  · exact hexec
  · exact .refused _

/-- A call of step() reports the same on both buses, and leaves the machines together whatever it reports. -/
theorem Together.hostStep (h : Together R s t) :
    (hostStep t).2 = (hostStep s).2 ∧ Together R (hostStep s).1 (hostStep t).1 := by
  have hstep := h.stepOver hb
  unfold Machine.hostStep
  generalize Machine.stepOver s = o, Machine.stepOver t = o' at hstep ⊢
  cases hstep with
  | next hnext => exact ⟨rfl, hnext⟩
  | fault f => exact ⟨rfl, h.afterFetch hb⟩
  | refused r => exact ⟨rfl, h⟩

end

end agree

/-- Settles O57: the accesses of a call move the bus, and machines on buses that agree stay together. -/
theorem stepAndResetSeeTheBusOnlyThroughTheirAccesses :
    Obligations.StepAndResetSeeTheBusOnlyThroughTheirAccesses := by
  unfold Obligations.StepAndResetSeeTheBusOnlyThroughTheirAccesses
  refine ⟨fun σ bus override s => ⟨hostStep_mem s, resetMachine_mem override s⟩, fun s t => step_mem, ?_⟩
  intro σ τ bus bus' R hb s t hsame hR
  have h : Together R s t := ⟨hsame, hR⟩
  obtain ⟨hreport, hstep⟩ := h.hostStep hb
  exact ⟨hreport, hstep.1, hstep.2, h.stepAccesses hb, fun override => h.resetMachine hb override⟩

end Sys2Proof.Machine

namespace Sys2Proof.Machine

/-! The default mapper's store (R54, R55): its cells, reads after writes, and its canonical form. -/

/-- Settles O58: the three ranges of addresses, and the read after a write of a cell. -/
theorem defaultMapperMirrorsAndStores : Obligations.DefaultMapperMirrorsAndStores := by
  unfold Obligations.DefaultMapperMirrorsAndStores
  constructor
  · exact fun a => ⟨cellOf_ram a, cellOf_registers a, cellOf_high a⟩
  · exact fun m a b v => ⟨readCell_writeCell m (cellOf a) (cellOf b) v, rfl, rfl, rfl⟩

theorem wfFrom_cons {lo k : Nat} {v : Byte} {rest : Memory} : Memory.wfFrom lo ((k, v) :: rest) = true ↔
    lo ≤ k ∧ isCell k = true ∧ v ≠ unlistedByte ∧ Memory.wfFrom (k + 1) rest = true := by
  simp only [Memory.wfFrom, Bool.and_eq_true, decide_eq_true_eq, bne_iff_ne, and_assoc]

theorem readCell_head (k : Nat) (v : Byte) (rest : Memory) : Memory.readCell ((k, v) :: rest) k = v := if_pos rfl

theorem readCell_tail {k c : Nat} (h : k ≠ c) (v : Byte) (rest : Memory) :
    Memory.readCell ((k, v) :: rest) c = rest.readCell c := if_neg h

/-- A canonical store from a cell on lists none below it. -/
theorem readCell_below {m : Memory} {lo c : Nat} (hm : Memory.wfFrom lo m = true) (hc : c < lo) :
    m.readCell c = unlistedByte := by
  induction m generalizing lo with
  | nil => rfl
  | cons e rest ih =>
    obtain ⟨k, v⟩ := e
    obtain ⟨hk, -, -, hrest⟩ := wfFrom_cons.mp hm
    rw [readCell_tail (by omega)]
    exact ih hrest (by omega)

/-- What is read as listed stands no lower than where the store begins. -/
theorem le_of_readCell_listed {m : Memory} {lo c : Nat} (hm : Memory.wfFrom lo m = true)
    (hc : m.readCell c ≠ unlistedByte) : lo ≤ c :=
  not_lt.mp fun h => hc (readCell_below hm h)

/-- Every cell is some address's (R54): the address of its own number. -/
theorem exists_cellOf {c : Nat} (hc : isCell c = true) : ∃ a, cellOf a = c := by
  refine ⟨BitVec.ofNat 16 c, ?_⟩
  simp only [isCell, Bool.or_eq_true, Bool.and_eq_true, decide_eq_true_eq] at hc
  simp only [cellOf, BitVec.toNat_ofNat]
  split_ifs <;> omega

/-- Canonical stores that agree on every cell are equal: the lowest listed cell of each is listed in the other, so
both begin with the same entry. -/
theorem wfFrom_ext {m n : Memory} {lo : Nat} (hm : Memory.wfFrom lo m = true) (hn : Memory.wfFrom lo n = true)
    (h : ∀ c, isCell c = true → m.readCell c = n.readCell c) : m = n := by
  induction m generalizing n lo with
  | nil =>
    cases n with
    | nil => rfl
    | cons e rest =>
      obtain ⟨k, v⟩ := e
      obtain ⟨-, hcell, hv, -⟩ := wfFrom_cons.mp hn
      exact absurd ((readCell_head k v rest).symm.trans (h k hcell).symm) hv
  | cons e rest ih =>
    obtain ⟨k, v⟩ := e
    obtain ⟨hlo, hcell, hv, hrest⟩ := wfFrom_cons.mp hm
    have hk := (readCell_head k v rest).symm.trans (h k hcell)
    cases n with
    | nil => exact absurd hk hv
    | cons e' rest' =>
      obtain ⟨k', v'⟩ := e'
      obtain ⟨hlo', hcell', hv', hrest'⟩ := wfFrom_cons.mp hn
      have hk' := (h k' hcell').trans (readCell_head k' v' rest')
      have hle : k' ≤ k :=
        le_of_readCell_listed (wfFrom_cons.mpr ⟨le_rfl, hcell', hv', hrest'⟩) (hk ▸ hv)
      have hge : k ≤ k' :=
        le_of_readCell_listed (wfFrom_cons.mpr ⟨le_rfl, hcell, hv, hrest⟩) (hk'.symm ▸ hv')
      obtain rfl : k = k' := le_antisymm hge hle
      obtain rfl : v = v' := hk.trans (readCell_head k v' rest')
      rw [ih hrest hrest' fun c hc => ?_]
      by_cases hck : k = c
      · rw [readCell_below hrest (by omega), readCell_below hrest' (by omega)]
      · rw [← readCell_tail hck v rest, ← readCell_tail hck v rest', h c hc]

/-- Settles O59: every cell is read at some address. -/
theorem canonicalStoresAreDeterminedByReads : Obligations.CanonicalStoresAreDeterminedByReads := by
  unfold Obligations.CanonicalStoresAreDeterminedByReads
  intro m n hm hn hread
  refine wfFrom_ext hm hn fun c hc => ?_
  obtain ⟨a, rfl⟩ := exists_cellOf hc
  exact hread a

end Sys2Proof.Machine

namespace Sys2Proof.Machine

/-! The encoder, written from the table by mnemonic (R85), and the decoder, which reads the opcode map (R84), undo
each other: over the forms of every instruction, and over the cells of the map. -/

/-- Where the instruction is well-formed it has an encoding, which decodes to it whatever follows; where it is not, it
has none. -/
def DecodesBack (i : Instr) : Prop :=
  (encode i).map (fun bytes rest => decode (bytes ++ rest)) = if i.wf then some (fun rest => .ok (i, rest)) else none

/-- An instruction whose opcode byte is its operand, one of a list, decodes back if it does so for the bytes of the
list. -/
theorem decodesBack_of_listed {ops : List Byte} {op : Byte} {i : Byte → Instr}
    (hopcode : opcodeOf (i op) = if ops.contains op then some op else none) (hwf : (i op).wf = ops.contains op)
    (h : ∀ op ∈ ops, ∀ rest, decode (op :: (i op).operandBytes ++ rest) = .ok (i op, rest)) :
    DecodesBack (i op) := by
  unfold DecodesBack encode
  rw [hopcode, hwf]
  split
  case isTrue hop => exact congrArg some (funext (h op (List.contains_iff_mem.mp hop)))
  case isFalse => rfl

/-- Every instruction decodes back: form by form, by the class of its operand, and for the undocumented NOPs and INVALID
byte by byte of their lists. -/
theorem decodesBack (i : Instr) : DecodesBack i := by
  cases i with
  | adc o | sbc o | cmp o | cpx o | cpy o | and_ o | ora o | eor o | lda o | ldx o | ldy o =>
    cases o with
    | imm j => rfl
    | mem m => cases m <;> rfl
  | asl t | lsr t | rol t | ror t =>
    cases t with
    | acc => rfl
    | mem m => cases m <;> rfl
  | bit m | sta m | stx m | sty m | inc m | dec m | lax m | sax m => cases m <;> rfl
  | dcp m | isb m | slo m | rla m | sre m | rra m => cases m <;> rfl
  | bcc _ | bcs _ | beq _ | bne _ | bmi _ | bpl _ | bvc _ | bvs _ => rfl
  | jmp _ _ | jmpInd _ _ | jsr _ _ | rts | brk | rti | php | plp | pha | pla => rfl
  | tax | tay | txa | tya | tsx | txs | inx | iny | dex | dey => rfl
  | clc | sec | cli | sei | cld | sed | clv | nop | sbcEB _ | nopImm _ => rfl
  | nopImp op =>
    refine decodesBack_of_listed (ops := nopImpOpcodes) rfl rfl fun op hop rest => ?_
    fin_cases hop <;> rfl
  | nopMem op m =>
    refine decodesBack_of_listed (i := (.nopMem · m)) rfl rfl fun op hop rest => ?_
    cases m <;> fin_cases hop <;> rfl
  | invalid op =>
    refine decodesBack_of_listed (ops := absentOpcodes) rfl rfl fun op hop rest => ?_
    fin_cases hop <;> rfl

/-- Settles O1: every instruction decodes back. -/
theorem decodeOfEncodeIsTheInstruction : Obligations.DecodeOfEncodeIsTheInstruction := by
  unfold Obligations.DecodeOfEncodeIsTheInstruction
  intro i hwf
  obtain ⟨bytes, hbytes, hdecode⟩ := Option.map_eq_some_iff.mp ((decodesBack i).trans (if_pos hwf))
  exact ⟨bytes, hbytes, congrFun hdecode⟩

/-- What is decoded from a byte string is decoded from an opcode byte and two operand bytes (R82). -/
theorem decode_ok {bytes rest : List Byte} {i : Instr} (h : decode bytes = .ok (i, rest)) :
    ∃ op l k, decodeBytes op l k = i := by
  cases bytes with
  | nil => nomatch h
  | cons op operands =>
    simp only [decode] at h
    split at h
    case h_4 => nomatch h
    all_goals
      injection h with h
      exact ⟨op, _, _, congrArg Prod.fst h⟩

/-- Every well-formed instruction is what some bytes decode to. -/
theorem exists_decodeBytes {i : Instr} (hwf : i.wf = true) : ∃ op l h, decodeBytes op l h = i := by
  obtain ⟨bytes, -, hdecode⟩ := decodeOfEncodeIsTheInstruction i hwf
  exact decode_ok (hdecode [])

/-- What is decoded from an opcode byte and two operand bytes is an instruction of the opcode's length and its cell's
cycles, and encodes to its bytes (R82, R84, R85). -/
structure AgreesWithItsBytes (op l h : Byte) : Prop where
  wf : (decodeBytes op l h).wf = true
  length : (decodeBytes op l h).length = lengthOf op
  encode : encode (decodeBytes op l h) = some ([op, l, h].take (lengthOf op))
  cycles (cross : Bool) : cycles (decodeBytes op l h) cross = costOf (decodeBytes op l h) cross

/-- Each cell of the opcode map, by the row and the column of its byte. -/
theorem decodeBytes_agrees (op l h : Byte) : AgreesWithItsBytes op l h := by
  refine byte_cases (AgreesWithItsBytes · l h) (fun row column => ?_) op
  rcases nibble_cases row with
    rfl | rfl | rfl | rfl | rfl | rfl | rfl | rfl | rfl | rfl | rfl | rfl | rfl | rfl | rfl | rfl <;>
  rcases nibble_cases column with
    rfl | rfl | rfl | rfl | rfl | rfl | rfl | rfl | rfl | rfl | rfl | rfl | rfl | rfl | rfl | rfl <;>
  exact ⟨rfl, rfl, rfl, fun _ => rfl⟩

/-- Settles O2: each cell of the opcode map. -/
theorem encodeOfDecodeIsTheBytes : Obligations.EncodeOfDecodeIsTheBytes := by
  unfold Obligations.EncodeOfDecodeIsTheBytes
  intro op l h
  have hcell := decodeBytes_agrees op l h
  exact ⟨hcell.wf, hcell.length, hcell.encode⟩

/-- Settles O5: a well-formed instruction is decoded from a cell of the opcode map. -/
theorem cyclesOfEveryForm : Obligations.CyclesOfEveryForm := by
  unfold Obligations.CyclesOfEveryForm
  intro i cross hwf
  obtain ⟨op, l, h, rfl⟩ := exists_decodeBytes hwf
  exact (decodeBytes_agrees op l h).cycles cross

/-! The cells of the opcode map: how many there are of each kind (R84), which are absent (R86), and which a machine
admits (R3, D1). -/

/-- The cells, the entries and the documented entries of the map, counted row by row. -/
theorem opcodeMap_counts : opcodeMap.length = 256 ∧ (opcodeMap.filter (·.isSome)).length = 227 ∧
    (opcodeMap.filter (·.any (·.official))).length = 151 := by
  simp only [opcodeMap, List.filter_append, List.length_append]
  exact ⟨rfl, rfl, rfl⟩

theorem dispatchTable_eq_none_iff (op : Byte) : dispatchTable op = none ↔ op ∈ absentOpcodes := by
  revert op
  decide

/-- The default UNOFFICIAL_SET (D1) lists the starred cells of the map. -/
theorem mem_defaultUnofficialSet_iff (op : Byte) :
    op ∈ defaultUnofficialSet ↔ ∃ e, dispatchTable op = some e ∧ e.official = false := by
  have hcell : op ∈ defaultUnofficialSet ↔ (dispatchTable op).any (!·.official) = true := by
    revert op
    decide
  simpa [Option.any_eq_true] using hcell

theorem admitted_iff (set : List Byte) (op : Byte) :
    admitted set op = true ↔ ∃ e, dispatchTable op = some e ∧ (e.official = true ∨ op ∈ set) := by
  unfold admitted
  cases dispatchTable op <;> simp

/-- The default set admits every entry (R3): an entry is documented, or a starred cell and so in the set. -/
theorem admitted_default_iff (op : Byte) : admitted defaultUnofficialSet op = true ↔ op ∉ absentOpcodes := by
  rw [admitted_iff, ← dispatchTable_eq_none_iff, ← ne_eq, Option.ne_none_iff_exists']
  constructor
  · rintro ⟨e, he, -⟩
    exact ⟨e, he⟩
  · rintro ⟨e, he⟩
    cases hofficial : e.official with
    | true => exact ⟨e, he, .inl hofficial⟩
    | false => exact ⟨e, he, .inr ((mem_defaultUnofficialSet_iff op).mpr ⟨e, he, hofficial⟩)⟩

/-- Settles O3: the counts, the absent cells, the default set and what a set admits. -/
theorem dispatchTableHas227EntriesAnd29Absent : Obligations.DispatchTableHas227EntriesAnd29Absent := by
  unfold Obligations.DispatchTableHas227EntriesAnd29Absent
  exact ⟨opcodeMap_counts, dispatchTable_eq_none_iff, mem_defaultUnofficialSet_iff, admitted_iff,
    admitted_default_iff⟩

/-- Settles O4: each word is looked up in the map. -/
theorem encodedWordsDecodeToTheirInstructions : Obligations.EncodedWordsDecodeToTheirInstructions := by
  unfold Obligations.EncodedWordsDecodeToTheirInstructions
  exact ⟨rfl, rfl, rfl, rfl, rfl, rfl, rfl, rfl, rfl, rfl⟩

end Sys2Proof.Machine

namespace Sys2Proof.Machine

/-! Addressing (R109 to R114, R117), then the fetch (R100, R101) and a word placed for it. -/

/-! The EA and the page test, by the kind of mode: with no index added to the base, and with one. -/

theorem ea_of_no_index (m : MemRef) (s : State) (h : indexOf m s = 0) : ea m s = baseAddr m s := by
  rw [ea, h]
  exact BitVec.add_zero _

/-- The EA of an indexed mode, by the two bytes of its base. -/
theorem ea_of_base {m : MemRef} {s : State} {h l : Byte} (hbase : baseAddr m s = w16 h l) :
    (ea m s).toNat = (h.toNat * 256 + l.toNat + (indexOf m s).toNat) % 65536 := by
  rw [ea_toNat, hbase, w16_toNat]

/-- The page test of an indexed mode is on the low byte of its base. -/
theorem crosses_of_base {m : MemRef} {s : State} {h l : Byte} (hbase : baseAddr m s = w16 h l) :
    crosses m s = decide (0xFF < l.toNat + (indexOf m s).toNat) := by
  rw [crosses, hbase, lo8_w16]

/-- Settles O6: the three modes add no index to their base, which stands in page zero. -/
theorem zeroPageIndexWrapsInPageZero : Obligations.ZeroPageIndexWrapsInPageZero := by
  unfold Obligations.ZeroPageIndexWrapsInPageZero
  intro i s
  refine ⟨?_, ?_, ?_, crosses_of_no_index _ s rfl, crosses_of_no_index _ s rfl, crosses_of_no_index _ s rfl⟩
  · rw [ea_of_no_index _ s rfl]
    exact zeroPage_toNat i
  · rw [ea_of_no_index _ s rfl]
    exact (zeroPage_toNat _).trans (BitVec.toNat_add i s.x)
  · rw [ea_of_no_index _ s rfl]
    exact (zeroPage_toNat _).trans (BitVec.toNat_add i s.y)

/-- Settles O7: either pointer is a byte whose successor wraps as a byte does; (zp),Y alone adds an index to the word. -/
theorem indirectModesReadAPageZeroPointer : Obligations.IndirectModesReadAPageZeroPointer := by
  unfold Obligations.IndirectModesReadAPageZeroPointer
  intro i p s lo hi hlo hhi
  obtain rfl : lo = zeroPage p := BitVec.eq_of_toNat_eq (by rw [hlo, zeroPage_toNat])
  obtain rfl : hi = zeroPage (p + 1) :=
    BitVec.eq_of_toNat_eq (by rw [hhi, zeroPage_toNat, BitVec.toNat_add]; rfl)
  constructor
  · intro hp
    obtain rfl : p = i + s.x := BitVec.eq_of_toNat_eq (hp.trans (BitVec.toNat_add i s.x).symm)
    rw [ea_of_no_index _ s rfl]
    exact ⟨zpRead16_toNat _ s, crosses_of_no_index _ s rfl⟩
  · rintro rfl
    exact ⟨ea_of_base rfl, crosses_of_base rfl⟩

/-- Settles O8: the base is the operand word. -/
theorem absoluteIndexedWrapsAtTheTopOfMemory : Obligations.AbsoluteIndexedWrapsAtTheTopOfMemory := by
  unfold Obligations.AbsoluteIndexedWrapsAtTheTopOfMemory
  intro l h s
  refine ⟨?_, crosses_of_no_index _ s rfl, ea_of_base rfl, crosses_of_base rfl, ea_of_base rfl, crosses_of_base rfl⟩
  rw [ea_of_no_index _ s rfl]
  exact w16_toNat h l

/-- Adding a byte to an address changes its page exactly when the low byte's sum carries. -/
theorem hi8_add_zeroPage_ne_iff (a : Addr) (b : Byte) :
    hi8 (a + zeroPage b) ≠ hi8 a ↔ 255 < a.toNat % 256 + b.toNat := by
  have ha := a.isLt
  have hb := b.isLt
  rw [ne_eq, ← BitVec.toNat_inj, hi8_toNat, hi8_toNat, BitVec.toNat_add, zeroPage_toNat]
  omega

/-- Settles O9: in every mode the EA is the base plus a byte. -/
theorem crossIsAChangeOfPage : Obligations.CrossIsAChangeOfPage := by
  unfold Obligations.CrossIsAChangeOfPage
  intro m s
  rw [crosses_eq, Bool.eq_iff_iff, decide_eq_true_iff, bne_iff_ne]
  exact (hi8_add_zeroPage_ne_iff (baseAddr m s) (indexOf m s)).symm

/-! The fetch on any bus. -/

section fetch

variable {σ : Type} {bus : Bus σ}

/-- Three bytes decode to the instruction of the opcode and whatever bytes its length leaves out: the bytes its length
keeps are its encoding, which decodes back. -/
theorem decode_three_bytes (op l h : Byte) :
    decode [op, l, h] = .ok (decodeBytes op l h, [op, l, h].drop (lengthOf op)) := by
  obtain ⟨hwf, -, hencode⟩ := encodeOfDecodeIsTheBytes op l h
  obtain ⟨bytes, hbytes, hdecode⟩ := decodeOfEncodeIsTheInstruction _ hwf
  obtain rfl := Option.some.inj (hencode.symm.trans hbytes)
  simpa only [List.take_append_drop] using hdecode ([op, l, h].drop (lengthOf op))

theorem fetchInstr_of_admitted {s : State σ bus} (h : admitted s.cfg.unofficialSet (s.read s.pc) = true) :
    fetchInstr s = decodeBytes (s.read s.pc) ((s.afterRead s.pc).read (s.pc + 1))
      (((s.afterRead s.pc).afterRead (s.pc + 1)).read (s.pc + 2)) := if_pos h

/-- An admitted opcode fetches what the three bytes at PC decode to. -/
theorem fetchInstr_of_decode {s : State σ bus} {i : Instr} {rest : List Byte}
    (hadmitted : admitted s.cfg.unofficialSet (s.read s.pc) = true)
    (hdecode : decode [s.read s.pc, (s.afterRead s.pc).read (s.pc + 1),
      ((s.afterRead s.pc).afterRead (s.pc + 1)).read (s.pc + 2)] = .ok (i, rest)) :
    fetchInstr s = i := by
  rw [decode_three_bytes, ← fetchInstr_of_admitted hadmitted] at hdecode
  injection hdecode with hdecode
  exact congrArg Prod.fst hdecode

/-- A started machine's step runs the fetched instruction after the reads of its bytes. -/
theorem stepOver_of_fetchInstr {s : State σ bus} {i : Instr} (hstarted : s.started = true)
    (hfetch : fetchInstr s = i) : stepOver s = execOver i (s.afterReads i.length s.pc) := by
  rw [stepOver, if_pos hstarted, afterFetch, hfetch]

theorem addr_succ_succ (a : Addr) : a + 1 + 1 = a + 2 := BitVec.add_assoc a 1 1

theorem afterReads_three (a : Addr) (s : State σ bus) :
    s.afterReads 3 a = ((s.afterRead a).afterRead (a + 1)).afterRead (a + 2) :=
  congrArg ((s.afterRead a).afterRead (a + 1)).afterRead (addr_succ_succ a)

end fetch

/-- On the default mapper a fetch changes nothing (R55). -/
theorem step_of_fetchInstr {s : State} {i : Instr} (hstarted : s.started = true) (hfetch : fetchInstr s = i) :
    step s = exec i s := by
  rw [← stepOver_default, stepOver_of_fetchInstr hstarted hfetch, afterReads_default, execOver_default]

/-- Settles O42: what is fetched is what the bytes decode to, after as many reads as it is long. -/
theorem stepRunsTheDecodedInstruction : Obligations.StepRunsTheDecodedInstruction := by
  unfold Obligations.StepRunsTheDecodedInstruction
  refine ⟨?_, ?_, stepOver_default, execOver_default⟩
  · intro s i rest hstarted hadmitted hdecode
    exact step_of_fetchInstr hstarted (fetchInstr_of_decode hadmitted hdecode)
  · rintro σ bus s s1 s2 s3 i rest rfl rfl rfl hstarted hadmitted hdecode
    have hstep := stepOver_of_fetchInstr hstarted (fetchInstr_of_decode hadmitted hdecode)
    refine ⟨fun hlength => ?_, fun hlength => ?_, fun hlength => ?_⟩
    · rw [hstep, hlength]
      rfl
    · rw [hstep, hlength]
      rfl
    · rw [hstep, hlength, afterReads_three]

/-! A word placed where the next fetch reads (log entry 6). -/

/-- The mirrors of a cell are at least eight addresses apart (R54), also across the top of memory. -/
theorem cellOf_add_ne (a k : Addr) (hpos : 0 < k.toNat) (hlt : k.toNat < 8) : cellOf (a + k) ≠ cellOf a := by
  have ha := a.isLt
  unfold cellOf
  rw [BitVec.toNat_add]
  split_ifs <;> omega

/-- The three bytes stored at PC stand in three cells, so none is stored over another. -/
theorem storeAtPc_reads (b0 b1 b2 : Byte) (s : State) :
    (storeAtPc b0 b1 b2 s).read s.pc = b0 ∧ (storeAtPc b0 b1 b2 s).read (s.pc + 1) = b1 ∧
      (storeAtPc b0 b1 b2 s).read (s.pc + 2) = b2 := by
  have h1 : cellOf (s.pc + 1) ≠ cellOf s.pc := cellOf_add_ne s.pc 1 (by decide) (by decide)
  have h2 : cellOf (s.pc + 2) ≠ cellOf s.pc := cellOf_add_ne s.pc 2 (by decide) (by decide)
  have h12 : cellOf (s.pc + 2) ≠ cellOf (s.pc + 1) := by
    rw [← addr_succ_succ]
    exact cellOf_add_ne (s.pc + 1) 1 (by decide) (by decide)
  have hread (a : Addr) : (storeAtPc b0 b1 b2 s).read a =
      (((s.write (s.pc + 2) b2).write (s.pc + 1) b1).write s.pc b0).read a := rfl
  simp only [hread, write_read, h1, h2, h12, if_true, if_false, and_self]

/-- The fetch reads the three bytes stored at PC, on the default mapper. -/
theorem fetchInstr_storeAtPc {s : State} {op : Byte} (l h : Byte) (hop : admitted s.cfg.unofficialSet op = true) :
    fetchInstr (storeAtPc op l h s) = decodeBytes op l h := by
  obtain ⟨hread0, hread1, hread2⟩ := storeAtPc_reads op l h s
  rw [fetchInstr_of_admitted (hread0.symm ▸ hop)]
  show decodeBytes ((storeAtPc op l h s).read s.pc) ((storeAtPc op l h s).read (s.pc + 1))
    ((storeAtPc op l h s).read (s.pc + 2)) = _
  rw [hread0, hread1, hread2]

/-- The word numbered by three bytes has those bytes. -/
theorem tableByte_of_bytes (op l h : Byte) :
    tableByte 24 (op.toNat + 256 * l.toNat + 65536 * h.toNat) 0 = op ∧
      tableByte 24 (op.toNat + 256 * l.toNat + 65536 * h.toNat) 1 = l ∧
      tableByte 24 (op.toNat + 256 * l.toNat + 65536 * h.toNat) 2 = h := by
  have hop := op.isLt
  have hl := l.isLt
  have hh := h.isLt
  refine ⟨?_, ?_, ?_⟩
  all_goals
    apply BitVec.eq_of_toNat_eq
    rw [tableByte, BitVec.toNat_ofNat]
    omega

/-- Settles O53: the word's bytes are those given, and the fetch reads them. -/
theorem storedWordRunsNext : Obligations.StoredWordRunsNext := by
  unfold Obligations.StoredWordRunsNext
  intro s op l h hadmitted
  obtain ⟨hbyte0, hbyte1, hbyte2⟩ := tableByte_of_bytes op l h
  rw [State.withFetchWord, hbyte0, hbyte1, hbyte2]
  exact step_of_fetchInstr rfl (fetchInstr_storeAtPc l h hadmitted)

end Sys2Proof.Machine

namespace Sys2Proof.Machine

/-! ADC, SBC and the compares (R140 to R146): the one adder and the one compare, each with its frame. -/

/-- The end of an instruction whose body writes at most the listed registers and flags, and stores nothing. -/
theorem KeepsBut.registerStep {rs : List Reg} {fs : List Flag} {s u : State} (h : KeepsBut rs fs s u)
    (hmem : u.mem = s.mem) (i : Instr) (c : Bool) : RegisterStep i c rs fs s (Machine.finish i c u) :=
  registerStep_finish i c rs fs s u h.pc h.cyc h.regs h.flags hmem h.machine

theorem registerStep_addWithCarry (i : Instr) (c : Bool) (m : Byte) (s : State) :
    RegisterStep i c [.a] [.c, .z, .v, .n] s (finish i c (addWithCarry m s)) :=
  (keepsBut_addWithCarry (by decide) (List.Subset.refl _) m s).registerStep rfl i c

theorem registerStep_compare (i : Instr) (c : Bool) (r m : Byte) (s : State) :
    RegisterStep i c [] [.c, .z, .n] s (finish i c (compare r m s)) :=
  (keepsBut_compare (List.Subset.refl _) r m s).registerStep rfl i c

theorem ShowsZN.finish {v : Byte} {u : State} (h : ShowsZN v u) (i : Instr) (c : Bool) :
    ShowsZN v (Machine.finish i c u) := h

/-- The adder shows Z and N of the sum it leaves in A (R140). -/
theorem addWithCarry_showsZN (m : Byte) (s : State) : ShowsZN (addWithCarry m s).a (addWithCarry m s) :=
  showsZN_of_flags _ _ (addWithCarry_flag m s .z) (addWithCarry_flag m s .n)

/-- The compare shows Z and N of the difference modulo 256 (R143). -/
theorem compare_showsZN (r m : Byte) (s : State) :
    ShowsZN (BitVec.ofNat 8 (r.toNat + 256 - m.toNat)) (compare r m s) := by
  rw [difference_eq]
  exact showsZN_of_flags _ _ (compare_flag r m s .z) (compare_flag r m s .n)

/-- Settles O11: A is the adder's byte as a number, and its flags are the adder's. -/
theorem adcAddsOperandAndCarry : Obligations.AdcAddsOperandAndCarry := by
  unfold Obligations.AdcAddsOperandAndCarry
  intro o s
  have ha : (addWithCarry (operandValue o s) s).a.toNat =
      (s.a.toNat + (operandValue o s).toNat + (s.flag .c).toNat) % 256 := BitVec.toNat_ofNat _ 8
  refine ⟨_, exec_adc o s, ?_⟩
  simp only [finish_a, finish_flag]
  exact ⟨ha, addWithCarry_flag _ s .c, addWithCarry_flag _ s .v, (addWithCarry_showsZN _ s).finish _ _,
    registerStep_addWithCarry _ _ _ s⟩

/-- The undocumented EB is the immediate form of SBC (R263). -/
theorem exec_sbcEB (i : Byte) (s : State) :
    exec (.sbcEB i) s = .next (finish (.sbcEB i) false (addWithCarry (i ^^^ 0xFF) s)) := rfl

/-- Settles O12: the adder on the complement is the subtraction with borrow, whatever byte is subtracted. -/
theorem sbcSubtractsOperandAndBorrow : Obligations.SbcSubtractsOperandAndBorrow := by
  unfold Obligations.SbcSubtractsOperandAndBorrow
  constructor
  · intro o s
    obtain ⟨ha, hc, hv⟩ := addWithCarry_complement (operandValue o s) s
    refine ⟨_, exec_sbc o s, ?_⟩
    simp only [finish_a, finish_flag]
    exact ⟨ha, hc, hv, (addWithCarry_showsZN _ s).finish _ _, registerStep_addWithCarry _ _ _ s⟩
  · intro i s
    obtain ⟨ha, hc, hv⟩ := addWithCarry_complement i s
    refine ⟨_, exec_sbcEB i s, ?_⟩
    simp only [finish_a, finish_flag]
    exact ⟨ha, hc, hv, (addWithCarry_showsZN _ s).finish _ _, registerStep_addWithCarry _ _ _ s⟩

/-- Settles O14: the three compares are one operation on three registers. -/
theorem comparesWriteCarryZeroNegative : Obligations.ComparesWriteCarryZeroNegative := by
  unfold Obligations.ComparesWriteCarryZeroNegative
  intro o s
  refine ⟨⟨_, exec_cmp o s, ?_⟩, ⟨_, exec_cpx o s, ?_⟩, ⟨_, exec_cpy o s, ?_⟩⟩
  all_goals
    rw [finish_flag]
    exact ⟨compare_flag _ _ s .c, (compare_showsZN _ _ s).finish _ _, registerStep_compare _ _ _ _ s⟩

/-- Instructions of the same length and cycles end a step alike (R104, R105). -/
theorem finish_congr {i j : Instr} {c : Bool} (hlength : i.length = j.length) (hcycles : cycles i c = cycles j c)
    (s : State) : finish i c s = finish j c s := by
  unfold finish
  rw [hlength, hcycles]

/-- Settles O13: SBC runs the adder on the complement, and the immediate forms have one length and one cost. -/
theorem sbcIsAdcOfTheComplement : Obligations.SbcIsAdcOfTheComplement := by
  unfold Obligations.SbcIsAdcOfTheComplement
  intro i s
  rw [exec_sbc, exec_sbcEB, exec_adc]
  exact ⟨congrArg Host.Outcome.next (finish_congr rfl rfl _), congrArg Host.Outcome.next (finish_congr rfl rfl _)⟩

end Sys2Proof.Machine

namespace Sys2Proof.Machine

/-! The shifts and rotates, the logic instructions and BIT (R160 to R168): the one end of every shift, then each
target of Modify; the logic as loads of A. -/

section shifts

/-- A function of Modify that ends as every shift does (R160): Z and N of its byte, and in C the bit shifted out. -/
def Shifts (f : Byte → State → Byte × State) (out : Byte → Bool) : Prop :=
  ∀ v s, f v s = shifted (f v s).1 (out v) s

theorem aslF_shifts : Shifts aslF (·.getLsbD 7) := fun _ _ => rfl
theorem lsrF_shifts : Shifts lsrF (·.getLsbD 0) := fun _ _ => rfl
theorem rolF_shifts : Shifts rolF (·.getLsbD 7) := fun _ _ => rfl
theorem rorF_shifts : Shifts rorF (·.getLsbD 0) := fun _ _ => rfl

variable {f : Byte → State → Byte × State} {out : Byte → Bool}

theorem Shifts.status (h : Shifts f out) : WritesStatusOnly f := by
  intro v s
  rw [h v s]
  rfl

theorem Shifts.mem (h : Shifts f out) (v : Byte) (s : State) : (f v s).2.mem = s.mem := by
  rw [h v s]
  rfl

theorem Shifts.carry (h : Shifts f out) (v : Byte) (s : State) : (f v s).2.flag .c = out v := by
  rw [h v s]
  exact shifted_flag _ _ s .c

theorem Shifts.showsZN (h : Shifts f out) (v : Byte) (s : State) : ShowsZN (f v s).1 (f v s).2 := by
  rw [h v s]
  exact setZN_showsZN _ _

theorem Shifts.keepsBut (h : Shifts f out) {rs : List Reg} (v : Byte) (s : State) :
    KeepsBut rs [.c, .z, .n] s (f v s).2 := by
  rw [h v s]
  exact keepsBut_shifted (List.Subset.refl _) _ _ s

/-- An instruction that is a shift of the accumulator: Modify leaves the shifted byte in A and reaches no bus. -/
theorem Shifts.accumulatorStep (h : Shifts f out) {i : Instr} {s : State} {n : Nat}
    (hexec : exec i s = .next (finish i false (modifyTarget .acc f s))) (hvalue : (f s.a s).1.toNat = n) :
    ∃ t, exec i s = .next t ∧ t.a.toNat = n ∧ t.flag .c = out s.a ∧ ShowsZN t.a t ∧
      RegisterStep i false [.a] [.c, .z, .n] s t := by
  have hframe : KeepsBut [.a] [.c, .z, .n] s (modifyTarget .acc f s) :=
    keepsBut_modifyTarget h.keepsBut .acc (by simp) s
  exact ⟨_, hexec, hvalue, h.carry s.a s, (h.showsZN s.a s).finish i false, hframe.registerStep (h.mem s.a s) i false⟩

/-- An instruction that is a shift of memory: Modify leaves the shifted byte at EA. -/
theorem Shifts.memoryStep (h : Shifts f out) {i : Instr} {m : MemRef} {s : State} {n : Nat}
    (hexec : exec i s = .next (finish i false (modifyTarget (.mem m) f s)))
    (hvalue : (f (s.read (ea m s)) s).1.toNat = n) :
    ∃ t, exec i s = .next t ∧ (t.read (ea m s)).toNat = n ∧ t.flag .c = out (s.read (ea m s)) ∧
      ShowsZN (t.read (ea m s)) t ∧ StoringStep i false [] [.c, .z, .n] [ea m s] s t := by
  have hread : (modify m f s).2.read (ea m s) = (f (s.read (ea m s)) s).1 := modify_read_ea m f h.status s
  have hshows : ShowsZN (f (s.read (ea m s)) s).1 (modify m f s).2 := by
    rw [modify_default]
    exact h.showsZN _ s
  have hframe : StoringStep i false [] [.c, .z, .n] [ea m s] s (finish i false (modify m f s).2) :=
    storingStep_modify i m f h.status false _ s (h.keepsBut (rs := []) _ s).flags
  refine ⟨_, hexec, ?_, ?_, ?_, hframe⟩
  · rw [finish_read]
    exact (congrArg BitVec.toNat hread).trans hvalue
  · rw [finish_flag]
    exact (modify_state_flag m f s .c).trans (h.carry _ s)
  · rw [finish_read]
    exact (hread ▸ hshows).finish i false

end shifts

/-! A shift is Modify of its function (R161 to R164). -/

theorem exec_asl (o : Target) (s : State) :
    exec (.asl o) s = .next (finish (.asl o) false (modifyTarget o aslF s)) := rfl

theorem exec_lsr (o : Target) (s : State) :
    exec (.lsr o) s = .next (finish (.lsr o) false (modifyTarget o lsrF s)) := rfl

theorem exec_rol (o : Target) (s : State) :
    exec (.rol o) s = .next (finish (.rol o) false (modifyTarget o rolF s)) := rfl

theorem exec_ror (o : Target) (s : State) :
    exec (.ror o) s = .next (finish (.ror o) false (modifyTarget o rorF s)) := rfl

/-- Settles O15: each is a shift of A, whose byte as a number is known. -/
theorem shiftsOfTheAccumulator : Obligations.ShiftsOfTheAccumulator := by
  unfold Obligations.ShiftsOfTheAccumulator
  intro s
  exact ⟨aslF_shifts.accumulatorStep (exec_asl .acc s) (aslF_value s.a s),
    lsrF_shifts.accumulatorStep (exec_lsr .acc s) (lsrF_value s.a s),
    rolF_shifts.accumulatorStep (exec_rol .acc s) (rolF_value s.a s),
    rorF_shifts.accumulatorStep (exec_ror .acc s) (rorF_value s.a s)⟩

/-- Settles O16: each is a shift of the byte at EA, whose value as a number is known. -/
theorem shiftsOfMemory : Obligations.ShiftsOfMemory := by
  unfold Obligations.ShiftsOfMemory
  intro m s
  exact ⟨aslF_shifts.memoryStep (exec_asl (.mem m) s) (aslF_value _ s),
    lsrF_shifts.memoryStep (exec_lsr (.mem m) s) (lsrF_value _ s),
    rolF_shifts.memoryStep (exec_rol (.mem m) s) (rolF_value _ s),
    rorF_shifts.memoryStep (exec_ror (.mem m) s) (rorF_value _ s)⟩

/-! The logic instructions load A with the combined byte (R165 to R167). -/

theorem loadA_showsZN (v : Byte) (s : State) : ShowsZN v (loadA v s) := setZN_showsZN v _

theorem registerStep_loadA (i : Instr) (c : Bool) (v : Byte) (s : State) :
    RegisterStep i c [.a] [.z, .n] s (finish i c (loadA v s)) :=
  (keepsBut_loadA (by decide) (List.Subset.refl _) v s).registerStep rfl i c

theorem andA_eq_loadA (v : Byte) (s : State) : andA v s = loadA (s.a &&& v) s := rfl
theorem orA_eq_loadA (v : Byte) (s : State) : orA v s = loadA (s.a ||| v) s := rfl
theorem xorA_eq_loadA (v : Byte) (s : State) : xorA v s = loadA (s.a ^^^ v) s := rfl

/-- Settles O17: each loads A with its combination of A and the operand. -/
theorem logicCombinesOperandIntoA : Obligations.LogicCombinesOperandIntoA := by
  unfold Obligations.LogicCombinesOperandIntoA
  intro o s
  rw [exec_and, exec_ora, exec_eor, andA_eq_loadA, orA_eq_loadA, xorA_eq_loadA]
  refine ⟨⟨_, rfl, ?_⟩, ⟨_, rfl, ?_⟩, ⟨_, rfl, ?_⟩⟩
  all_goals
    rw [finish_a, loadA_a]
    exact ⟨rfl, (loadA_showsZN _ s).finish _ _, registerStep_loadA _ _ _ s⟩

/-- BIT writes V, N and Z alone (R168). -/
theorem registerStep_bitTest (i : Instr) (c : Bool) (v : Byte) (s : State) :
    RegisterStep i c [] [.v, .n, .z] s (finish i c (bitTest v s)) :=
  (keepsBut_bitTest (by decide) v s).registerStep rfl i c

/-- Settles O18: BIT's flags are those of its test on the byte at EA. -/
theorem bitTestsOperandBits : Obligations.BitTestsOperandBits := by
  unfold Obligations.BitTestsOperandBits
  intro m s
  refine ⟨_, exec_bit m s, ?_⟩
  simp only [finish_flag]
  exact ⟨bitTest_flag _ s .v, bitTest_flag _ s .n, bitTest_flag _ s .z, registerStep_bitTest _ _ _ s⟩

end Sys2Proof.Machine

namespace Sys2Proof.Machine

/-! The branches, JMP, JSR and RTS (R180 to R192): what each leaves unchanged is read off its frame
(InstrFrame), and its addresses and cycles are given as numbers. -/

/-- The frame of an instruction that completes on the default mapper. -/
theorem exec_instrFrame {i : Instr} {s t : State} (h : exec i s = .next t) : InstrFrame i s t :=
  execOver_instrFrame i s t ((execOver_default i s).trans h)

/-- Memory reads as before where the store is the same. -/
theorem keepsMemory_of_mem_eq {s t : State} (h : t.mem = s.mem) : KeepsMemory s t :=
  fun a => read_congr t s h a

/-! The branches (R180 to R188): each is the one template on its own condition. -/

/-- The eight branches, each with its opcode byte and its condition (R181 to R188). -/
def branchRows (off : Byte) (s : State) : List (Instr × Byte × Bool) :=
  [(.bcc off, 0x90, !s.flag .c), (.bcs off, 0xB0, s.flag .c), (.beq off, 0xF0, s.flag .z),
   (.bne off, 0xD0, !s.flag .z), (.bmi off, 0x30, s.flag .n), (.bpl off, 0x10, !s.flag .n),
   (.bvc off, 0x50, !s.flag .v), (.bvs off, 0x70, s.flag .v)]

/-- A branch runs the template on its condition (R180), has two bytes and two base cycles (R84), and is listed as
writing no register and no flag. -/
theorem exec_of_mem_branchRows {off op : Byte} {s : State} {i : Instr} {cond : Bool}
    (h : (i, op, cond) ∈ branchRows off s) :
    exec i s = .next (branch i cond off s) ∧ encode i = some [op, off] ∧ i.length = 2 ∧ cycles i false = 2 ∧
      writtenRegs i = [] ∧ writtenFlags i = [] := by
  simp only [branchRows, List.mem_cons, Prod.mk.injEq, List.not_mem_nil, or_false] at h
  obtain ⟨rfl, rfl, rfl⟩ | ⟨rfl, rfl, rfl⟩ | ⟨rfl, rfl, rfl⟩ | ⟨rfl, rfl, rfl⟩ | ⟨rfl, rfl, rfl⟩ |
    ⟨rfl, rfl, rfl⟩ | ⟨rfl, rfl, rfl⟩ | ⟨rfl, rfl, rfl⟩ := h
  all_goals exact ⟨rfl, rfl, rfl, rfl, rfl, rfl⟩

theorem branchNext_toNat (s : State) : (branchNext s).toNat = (s.pc.toNat + 2) % 65536 := BitVec.toNat_add s.pc 2

/-- The target of a branch as a number: the offset's signed reading, modulo 65536 (R11, R180). -/
theorem branchTarget_toNat (off : Byte) (s : State) : (branchTarget off s).toNat =
    (s.pc.toNat + 2 + (if off.toNat < 128 then off.toNat else off.toNat + 0xFF00)) % 65536 := by
  rw [branchTarget, BitVec.toNat_add, branchNext_toNat, sext16_toNat, Nat.mod_add_mod]

/-- The extra cycles of a taken branch, by the page numbers of its target and of the next instruction (R180). -/
theorem branchExtra_eq (off : Byte) (s : State) : branchExtra off s =
    if (branchTarget off s).toNat / 256 = (s.pc.toNat + 2) % 65536 / 256 then 1 else 2 := by
  have hpage : hi8 (branchTarget off s) = hi8 (branchNext s) ↔
      (branchTarget off s).toNat / 256 = (s.pc.toNat + 2) % 65536 / 256 := by
    rw [← BitVec.toNat_inj, hi8_toNat, hi8_toNat, branchNext_toNat]
  by_cases h : hi8 (branchTarget off s) = hi8 (branchNext s)
  · rw [branchExtra, if_pos (hpage.mp h), bne_eq_false_iff_eq.mpr h]
    rfl
  · rw [branchExtra, if_neg (mt hpage.mpr h), bne_iff_ne.mpr h]
    rfl

/-- Settles O26: the template's PC and cycles, taken and not, as numbers. -/
theorem branchesTakenAndNotTaken : Obligations.BranchesTakenAndNotTaken := by
  unfold Obligations.BranchesTakenAndNotTaken
  intro s off i op cond hrow
  obtain ⟨hexec, hencode, hlength, hcycles, hwregs, hwflags⟩ := exec_of_mem_branchRows hrow
  obtain ⟨hregs, hflags, hmachine, -, -⟩ := exec_instrFrame hexec
  obtain ⟨-, -, -, -, -, -, -, -, hpc, hcyc⟩ := branch_fields i cond off s
  rw [hwregs] at hregs
  rw [hwflags] at hflags
  rw [hlength] at hpc
  rw [hcycles] at hcyc
  refine ⟨hencode, _, hexec, ?_, ?_, hregs, hflags, keepsMemory_of_mem_eq (branch_mem cond off s), hmachine⟩
  · rintro rfl
    rw [hpc, hcyc]
    exact ⟨branchNext_toNat s, congrArg (· + 2) (BitVec.add_zero s.cyc)⟩
  · rintro rfl
    rw [if_pos rfl] at hpc hcyc
    rw [hpc, hcyc, branchExtra_eq]
    refine ⟨branchTarget_toNat off s, ?_⟩
    split
    · exact BitVec.add_assoc s.cyc 1 2
    · exact BitVec.add_assoc s.cyc 2 2

/-! JMP (R189, R190). -/

theorem exec_jmp (l h : Byte) (s : State) : exec (.jmp l h) s =
    .next (finishAt (.jmp l h) { s with pc := w16 h l }) := rfl

/-- The pointer's two reads change nothing on the default mapper (R55). -/
theorem exec_jmpInd (l h : Byte) (s : State) : exec (.jmpInd l h) s =
    .next (finishAt (.jmpInd l h) { s with pc := w16 (s.read (w16 h (l + 1))) (s.read (w16 h l)) }) := rfl

/-- Settles O27: the two addresses of the pointer are those of its own page. -/
theorem jumpsSetPC : Obligations.JumpsSetPC := by
  unfold Obligations.JumpsSetPC
  constructor
  · intro l h s
    obtain ⟨hregs, hflags, hmachine, -, -⟩ := exec_instrFrame (exec_jmp l h s)
    exact ⟨rfl, _, exec_jmp l h s, w16_toNat h l, rfl, hregs, hflags, keepsMemory_of_mem_eq rfl, hmachine, rfl⟩
  · intro l h s lo hi hlo hhi
    obtain rfl : lo = w16 h l := BitVec.eq_of_toNat_eq (hlo.trans (w16_toNat h l).symm)
    obtain rfl : hi = w16 h (l + 1) :=
      BitVec.eq_of_toNat_eq (by rw [hhi, w16_toNat, BitVec.toNat_add]; rfl)
    obtain ⟨hregs, hflags, hmachine, -, -⟩ := exec_instrFrame (exec_jmpInd l h s)
    exact ⟨rfl, _, exec_jmpInd l h s, w16_toNat _ _, rfl, hregs, hflags, keepsMemory_of_mem_eq rfl, hmachine⟩

/-! JSR and RTS (R191, R192): Push16 and Pull16, with an address that is one short of the return. -/

/-- Push16 stores two bytes of the stack page and nothing else (R201). -/
theorem push16_keepsMemoryBut (w : Addr) (s : State) :
    KeepsMemoryBut [stackAddr s.sp, stackAddr (s.sp - 1)] s (push16 w s) := by
  intro a ha
  rw [push16_read, if_neg (ha _ (by simp)), if_neg (ha _ (by simp))]

/-- The machine JSR leaves (R191). -/
def afterJsr (l h : Byte) (s : State) : State := finishAt (.jsr l h) { push16 (s.pc + 2) s with pc := w16 h l }

theorem exec_jsr (l h : Byte) (s : State) : exec (.jsr l h) s = .next (afterJsr l h s) := rfl

theorem afterJsr_read (l h : Byte) (s : State) (a : Addr) :
    (afterJsr l h s).read a = (push16 (s.pc + 2) s).read a := rfl

theorem afterJsr_sp (l h : Byte) (s : State) : (afterJsr l h s).sp = s.sp - 2 := by
  obtain ⟨-, -, -, hsp, -⟩ := push16_fields (s.pc + 2) s
  exact hsp

theorem afterJsr_cyc (l h : Byte) (s : State) : (afterJsr l h s).cyc = s.cyc + 6 := by
  obtain ⟨-, -, -, -, -, -, hcyc, -⟩ := push16_fields (s.pc + 2) s
  exact congrArg (· + 6) hcyc

/-- The machine RTS leaves (R192). -/
def afterRts (s : State) : State := finishAt .rts { (pull16 s).2 with pc := (pull16 s).1 + 1 }

theorem exec_rts (s : State) : exec .rts s = .next (afterRts s) := rfl

theorem afterRts_pc (s : State) : (afterRts s).pc = (pull16 s).1 + 1 := rfl

theorem afterRts_sp (s : State) : (afterRts s).sp = s.sp + 2 := sp_add_two s.sp

theorem afterRts_cyc (s : State) : (afterRts s).cyc = s.cyc + 6 := rfl

/-- Settles O28: the laws of Push16 on the address of JSR's last byte. -/
theorem jsrPushesItsLastAddress : Obligations.JsrPushesItsLastAddress := by
  unfold Obligations.JsrPushesItsLastAddress
  intro l h s
  obtain ⟨hregs, hflags, hmachine, -, -⟩ := exec_instrFrame (exec_jsr l h s)
  obtain ⟨hhigh, hlow⟩ := pushed_orders (s.pc + 2) s
  refine ⟨rfl, _, exec_jsr l h s, w16_toNat h l, afterJsr_sp l h s, afterJsr_cyc l h s, ?_, ?_, hregs, hflags, hmachine,
    push16_keepsMemoryBut (s.pc + 2) s⟩
  all_goals rw [afterJsr_read, afterJsr_read, push16_first, push16_second]
  exacts [hhigh, hlow]

/-- The address after a word of two bytes, modulo 65536. -/
theorem w16_add_one_toNat (h l : Byte) : (w16 h l + 1).toNat = (h.toNat * 256 + l.toNat + 1) % 65536 := by
  rw [BitVec.toNat_add, w16_toNat]
  rfl

/-- Settles O29: the word Pull16 reads, in either order of the parameter. -/
theorem rtsReturnsAfterThePulledWord : Obligations.RtsReturnsAfterThePulledWord := by
  unfold Obligations.RtsReturnsAfterThePulledWord
  intro s
  obtain ⟨hregs, hflags, hmachine, -, -⟩ := exec_instrFrame (exec_rts s)
  refine ⟨rfl, _, exec_rts s, afterRts_sp s, afterRts_cyc s, ?_, ?_, hregs, hflags, keepsMemory_of_mem_eq rfl, hmachine⟩
  all_goals
    intro horder
    rw [afterRts_pc, pull16_value, horder]
    exact w16_add_one_toNat _ _

/-- Pull16 after JSR gives the address of JSR's last byte (R191, R201). -/
theorem pull16_afterJsr (l h : Byte) (s : State) : (pull16 (afterJsr l h s)).1 = s.pc + 2 := by
  obtain ⟨hcfg, -⟩ := (exec_instrFrame (exec_jsr l h s)).machine
  exact pull16_pushed (s.pc + 2) s _ hcfg (afterJsr_sp l h s) (push16_first _ s) (push16_second _ s)

/-- Settles O30: the word comes back, SP moves down and up by two, and either frame keeps the rest. -/
theorem rtsUndoesJsr : Obligations.RtsUndoesJsr := by
  unfold Obligations.RtsUndoesJsr
  intro l h s
  have hjsr := exec_instrFrame (exec_jsr l h s)
  have hrts := exec_instrFrame (exec_rts (afterJsr l h s))
  refine ⟨_, _, exec_jsr l h s, exec_rts _, ?_, fun r _ => ?_,
    fun f hf => (hrts.flags f hf).trans (hjsr.flags f hf), ?_⟩
  · rw [afterRts_pc, pull16_afterJsr]
    exact BitVec.add_assoc s.pc 2 1
  · cases r with
    | a | x | y => exact (hrts.regs _ (by decide)).trans (hjsr.regs _ (by simp [writtenRegs]))
    | sp =>
      rw [reg_sp, reg_sp, afterRts_sp, afterJsr_sp]
      exact BitVec.sub_add_cancel s.sp 2
  · rw [afterRts_cyc, afterJsr_cyc]
    exact BitVec.add_assoc s.cyc 6 6

end Sys2Proof.Machine

namespace Sys2Proof.Machine

/-! The stack (R200 to R203, R206 to R210): the primitives push and pull, the four instructions that are one of them,
and BRK and RTI, the vectored entry and the return from it. What each leaves unchanged is read off its frame. -/

/-- A push stores one byte of the stack page and nothing else (R200). -/
theorem push_keepsMemoryBut (v : Byte) (s : State) : KeepsMemoryBut [stackAddr s.sp] s (push v s) :=
  write_keepsMemoryBut s (stackAddr s.sp) v

/-- Of the processor, a push and a pull write SP alone (R200). -/
theorem push_keepsBut (v : Byte) (s : State) : KeepsBut [.sp] [] s (push v s) := keepsBut_push (by decide) v s

theorem pull_keepsBut (s : State) : KeepsBut [.sp] [] s (pull s).2 := keepsBut_pull (by decide) s

/-- The byte a push stores stands at the stack pointer it was given (R200). -/
theorem push_read_top (v : Byte) (s : State) : (push v s).read (stackAddr s.sp) = v := by
  rw [push_read, if_pos rfl]

/-- Settles O31: the laws of push and pull, with the frame of each. -/
theorem pushAndPullStayInPageOne : Obligations.PushAndPullStayInPageOne := by
  unfold Obligations.PushAndPullStayInPageOne
  refine ⟨stackAddr_toNat, fun v s => ?_, fun s => ?_⟩
  · obtain ⟨hregs, hflags, hmachine, hpc, hcyc⟩ := push_keepsBut v s
    have hsp : (push v s).sp.toNat = (s.sp.toNat + 255) % 256 := by rw [push_sp]; bv_omega
    exact ⟨push_read_top v s, hsp, push_keepsMemoryBut v s, hregs, hflags, hpc, hcyc, hmachine⟩
  · obtain ⟨hregs, hflags, hmachine, hpc, hcyc⟩ := pull_keepsBut s
    exact ⟨BitVec.toNat_add s.sp 1, pull_value s, pull_read s, hregs, hflags, hpc, hcyc, hmachine⟩

/-- Settles O32: the two bytes stand in the order of the parameter, and Pull16 reads them in the opposite one. -/
theorem pullWordUndoesPushWord : Obligations.PullWordUndoesPushWord := by
  unfold Obligations.PullWordUndoesPushWord
  intro w s
  obtain ⟨-, -, -, hsp, -, -, -, -, hcfg⟩ := push16_fields w s
  obtain ⟨hhigh, hlow⟩ := pushed_orders w s
  have hfirst := push16_first w s
  have hsecond := push16_second w s
  have hback : (pull16 (push16 w s)).2.sp = s.sp := by
    rw [pull16_sp, hsp]
    exact (sp_add_two _).trans (BitVec.sub_add_cancel s.sp 2)
  rw [hfirst, hsecond]
  exact ⟨hhigh, hlow, hsp, pull16_pushed w s _ hcfg hsp hfirst hsecond, hback⟩

/-! PHA, PHP, PLA and PLP (R206 to R208, R210). -/

theorem exec_pha (s : State) : exec .pha s = .next (finish .pha false (push s.a s)) := rfl

theorem exec_php (s : State) : exec .php s = .next (finish .php false (push (pushedStatus s.p) s)) := rfl

/-- An instruction whose body is one push. -/
theorem storingStep_push (i : Instr) (c : Bool) (v : Byte) (s : State) :
    StoringStep i c [.sp] [] [stackAddr s.sp] s (finish i c (push v s)) := by
  obtain ⟨hregs, hflags, hmachine, hpc, hcyc⟩ := push_keepsBut v s
  exact storingStep_finish i c _ _ _ s _ hpc hcyc hregs hflags (push_keepsMemoryBut v s) hmachine

/-- Settles O33: each is one push. -/
theorem phaAndPhpPushOneByte : Obligations.PhaAndPhpPushOneByte := by
  unfold Obligations.PhaAndPhpPushOneByte
  intro s
  exact ⟨⟨rfl, rfl, _, exec_pha s, push_read_top _ s, rfl, storingStep_push _ _ _ s⟩,
    ⟨rfl, rfl, _, exec_php s, push_read_top _ s, rfl, storingStep_push _ _ _ s⟩⟩

theorem exec_pla (s : State) : exec .pla s = .next (finish .pla false (loadA (pull s).1 (pull s).2)) := rfl

/-- Settles O34: a load of A with the pulled byte. -/
theorem plaPullsA : Obligations.PlaPullsA := by
  unfold Obligations.PlaPullsA
  intro s
  have hbody : KeepsBut [.a, .sp] [.z, .n] s (loadA (pull s).1 (pull s).2) :=
    (keepsBut_pull (by decide) s).trans (keepsBut_loadA (by decide) (List.Subset.refl _) _ _)
  exact ⟨rfl, rfl, _, exec_pla s, pull_value s, pull_sp s, (loadA_showsZN _ _).finish _ _,
    hbody.registerStep rfl _ _⟩

/-- RestoreStatus under Clear (R203). -/
theorem restoreStatus_p_clear (v : Byte) {s : State} (h : s.cfg.pullBPolicy = .clear) :
    (restoreStatus v s).p = (v &&& 0xEF) ||| 0x20 := by
  simp only [restoreStatus, h]

/-- RestoreStatus under Keep (R203). -/
theorem restoreStatus_p_keep (v : Byte) {s : State} (h : s.cfg.pullBPolicy = .keep) :
    (restoreStatus v s).p = (v &&& 0xCF) ||| (s.p &&& 0x10) ||| 0x20 := by
  simp only [restoreStatus, h]

theorem exec_plp (s : State) :
    exec .plp s = .next (finish .plp false (restoreStatus (pull s).1 (pull s).2)) := rfl

/-- Settles O35: RestoreStatus of the pulled byte, under either policy. -/
theorem plpRestoresStatus : Obligations.PlpRestoresStatus := by
  unfold Obligations.PlpRestoresStatus
  intro s
  have hbody : KeepsBut [.sp] [.c, .z, .i, .d, .b, .u, .v, .n] s (restoreStatus (pull s).1 (pull s).2) :=
    (keepsBut_pull (by decide) s).trans (keepsBut_restoreStatus (by rintro ⟨⟩ <;> decide) _ _)
  exact ⟨rfl, rfl, _, exec_plp s, restoreStatus_p_clear _ (s := (pull s).2), restoreStatus_p_keep _ (s := (pull s).2),
    restoreStatus_sp _ _, hbody.registerStep (restoreStatus_mem _ _) _ _⟩

/-! BRK and RTI (R205, R209). -/

/-- The machine BRK leaves (R205). -/
def afterBrk (s : State) : State :=
  finishAt .brk (vectoredEntry (s.pc + brkOffset s.cfg) (pushedStatus s.p) true brkVector s)

theorem exec_brk (s : State) : exec .brk s = .next (afterBrk s) := rfl

theorem afterBrk_pc (s : State) : (afterBrk s).pc = w16 (s.read 0xFFFF) (s.read 0xFFFE) :=
  vectoredEntry_pc _ _ _ brkVector s (by decide) (by decide)

theorem afterBrk_sp (s : State) : (afterBrk s).sp = s.sp - 3 := by
  obtain ⟨-, -, -, hsp, -⟩ := vectoredEntry_fields (s.pc + brkOffset s.cfg) (pushedStatus s.p) true brkVector s
  exact hsp

theorem afterBrk_cyc (s : State) : (afterBrk s).cyc = s.cyc + 7 := by
  obtain ⟨-, -, -, -, hcyc, -⟩ := vectoredEntry_fields (s.pc + brkOffset s.cfg) (pushedStatus s.p) true brkVector s
  exact congrArg (· + 7) hcyc

/-- BRK sets I and B (R205). -/
theorem afterBrk_setsIB (s : State) : (afterBrk s).flag .i = true ∧ (afterBrk s).flag .b = true := by
  obtain ⟨-, -, -, -, -, -, -, -, hflag⟩ :=
    vectoredEntry_fields (s.pc + brkOffset s.cfg) (pushedStatus s.p) true brkVector s
  exact ⟨hflag .i, hflag .b⟩

/-- The three bytes BRK pushes, the return address in the order of the parameter (R201, R202, R205). -/
theorem afterBrk_pushed (s : State) :
    (afterBrk s).read (stackAddr s.sp) = pushedFirst (s.pc + brkOffset s.cfg) s ∧
    (afterBrk s).read (stackAddr (s.sp - 1)) = pushedSecond (s.pc + brkOffset s.cfg) s ∧
    (afterBrk s).read (stackAddr (s.sp - 2)) = pushedStatus s.p := by
  simp only [afterBrk, finishAt_read]
  exact ⟨vectoredEntry_first _ _ _ _ s, vectoredEntry_second _ _ _ _ s, vectoredEntry_third _ _ _ _ s⟩

/-- BRK stores its three bytes and nothing else (R205). -/
theorem afterBrk_keepsMemoryBut (s : State) :
    KeepsMemoryBut [stackAddr s.sp, stackAddr (s.sp - 1), stackAddr (s.sp - 2)] s (afterBrk s) := by
  intro b hb
  rw [afterBrk, finishAt_read]
  exact vectoredEntry_keepsMemoryBut _ _ _ _ s b hb

/-- Settles O36: the laws of the vectored entry, with BRK's return address and status byte. -/
theorem brkEntersThroughTheVector : Obligations.BrkEntersThroughTheVector := by
  unfold Obligations.BrkEntersThroughTheVector
  intro s ret hret
  obtain rfl : ret = s.pc + brkOffset s.cfg := hret
  obtain ⟨hregs, hflags, hmachine, -, -⟩ := exec_instrFrame (exec_brk s)
  obtain ⟨hfirst, hsecond, hstatus⟩ := afterBrk_pushed s
  obtain ⟨hi, hb⟩ := afterBrk_setsIB s
  obtain ⟨hhigh, hlow⟩ := pushed_orders (s.pc + brkOffset s.cfg) s
  refine ⟨rfl, _, exec_brk s, afterBrk_pc s, afterBrk_sp s, afterBrk_cyc s, ?_, ?_, hstatus, hi, hb, hregs,
    hflags, hmachine, afterBrk_keepsMemoryBut s⟩
  all_goals rw [hfirst, hsecond]
  exacts [hhigh, hlow]

/-- The machine RTI leaves (R209). -/
def afterRti (s : State) : State := finishAt .rti (vectoredReturn s)

theorem exec_rti (s : State) : exec .rti s = .next (afterRti s) := rfl

theorem afterRti_sp (s : State) : (afterRti s).sp = s.sp + 3 := by
  obtain ⟨-, -, -, hsp, -⟩ := vectoredReturn_registers s
  exact hsp

theorem afterRti_cyc (s : State) : (afterRti s).cyc = s.cyc + 6 := by
  obtain ⟨-, -, -, -, hcyc, -⟩ := vectoredReturn_registers s
  exact congrArg (· + 6) hcyc

/-- RTI shares the restore contract of PLP (R203, R209). -/
theorem afterRti_p (s : State) : (afterRti s).p = (restoreStatus (s.read (stackAddr (s.sp + 1))) s).p := by
  obtain ⟨-, -, -, -, -, -, -, hp⟩ := vectoredReturn_registers s
  exact hp

theorem afterRti_mem (s : State) : (afterRti s).mem = s.mem := by
  obtain ⟨-, -, -, -, -, hmem, -⟩ := vectoredReturn_fields s
  exact hmem

/-- The word RTI pulls after the status byte, with no +1 (R201, R209). -/
theorem afterRti_pc (s : State) : (afterRti s).pc =
    match s.cfg.stackWordOrder with
    | .highFirst => w16 (s.read (stackAddr (s.sp + 3))) (s.read (stackAddr (s.sp + 2)))
    | .lowFirst => w16 (s.read (stackAddr (s.sp + 2))) (s.read (stackAddr (s.sp + 3))) := by
  obtain ⟨-, -, -, -, -, -, -, -, -, hpc⟩ := vectoredReturn_fields s
  exact hpc

/-- Settles O37: the laws of the return from an entry, under either policy and in either order. -/
theorem rtiRestoresStatusAndPC : Obligations.RtiRestoresStatusAndPC := by
  unfold Obligations.RtiRestoresStatusAndPC
  intro s
  obtain ⟨hregs, -, hmachine, -, -⟩ := exec_instrFrame (exec_rti s)
  refine ⟨rfl, _, exec_rti s, afterRti_sp s, afterRti_cyc s, ?_, ?_, ?_, ?_, hregs,
    keepsMemory_of_mem_eq (afterRti_mem s), hmachine⟩
  · exact fun hclear => (afterRti_p s).trans (restoreStatus_p_clear _ hclear)
  · exact fun hkeep => (afterRti_p s).trans (restoreStatus_p_keep _ hkeep)
  all_goals
    intro horder
    rw [afterRti_pc, horder]

/-- RTI after BRK pulls the status byte BRK pushed, so its flags are that byte's but U and B (R202, R203, R209). -/
theorem afterRti_afterBrk_flag (s : State) (g : Flag) : (afterRti (afterBrk s)).flag g =
    (restoreStatus (pushedStatus s.p) (afterBrk s)).flag g := by
  obtain ⟨-, -, hstatus⟩ := afterBrk_pushed s
  have htop : s.sp - 3 + 1 = s.sp - 2 := by bv_omega
  apply flag_congr
  rw [afterRti_p, afterBrk_sp, htop, hstatus]

/-- RTI after BRK is back at the address BRK pushed (R205, R209). -/
theorem afterRti_afterBrk_pc (s : State) : (afterRti (afterBrk s)).pc = s.pc + brkOffset s.cfg := by
  obtain ⟨hfirst, hsecond, -⟩ := afterBrk_pushed s
  obtain ⟨hcfg, -⟩ := (exec_instrFrame (exec_brk s)).machine
  have htop : (afterBrk s).sp + 1 = s.sp - 2 := by rw [afterBrk_sp]; bv_omega
  refine pull16_pushed (s.pc + brkOffset s.cfg) s
    (restoreStatus (pull (afterBrk s)).1 (pull (afterBrk s)).2) ?_ ?_ ?_ ?_
  · rw [restoreStatus_cfg, pull_cfg, hcfg]
  · rw [restoreStatus_sp, pull_sp, htop]
  · rw [restoreStatus_read, pull_read, hfirst]
  · rw [restoreStatus_read, pull_read, hsecond]

/-- Settles O38: the pushed word and the pushed status come back, and the two frames keep the other registers. -/
theorem rtiUndoesBrk : Obligations.RtiUndoesBrk := by
  unfold Obligations.RtiUndoesBrk
  intro s
  have hbrk := exec_instrFrame (exec_brk s)
  have hrti := exec_instrFrame (exec_rti (afterBrk s))
  obtain ⟨hcfg, -⟩ := hbrk.machine
  obtain ⟨-, hb⟩ := afterBrk_setsIB s
  refine ⟨_, _, exec_brk s, exec_rti _, afterRti_afterBrk_pc s, fun r _ => ?_, fun g hg => ?_, ?_, fun hclear => ?_,
    fun hkeep => ?_⟩
  · cases r with
    | a | x | y => exact (hrti.regs _ (by decide)).trans (hbrk.regs _ (by decide))
    | sp =>
      rw [reg_sp, reg_sp, afterRti_sp, afterBrk_sp]
      exact BitVec.sub_add_cancel s.sp 3
  · rw [afterRti_afterBrk_flag, restoreStatus_flag]
    cases g with
    | b | u => simp at hg
    | c | z | i | d | v | n => exact pushedStatus_flag s.p _
  · rw [afterRti_afterBrk_flag, restoreStatus_flag]
  · rw [afterRti_afterBrk_flag, restoreStatus_flag, hcfg, hclear]
  · rw [afterRti_afterBrk_flag, restoreStatus_flag, hcfg, hkeep]
    exact hb

end Sys2Proof.Machine

namespace Sys2Proof.Machine

/-! Loads, stores, transfers, counts, flag instructions and NOPs (R220 to R245, R261, R262, R270, R271): one end for
each kind of body, then each instruction as one of them. -/

/-! A load shows Z and N of its byte and writes its one register: the end of LDA, LDX and LDY, of the transfers but TXS,
and of the counts of X and Y. -/

theorem loadA_step (i : Instr) (c : Bool) (v : Byte) (s : State) :
    ShowsZN v (finish i c (loadA v s)) ∧ RegisterStep i c [.a] [.z, .n] s (finish i c (loadA v s)) :=
  ⟨(loadA_showsZN v s).finish i c, registerStep_loadA i c v s⟩

theorem loadX_step (i : Instr) (c : Bool) (v : Byte) (s : State) :
    ShowsZN v (finish i c (loadX v s)) ∧ RegisterStep i c [.x] [.z, .n] s (finish i c (loadX v s)) :=
  ⟨(setZN_showsZN v _).finish i c,
    (keepsBut_loadX (by decide) (List.Subset.refl _) v s).registerStep rfl i c⟩

theorem loadY_step (i : Instr) (c : Bool) (v : Byte) (s : State) :
    ShowsZN v (finish i c (loadY v s)) ∧ RegisterStep i c [.y] [.z, .n] s (finish i c (loadY v s)) :=
  ⟨(setZN_showsZN v _).finish i c,
    (keepsBut_loadY (by decide) (List.Subset.refl _) v s).registerStep rfl i c⟩

/-- Settles O19: each is a load of the operand; LAX fills both its registers with one byte (R261). -/
theorem loadsFillTheirRegisters : Obligations.LoadsFillTheirRegisters := by
  unfold Obligations.LoadsFillTheirRegisters
  constructor
  · intro o s
    exact ⟨⟨_, exec_lda o s, rfl, loadA_step _ _ _ s⟩, ⟨_, exec_ldx o s, rfl, loadX_step _ _ _ s⟩,
      ⟨_, exec_ldy o s, rfl, loadY_step _ _ _ s⟩⟩
  · intro m s
    have hbody : KeepsBut [.a, .x] [.z, .n] s
        (setZN (s.read (ea m s)) ({ s with a := s.read (ea m s), x := s.read (ea m s) } : State)) :=
      ((keepsBut_setA (by decide) _ s).trans (keepsBut_setX (by decide) _ _)).trans
        (keepsBut_setZN (List.Subset.refl _) _ _)
    exact ⟨_, exec_lax m s, rfl, rfl, (setZN_showsZN _ _).finish _ _, hbody.registerStep rfl _ _⟩

/-- The end of an instruction that is Store alone (R118): the byte at EA, and no other, is the stored one. -/
theorem write_step (i : Instr) (c : Bool) (a : Addr) (v : Byte) (s : State) :
    (finish i c (s.write a v)).read a = v ∧ StoringStep i c [] [] [a] s (finish i c (s.write a v)) := by
  obtain ⟨hregs, hflags, hmachine, hpc, hcyc⟩ := keepsBut_write (rs := []) (fs := []) s a v
  have hread : (s.write a v).read a = v := by rw [write_read, if_pos rfl]
  exact ⟨hread, storingStep_finish i c _ _ _ s _ hpc hcyc hregs hflags (write_keepsMemoryBut s a v) hmachine⟩

/-- Settles O20: each is one write at EA. -/
theorem storesWriteOneByte : Obligations.StoresWriteOneByte := by
  unfold Obligations.StoresWriteOneByte
  intro m s
  exact ⟨⟨_, exec_sta m s, write_step _ _ _ _ s⟩, ⟨_, exec_stx m s, write_step _ _ _ _ s⟩,
    ⟨_, exec_sty m s, write_step _ _ _ _ s⟩, ⟨_, exec_sax m s, write_step _ _ _ _ s⟩⟩

/-! The transfers (R226 to R231). -/

theorem exec_tax (s : State) : exec .tax s = .next (finish .tax false (loadX s.a s)) := rfl
theorem exec_tay (s : State) : exec .tay s = .next (finish .tay false (loadY s.a s)) := rfl
theorem exec_txa (s : State) : exec .txa s = .next (finish .txa false (loadA s.x s)) := rfl
theorem exec_tya (s : State) : exec .tya s = .next (finish .tya false (loadA s.y s)) := rfl
theorem exec_tsx (s : State) : exec .tsx s = .next (finish .tsx false (loadX s.sp s)) := rfl
theorem exec_txs (s : State) : exec .txs s = .next (finish .txs false { s with sp := s.x }) := rfl

/-- Settles O21: five are loads of another register, and TXS writes SP alone. -/
theorem transfersCopyARegister : Obligations.TransfersCopyARegister := by
  unfold Obligations.TransfersCopyARegister
  intro s
  have htxs : KeepsBut [.sp] [] s { s with sp := s.x } := keepsBut_setSP (by decide) s.x s
  exact ⟨⟨rfl, rfl, _, exec_tax s, rfl, loadX_step _ _ _ s⟩, ⟨rfl, rfl, _, exec_tay s, rfl, loadY_step _ _ _ s⟩,
    ⟨rfl, rfl, _, exec_txa s, rfl, loadA_step _ _ _ s⟩, ⟨rfl, rfl, _, exec_tya s, rfl, loadA_step _ _ _ s⟩,
    ⟨rfl, rfl, _, exec_tsx s, rfl, loadX_step _ _ _ s⟩, ⟨rfl, rfl, _, exec_txs s, rfl, htxs.registerStep rfl _ _⟩⟩

/-! Counting modulo 256, in a register (R234 to R237) and in memory (R232, R233). -/

theorem exec_inx (s : State) : exec .inx s = .next (finish .inx false (loadX (s.x + 1) s)) := rfl
theorem exec_iny (s : State) : exec .iny s = .next (finish .iny false (loadY (s.y + 1) s)) := rfl
theorem exec_dex (s : State) : exec .dex s = .next (finish .dex false (loadX (s.x - 1) s)) := rfl
theorem exec_dey (s : State) : exec .dey s = .next (finish .dey false (loadY (s.y - 1) s)) := rfl

/-- Settles O22: each loads its register with the byte that INC or DEC would store. -/
theorem indexRegistersCountModulo256 : Obligations.IndexRegistersCountModulo256 := by
  unfold Obligations.IndexRegistersCountModulo256
  intro s
  exact ⟨⟨rfl, rfl, _, exec_inx s, incF_value s.x s, loadX_step _ _ _ s⟩,
    ⟨rfl, rfl, _, exec_iny s, incF_value s.y s, loadY_step _ _ _ s⟩,
    ⟨rfl, rfl, _, exec_dex s, decF_value s.x s, loadX_step _ _ _ s⟩,
    ⟨rfl, rfl, _, exec_dey s, decF_value s.y s, loadY_step _ _ _ s⟩⟩

theorem exec_inc (m : MemRef) (s : State) :
    exec (.inc m) s = .next (finish (.inc m) (crosses m s) (modify m incF s).2) := rfl

theorem exec_dec (m : MemRef) (s : State) :
    exec (.dec m) s = .next (finish (.dec m) (crosses m s) (modify m decF s).2) := rfl

/-- The end of an instruction that is Modify of a function whose only effect is set_ZN of its byte (R118): that byte
stands at EA and in Z and N. -/
theorem modify_setZN_step (i : Instr) (c : Bool) (m : MemRef) {f : Byte → State → Byte × State}
    (hf : ∀ v s, (f v s).2 = setZN (f v s).1 s) {n : Nat} (s : State)
    (hvalue : (f (s.read (ea m s)) s).1.toNat = n) :
    ((finish i c (modify m f s).2).read (ea m s)).toNat = n ∧
      ShowsZN ((finish i c (modify m f s).2).read (ea m s)) (finish i c (modify m f s).2) ∧
      StoringStep i c [] [.z, .n] [ea m s] s (finish i c (modify m f s).2) := by
  have hstatus : WritesStatusOnly f := fun v u => by rw [hf]; rfl
  have hread : (modify m f s).2.read (ea m s) = (f (s.read (ea m s)) s).1 := modify_read_ea m f hstatus s
  have hshows : ShowsZN (f (s.read (ea m s)) s).1 (modify m f s).2 := by
    rw [modify_default, hf]
    exact setZN_showsZN _ s
  have hkeeps : KeepsFlagsBut [.z, .n] s (f (s.read (ea m s)) s).2 := by
    rw [hf]
    exact (keepsBut_setZN (rs := []) (List.Subset.refl _) _ s).flags
  rw [finish_read, hread]
  exact ⟨hvalue, hshows.finish i c, storingStep_modify i m f hstatus c _ s hkeeps⟩

/-- Settles O23: each is Modify of its count. -/
theorem incAndDecCountMemoryModulo256 : Obligations.IncAndDecCountMemoryModulo256 := by
  unfold Obligations.IncAndDecCountMemoryModulo256
  intro m s
  exact ⟨⟨_, exec_inc m s, modify_setZN_step _ _ m (fun _ _ => rfl) s (incF_value _ s)⟩,
    ⟨_, exec_dec m s, modify_setZN_step _ _ m (fun _ _ => rfl) s (decF_value _ s)⟩⟩

/-! The flag instructions (R238 to R244): each is one setFlag. -/

/-- The seven flag instructions, each with its opcode byte, its flag and the value it writes. -/
def flagRows : List (Instr × Byte × Flag × Bool) :=
  [(.clc, 0x18, .c, false), (.sec, 0x38, .c, true), (.cli, 0x58, .i, false), (.sei, 0x78, .i, true),
   (.cld, 0xD8, .d, false), (.sed, 0xF8, .d, true), (.clv, 0xB8, .v, false)]

theorem exec_of_mem_flagRows {i : Instr} {op : Byte} {f : Flag} {v : Bool} (h : (i, op, f, v) ∈ flagRows)
    (s : State) :
    encode i = some [op] ∧ cycles i false = 2 ∧ exec i s = .next (finish i false (s.setFlag f v)) := by
  simp only [flagRows, List.mem_cons, Prod.mk.injEq, List.not_mem_nil, or_false] at h
  obtain ⟨rfl, rfl, rfl, rfl⟩ | ⟨rfl, rfl, rfl, rfl⟩ | ⟨rfl, rfl, rfl, rfl⟩ | ⟨rfl, rfl, rfl, rfl⟩ |
    ⟨rfl, rfl, rfl, rfl⟩ | ⟨rfl, rfl, rfl, rfl⟩ | ⟨rfl, rfl, rfl, rfl⟩ := h
  all_goals exact ⟨rfl, rfl, rfl⟩

/-- Settles O24: what one setFlag writes and keeps, whichever row of the seven it is. -/
theorem flagInstructionsWriteOneFlag : Obligations.FlagInstructionsWriteOneFlag := by
  unfold Obligations.FlagInstructionsWriteOneFlag
  intro s i op f v hrow
  obtain ⟨hencode, hcycles, hexec⟩ := exec_of_mem_flagRows hrow s
  have hflag : (s.setFlag f v).flag f = v := by rw [setFlag_flag, if_pos rfl]
  have hbody : KeepsBut [] [f] s (s.setFlag f v) := keepsBut_setFlag (List.mem_singleton_self f) v s
  exact ⟨hencode, hcycles, _, hexec, hflag, hbody.registerStep rfl i false⟩

/-! The NOPs (R245, R270, R271). -/

theorem exec_nop (s : State) : exec .nop s = .next (finish .nop false s) := rfl

theorem exec_nopImp (op : Byte) (s : State) : exec (.nopImp op) s = .next (finish (.nopImp op) false s) := rfl

theorem exec_nopImm (i : Byte) (s : State) : exec (.nopImm i) s = .next (finish (.nopImm i) false s) := rfl

/-- The end of an instruction without a body. -/
theorem registerStep_self (i : Instr) (c : Bool) (s : State) : RegisterStep i c [] [] s (finish i c s) :=
  (KeepsBut.refl s).registerStep rfl i c

section anyBus

variable {σ : Type} {bus : Bus σ}

theorem execOver_nopMem (op : Byte) (m : MemRef) (s : State σ bus) : execOver (.nopMem op m) s =
    .next (finish (.nopMem op m) (crosses m s) (afterDiscardedOperand m s)) := rfl

/-- No mode of a memory-operand NOP reads a pointer (R271). -/
theorem afterPointer_of_wf_nopMem {op : Byte} {m : MemRef} (h : (Instr.nopMem op m).wf = true) (s : State σ bus) :
    afterPointer m s = s := by
  cases m with
  | izx | izy => exact absurd h Bool.false_ne_true
  | zp | zpx | zpy | abs | absx | absy => rfl

/-- The bus after a NOP's memory operand (R271, D15): a read of its EA, or nothing. -/
theorem afterDiscardedOperand_mem {m : MemRef} {s : State σ bus} (h : afterPointer m s = s) :
    (afterDiscardedOperand m s).mem = if s.cfg.nopOperandRead = true then (bus.read s.mem (ea m s)).2 else s.mem := by
  unfold afterDiscardedOperand
  split
  · rw [afterMem, h, afterRead_mem]
  · rw [h]

end anyBus

/-- Settles O25: none has a body but the memory-operand NOPs, whose reads move the bus alone. -/
theorem nopsOnlyAdvance : Obligations.NopsOnlyAdvance := by
  unfold Obligations.NopsOnlyAdvance
  refine ⟨fun s => ⟨rfl, rfl, _, exec_nop s, registerStep_self _ _ s⟩,
    fun s op => ⟨_, exec_nopImp op s, registerStep_self _ _ s⟩,
    fun s i => ⟨_, exec_nopImm i s, registerStep_self _ _ s⟩,
    fun s op m => ⟨_, exec_nopMem op m s, registerStep_self _ _ s⟩, fun σ bus s op m hwf => ?_⟩
  have hmoves : OnlyBusMoves s (afterDiscardedOperand m s) := onlyBusMoves_afterDiscardedOperand m s
  obtain ⟨hregs, hflags, hmachine, hpc, -⟩ := execOver_instrFrame _ s _ (execOver_nopMem op m s)
  refine ⟨_, execOver_nopMem op m s, ⟨hpc rfl, ?_⟩, hregs, hflags, hmachine, ?_⟩
  · rw [finish_cyc, hmoves.cyc]
  · rw [finish_mem, afterDiscardedOperand_mem (afterPointer_of_wf_nopMem hwf s)]

end Sys2Proof.Machine

namespace Sys2Proof.Machine

/-! The undocumented combinations (R260, R264 to R269): Modify of a documented function, then a documented operation of
A on the byte it has stored. What such a pair does is proved once, for any function and any operation. -/

section combinations

/-- Modify, then an operation on the byte it has stored (R260). -/
def modifyThen (m : MemRef) (f : Byte → State → Byte × State) (g : Byte → State → State) (s : State) : State :=
  g (modify m f s).1 (modify m f s).2

/-- CMP's operation on a byte (R144). -/
def compareA (v : Byte) (s : State) : State := compare s.a v s

/-- SBC's operation on a byte (R142). -/
def subtractA (v : Byte) (s : State) : State := addWithCarry (v ^^^ 0xFF) s

/-- ORA's, AND's and EOR's operation on a byte (R165 to R167), by the combination of the two bytes. -/
def combineA (op : Byte → Byte → Byte) (v : Byte) (s : State) : State := loadA (op s.a v) s

/-- An operation on a byte, as the second half of a combination: it reaches no bus, it writes of the processor at most
the listed registers and flags, and it does not see the end of the instruction before it (R104, R105). -/
structure ActsOnA (rs : List Reg) (fs : List Flag) (g : Byte → State → State) : Prop where
  keepsBut : ∀ v s, KeepsBut rs fs s (g v s)
  mem : ∀ v s, (g v s).mem = s.mem
  afterFinish : ∀ v i c s, g v (finish i c s) = finish i c (g v s)

theorem compareA_acts : ActsOnA [] [.c, .z, .n] compareA where
  keepsBut v s := keepsBut_compare (List.Subset.refl _) s.a v s
  mem _ _ := rfl
  afterFinish _ _ _ _ := rfl

theorem addWithCarry_acts : ActsOnA [.a] [.c, .z, .v, .n] addWithCarry where
  keepsBut := keepsBut_addWithCarry (by decide) (List.Subset.refl _)
  mem _ _ := rfl
  afterFinish _ _ _ _ := rfl

theorem subtractA_acts : ActsOnA [.a] [.c, .z, .v, .n] subtractA where
  keepsBut v := addWithCarry_acts.keepsBut (v ^^^ 0xFF)
  mem v := addWithCarry_acts.mem (v ^^^ 0xFF)
  afterFinish v := addWithCarry_acts.afterFinish (v ^^^ 0xFF)

theorem combineA_acts (op : Byte → Byte → Byte) : ActsOnA [.a] [.c, .z, .n] (combineA op) where
  keepsBut v s := keepsBut_loadA (by decide) (by decide) (op s.a v) s
  mem _ _ := rfl
  afterFinish _ _ _ _ := rfl

/-! Each combination is such a pair (R264 to R269). -/

theorem exec_dcp (m : MemRef) (s : State) :
    exec (.dcp m) s = .next (finish (.dcp m) (crosses m s) (modifyThen m decF compareA s)) := rfl

theorem exec_isb (m : MemRef) (s : State) :
    exec (.isb m) s = .next (finish (.isb m) (crosses m s) (modifyThen m incF subtractA s)) := rfl

theorem exec_slo (m : MemRef) (s : State) :
    exec (.slo m) s = .next (finish (.slo m) (crosses m s) (modifyThen m aslF (combineA (· ||| ·)) s)) := rfl

theorem exec_rla (m : MemRef) (s : State) :
    exec (.rla m) s = .next (finish (.rla m) (crosses m s) (modifyThen m rolF (combineA (· &&& ·)) s)) := rfl

theorem exec_sre (m : MemRef) (s : State) :
    exec (.sre m) s = .next (finish (.sre m) (crosses m s) (modifyThen m lsrF (combineA (· ^^^ ·)) s)) := rfl

theorem exec_rra (m : MemRef) (s : State) :
    exec (.rra m) s = .next (finish (.rra m) (crosses m s) (modifyThen m rorF addWithCarry s)) := rfl

variable {m : MemRef} {f : Byte → State → Byte × State} {g : Byte → State → State} {rs : List Reg} {fs : List Flag}
  {s : State}

theorem modify_a (hf : WritesStatusOnly f) : (modify m f s).2.a = s.a := by
  rw [modify_state m f hf]
  rfl

/-- The byte at EA after a combination is the one its Modify stored. -/
theorem ActsOnA.read_ea (hg : ActsOnA rs fs g) (hf : WritesStatusOnly f) (i : Instr) (c : Bool) :
    (finish i c (modifyThen m f g s)).read (ea m s) = (modify m f s).1 := by
  rw [finish_read, modify_value]
  exact (read_congr _ _ (hg.mem _ _) _).trans (modify_read_ea m f hf s)

/-- The frame of a combination: what its two halves may write, and the byte at EA. -/
theorem ActsOnA.storingStep (hg : ActsOnA rs fs g) (hf : WritesStatusOnly f)
    (hkeeps : ∀ v u, KeepsBut rs fs u (f v u).2) (i : Instr) (c : Bool) :
    StoringStep i c rs fs [ea m s] s (finish i c (modifyThen m f g s)) := by
  obtain ⟨hregs, hflags, hmachine, hpc, hcyc⟩ := (keepsBut_modify hkeeps m s).trans (hg.keepsBut _ _)
  have hmem : KeepsMemoryBut [ea m s] s (modifyThen m f g s) := fun a ha =>
    (read_congr _ _ (hg.mem _ _) a).trans (modify_keepsMemoryBut m f hf s a ha)
  exact storingStep_finish i c rs fs _ s _ hpc hcyc hregs hflags hmem hmachine

/-- A shift of memory and its byte combined into A (R266 to R268): C is the shift's, Z and N are A's. -/
theorem Shifts.combineStep {out : Byte → Bool} (h : Shifts f out) (op : Byte → Byte → Byte) {i : Instr} {c : Bool}
    {n : Nat} (hexec : exec i s = .next (finish i c (modifyThen m f (combineA op) s)))
    (hvalue : (f (s.read (ea m s)) s).1.toNat = n) :
    ∃ t, exec i s = .next t ∧ (t.read (ea m s)).toNat = n ∧ t.a = op s.a (t.read (ea m s)) ∧
      t.flag .c = out (s.read (ea m s)) ∧ ShowsZN t.a t ∧ StoringStep i c [.a] [.c, .z, .n] [ea m s] s t := by
  have ha : (modifyThen m f (combineA op) s).a = op s.a (modify m f s).1 :=
    congrArg (op · _) (modify_a h.status)
  have hcarry : (modifyThen m f (combineA op) s).flag .c = out (s.read (ea m s)) := by
    rw [modifyThen, combineA, loadA_flag, if_neg (by decide), if_neg (by decide), modify_state_flag, h.carry]
  refine ⟨_, hexec, ?_, ?_, hcarry, (loadA_showsZN _ _).finish i c,
    (combineA_acts op).storingStep h.status h.keepsBut i c⟩
  · rw [(combineA_acts op).read_ea h.status, modify_value, hvalue]
  · rw [(combineA_acts op).read_ea h.status, finish_a, ha]

/-- A combination leaves the registers, P and the store as its two instructions run one after the other (R260). -/
theorem ActsOnA.isComposition (hg : ActsOnA rs fs g) {first second combined : Instr} {c c' c'' : Bool}
    (hfirst : exec first s = .next (finish first c (modify m f s).2))
    (hsecond : ∀ t, exec second t = .next (finish second c' (g (f (s.read (ea m s)) s).1 t)))
    (hcombined : exec combined s = .next (finish combined c'' (modifyThen m f g s))) :
    ∃ t u v, exec first s = .next t ∧ exec second t = .next u ∧ exec combined s = .next v ∧
      KeepsRegsBut [] u v ∧ v.p = u.p ∧ v.mem = u.mem := by
  refine ⟨_, _, _, hfirst, hsecond _, hcombined, ?_⟩
  rw [hg.afterFinish, ← modify_value]
  exact ⟨fun r _ => by cases r <;> rfl, rfl, rfl⟩

end combinations

/-- Settles O39: the byte counted by Modify, then the compare and the adder at the state it leaves. -/
theorem dcpAndIsbCountThenUseTheByte : Obligations.DcpAndIsbCountThenUseTheByte := by
  unfold Obligations.DcpAndIsbCountThenUseTheByte
  intro m s
  have hdec : (modify m decF s).2.a = s.a := modify_a decF_status
  have hinc : (modify m incF s).2.a = s.a := modify_a incF_status
  have hborrow : (modify m incF s).2.flag .c = s.flag .c := by
    rw [modify_state_flag, incF_flag, if_neg (by decide), if_neg (by decide)]
  constructor
  · refine ⟨_, exec_dcp m s, ?_⟩
    rw [compareA_acts.read_ea decF_status]
    refine ⟨?_, ?_, ?_, compareA_acts.storingStep decF_status ?_ _ _⟩
    · rw [modify_value, decF_value]
    · rw [finish_flag, ← hdec]
      exact compare_flag _ _ _ .c
    · rw [← hdec]
      exact (compare_showsZN _ _ _).finish _ _
    · exact fun v u => keepsBut_setZN (by decide) _ u
  · obtain ⟨ha, hc, hv⟩ := addWithCarry_complement (modify m incF s).1 (modify m incF s).2
    rw [hinc, hborrow] at ha hc
    rw [hinc] at hv
    refine ⟨_, exec_isb m s, ?_⟩
    rw [subtractA_acts.read_ea incF_status]
    refine ⟨?_, ha, hc, hv, (addWithCarry_showsZN _ _).finish _ _, subtractA_acts.storingStep incF_status ?_ _ _⟩
    · rw [modify_value, incF_value]
    · exact fun v u => keepsBut_setZN (by decide) _ u

/-- The bit that a shift to the right puts into C (R160), as a number. -/
theorem getLsbD_zero_toNat (v : Byte) : (v.getLsbD 0).toNat = v.toNat % 2 := by
  rw [BitVec.getLsbD, Nat.toNat_testBit, pow_zero, Nat.div_one]

/-- Settles O40: three are shifts combined into A; RRA's adder takes the carry its own rotate left. -/
theorem shiftCombinationsUseTheShiftedByte : Obligations.ShiftCombinationsUseTheShiftedByte := by
  unfold Obligations.ShiftCombinationsUseTheShiftedByte
  intro m s
  refine ⟨aslF_shifts.combineStep (· ||| ·) (exec_slo m s) (aslF_value _ s),
    rolF_shifts.combineStep (· &&& ·) (exec_rla m s) (rolF_value _ s),
    lsrF_shifts.combineStep (· ^^^ ·) (exec_sre m s) (lsrF_value _ s), _, exec_rra m s, ?_⟩
  have ha : (modify m rorF s).2.a = s.a := modify_a rorF_status
  have hcarry : (modify m rorF s).2.carry = (s.read (ea m s)).toNat % 2 := by
    rw [State.carry, modify_state_flag, rorF_shifts.carry, getLsbD_zero_toNat]
  rw [addWithCarry_acts.read_ea rorF_status]
  refine ⟨?_, ?_, ?_, ?_, (addWithCarry_showsZN _ _).finish _ _, addWithCarry_acts.storingStep rorF_status ?_ _ _⟩
  · rw [modify_value, rorF_value]
  · rw [finish_a, modifyThen, addWithCarry_a, ha, hcarry]
    exact BitVec.toNat_ofNat _ 8
  · rw [finish_flag, ← ha, ← hcarry]
    exact addWithCarry_flag _ _ .c
  · rw [finish_flag, ← ha]
    exact addWithCarry_flag _ _ .v
  · exact fun v u => keepsBut_shifted (by decide) _ _ u

/-- LAX leaves the registers, P and the store as LDA then TAX (R261): TAX shows again the Z and N that LDA showed. -/
theorem lax_isComposition (m : MemRef) (s : State) :
    ∃ t u v, exec (.lda (.mem m)) s = .next t ∧ exec .tax t = .next u ∧ exec (.lax m) s = .next v ∧
      KeepsRegsBut [] u v ∧ v.p = u.p ∧ v.mem = u.mem := by
  refine ⟨_, _, _, exec_lda _ s, exec_tax _, exec_lax m s, fun r _ => ?_, status_ext _ _ fun k => ?_, rfl⟩
  · rw [operandValue_mem]
    cases r <;> rfl
  · rw [operandValue_mem]
    show State.flag _ k = State.flag _ k
    rw [finish_flag, setZN_flag, finish_flag, loadX_flag, finish_flag, loadA_flag, finish_a, loadA_a]
    cases k <;> rfl

/-- Settles O41: LAX apart, each combination runs its first primitive's Modify and its second's operation. -/
theorem undocumentedOpcodesAreCompositions : Obligations.UndocumentedOpcodesAreCompositions := by
  unfold Obligations.UndocumentedOpcodesAreCompositions
  intro m s first second combined hrow
  simp only [List.mem_cons, Prod.mk.injEq, List.not_mem_nil, or_false] at hrow
  obtain ⟨rfl, rfl, rfl⟩ | ⟨rfl, rfl, rfl⟩ | ⟨rfl, rfl, rfl⟩ | ⟨rfl, rfl, rfl⟩ | ⟨rfl, rfl, rfl⟩ |
    ⟨rfl, rfl, rfl⟩ | ⟨rfl, rfl, rfl⟩ := hrow
  · exact lax_isComposition m s
  · exact compareA_acts.isComposition (exec_dec m s) (exec_cmp _) (exec_dcp m s)
  · exact subtractA_acts.isComposition (exec_inc m s) (exec_sbc _) (exec_isb m s)
  · exact (combineA_acts _).isComposition (exec_asl _ s) (exec_ora _) (exec_slo m s)
  · exact (combineA_acts _).isComposition (exec_rol _ s) (exec_and _) (exec_rla m s)
  · exact (combineA_acts _).isComposition (exec_lsr _ s) (exec_eor _) (exec_sre m s)
  · exact addWithCarry_acts.isComposition (exec_ror _ s) (exec_adc _) (exec_rra m s)

end Sys2Proof.Machine

namespace Sys2Proof.Machine

/-! What a call of step() can end with (R300 to R302, R332), and the machine after reset() (R330). -/

section calls

variable {σ : Type} {bus : Bus σ} {s : State σ bus}

/-! An admitted opcode: the fetched instruction has a table entry, so it is not INVALID. -/

/-- INVALID stands for an opcode byte with no entry (R86). -/
theorem entryOf_invalid (op : Byte) : entryOf (.invalid op) = none := by
  by_cases h : op ∈ absentOpcodes
  · simp [entryOf, opcodeOf, h, (dispatchTable_eq_none_iff op).mpr h]
  · simp [entryOf, opcodeOf, h]

theorem fetchInstr_ne_invalid (hadmitted : admitted s.cfg.unofficialSet (s.read s.pc) = true) (op : Byte) :
    fetchInstr s ≠ .invalid op := by
  intro hinvalid
  obtain ⟨e, he, -⟩ := (admitted_iff _ _).mp hadmitted
  have hentry := entryOf_decodeBytes (s.read s.pc) ((s.afterRead s.pc).read (s.pc + 1))
    (((s.afterRead s.pc).afterRead (s.pc + 1)).read (s.pc + 2))
  rw [← fetchInstr_of_admitted hadmitted, hinvalid, entryOf_invalid, he] at hentry
  nomatch hentry

/-- Every instruction but INVALID completes, so a started machine's step on an admitted opcode does. -/
theorem stepOver_completes (hstarted : s.started = true)
    (hadmitted : admitted s.cfg.unofficialSet (s.read s.pc) = true) : ∃ t, stepOver s = .next t := by
  rw [stepOver_of_fetchInstr hstarted rfl]
  exact (execOver_completes_or_invalid _ _).resolve_right
    fun ⟨op, hinvalid⟩ => fetchInstr_ne_invalid hadmitted op hinvalid

/-! An opcode that is not admitted: the fetch reads it alone, and INVALID faults (R300). -/

theorem fetchInstr_of_not_admitted (habsent : admitted s.cfg.unofficialSet (s.read s.pc) = false) :
    fetchInstr s = .invalid (s.read s.pc) := if_neg (Bool.eq_false_iff.mp habsent)

theorem stepOver_of_not_admitted (hstarted : s.started = true)
    (habsent : admitted s.cfg.unofficialSet (s.read s.pc) = false) :
    stepOver s = .fault (.invalidOpcode (s.read s.pc) s.pc) :=
  stepOver_of_fetchInstr hstarted (fetchInstr_of_not_admitted habsent)

/-- The call's outcome, the bus as the one read leaves it, and that read. -/
theorem call_of_not_admitted (hstarted : s.started = true)
    (habsent : admitted s.cfg.unofficialSet (s.read s.pc) = false) :
    stepOver s = .fault (.invalidOpcode (s.read s.pc) s.pc) ∧
      hostStep s = (s.afterRead s.pc, .fault (.invalidOpcode (s.read s.pc) s.pc)) ∧
      stepAccesses s = [.read s.pc] := by
  have hstep := stepOver_of_not_admitted hstarted habsent
  have hfetch := fetchInstr_of_not_admitted habsent
  refine ⟨hstep, ?_, ?_⟩
  · rw [hostStep, hstep, afterFetch, hfetch]
    rfl
  · rw [stepAccesses, if_pos hstarted, hfetch]
    simp [fetchAccesses, bodyAccesses, Instr.length, Instr.mode, Mode.length]

/-- No UNOFFICIAL_SET admits an opcode byte with no entry (R86). -/
theorem not_admitted_of_mem_absentOpcodes {op : Byte} (set : List Byte) (h : op ∈ absentOpcodes) :
    admitted set op = false := by
  rw [admitted, (dispatchTable_eq_none_iff op).mpr h]

/-- Before the first reset the call is refused, and no accessor has a value (R332). -/
theorem call_before_reset (hbefore : s.started = false) :
    stepOver s = .refused .notReset ∧ hostStep s = (s, .refused .notReset) ∧ stepAccesses s = [] ∧
      observe s = none := by
  have hstep : stepOver s = .refused .notReset := by simp [stepOver, hbefore]
  exact ⟨hstep, by rw [hostStep, hstep], by simp [stepAccesses, hbefore], by simp [observe, hbefore]⟩

/-! A run, by the report of its first call (R318). -/

theorem runSteps_succ_of_ok {t : State σ bus} (n : Nat) (h : hostStep s = (t, .ok)) :
    runSteps (n + 1) s = runSteps n t := by
  rw [runSteps, h]

theorem runSteps_succ_of_stopped {t : State σ bus} {r : StepReport} (n : Nat) (h : hostStep s = (t, r))
    (hr : r ≠ .ok) : runSteps (n + 1) s = (t, r) := by
  rw [runSteps, h]
  cases r with
  | ok => exact absurd rfl hr
  | fault f | refused q => rfl

end calls

/-- On the default mapper a call that does not succeed changes nothing (R300, R332). -/
theorem hostStep_stopped {s t : State} {r : StepReport} (h : hostStep s = (t, r)) (hr : r ≠ .ok) : t = s := by
  rw [hostStep_default] at h
  cases hstep : step s with
  | next u =>
    rw [hstep] at h
    exact absurd (congrArg Prod.snd h).symm hr
  | fault f | refused q =>
    rw [hstep] at h
    exact (congrArg Prod.fst h).symm

/-- Settles O44: an admitted opcode is not INVALID, which alone does not complete. -/
theorem stepSucceedsExactlyOnAdmittedOpcodes : Obligations.StepSucceedsExactlyOnAdmittedOpcodes := by
  unfold Obligations.StepSucceedsExactlyOnAdmittedOpcodes
  exact ⟨fun s hstarted => stepOver_default s ▸ ⟨stepOver_completes hstarted, stepOver_of_not_admitted hstarted⟩,
    fun σ bus s hstarted => ⟨stepOver_completes hstarted, stepOver_of_not_admitted hstarted⟩⟩

/-- Settles O52, by induction on the number of steps: the call that stops the run leaves its state as it was, so the
next call is the same one. -/
theorem aStoppedRunStaysStopped : Obligations.AStoppedRunStaysStopped := by
  unfold Obligations.AStoppedRunStaysStopped
  intro n k s t r hrun hr
  induction n generalizing s with
  | zero => exact absurd (congrArg Prod.snd hrun).symm hr
  | succ n ih =>
    rw [Nat.succ_add]
    cases hcall : hostStep s with
    | mk u report =>
      by_cases hok : report = .ok
      · subst hok
        rw [runSteps_succ_of_ok n hcall] at hrun
        rw [runSteps_succ_of_ok (n + k) hcall]
        exact ih u hrun
      · rw [runSteps_succ_of_stopped n hcall hok] at hrun
        obtain ⟨rfl, rfl⟩ := Prod.mk.inj hrun
        obtain rfl := hostStep_stopped hcall hok
        exact ⟨runSteps_succ_of_stopped (n + k) hcall hok, hcall⟩

/-- Settles O43: no set admits an absent byte, and on the default mapper the one read changes nothing. -/
theorem absentOpcodeFaults : Obligations.AbsentOpcodeFaults := by
  unfold Obligations.AbsentOpcodeFaults
  refine ⟨fun op s => rfl, fun s hstarted hop => ?_, fun σ bus s hstarted hop => ?_⟩
  · rw [← stepOver_default]
    exact call_of_not_admitted hstarted (not_admitted_of_mem_absentOpcodes _ hop)
  · exact call_of_not_admitted hstarted (not_admitted_of_mem_absentOpcodes _ hop)

/-- Settles O45: the default mapper's step is the general one. -/
theorem stepBeforeResetIsRefused : Obligations.StepBeforeResetIsRefused := by
  unfold Obligations.StepBeforeResetIsRefused
  exact ⟨fun s hbefore => stepOver_default s ▸ call_before_reset hbefore,
    fun σ bus s hbefore => call_before_reset hbefore⟩

/-- Settles O46: each register by reset()'s assignment, PC by whether there is an override; on the default mapper the
vector's reads change nothing. -/
theorem resetSetsEveryRegister : Obligations.ResetSetsEveryRegister := by
  unfold Obligations.ResetSetsEveryRegister
  rintro override s _ rfl
  rw [resetMachine, afterVector_default]
  refine ⟨rfl, rfl, rfl, rfl, rfl, rfl, ?_, ?_, rfl, rfl, rfl⟩
  · rintro target rfl
    rfl
  · rintro rfl
    rfl

end Sys2Proof.Machine
